-- ==== Sys2Proof/Word.lean ====
section
/-! DEFINITION. The words of the R2K block (spec/00_scope.md R16, R17): unsigned bit vectors of the widths the register map
of spec/10_state.md R32 gives, and byte strings. -/

namespace Sys2Proof

/-- A byte of a buffer. -/
abbrev Byte := BitVec 8

/-- A 16-bit field (lengths, counts, indices). -/
abbrev Half := BitVec 16

/-- A 32-bit register or command word. -/
abbrev Word := BitVec 32

/-- A byte string, byte 0 first (R17). -/
abbrev Bytes := List Byte

end Sys2Proof
end

