-- ==== Sys2Proof/Config.lean ====
section
/-! DEFINITION. What the spec fixes for the block as parameters (spec/00_scope.md §4, spec/10_state.md R72). The quantities that
spec/92_eei_decisions.md leaves OPEN are opaque constants with no body: no proof can see their values. -/

namespace Sys2Proof.Config

/-- `ID` (R2, R33). -/
def idValue : Word := 0x524B0001

/-- `ENT_LENGTHS` (R10). -/
def entLengths : List Nat := [16, 20, 24, 28, 32]

/-- `WORD_COUNTS` (R10). -/
def wordCounts : List Nat := [12, 15, 18, 21, 24]

/-- The number of table entries (R10). -/
def tableSize : Nat := 2048

/-- `WORD_MAX` (R11). -/
def wordMax : Nat := 64

/-- `TEXT_MAX` (R11). -/
def textMax : Nat := 2048

/-- `NORM_MAX` (R11). -/
def normMax : Nat := 4096

/-- `PASS_MAX` (R11). -/
def passMax : Nat := 1024

/-- `SALT_MAX` (R11). -/
def saltMax : Nat := 2048

/-- `OUT_MAX` (R11). -/
def outMax : Nat := 2048

/-- `TOK_MAX` (R11). -/
def tokMax : Nat := 24

/-- The word separator U+0020 (R10). -/
def space : Byte := 0x20

/-- The salt prefix `ascii("mnemonic")` (R10, R19). -/
def saltPrefix : Bytes := [0x6D, 0x6E, 0x65, 0x6D, 0x6F, 0x6E, 0x69, 0x63]

/-- Parameter `HASH256` (R12): a total function from byte strings to 32-byte digests. Log 1. -/
opaque hash256 : Bytes → Vector Byte 32

/-- The raw map behind parameter `NFKD` (R13). `Sys2Proof.Machine.nfkd` restricts it to well-formed UTF-8 and fixes
the empty text. Log 2. -/
opaque nfkdMap : Bytes → Bytes

/-- Parameter `LAT(cmd, state)` (R14), for whatever type the state has. Log 3. -/
opaque lat (σ : Type) : Word → σ → Nat

/-- Parameter `BLOCK_BASE` (R15): the platform address of the window. -/
opaque blockBase : Nat

/-- Free value: what the port answers, if it answers, to the `n`-th access made while RST is asserted (R300, 93 U10): data and
whether the response is OKAY. Log 6. -/
opaque rstAnswer : Nat → Option (Word × Bool)

end Sys2Proof.Config
end

