-- ==== Sys2Proof/Machine/HostPort.lean ====
section
/-! DEFINITION. The vocabulary of the host port (spec/20_memory.md §1, spec/10_state.md R32, R55): registers and buffers by
name, accesses, answers, and what can arrive from outside. -/

namespace Sys2Proof.Machine

/-- The registers of the map of R32. -/
inductive Reg where
  | id | ctrl | cmd | status | errflags | irqStatus | entLen | wordCount | textLen | passLen
  | normLen | outLen | saltLen | cksum | tblCount | stageLen | lookupIdx | errIndex | result
deriving DecidableEq, Repr

/-- The nine data buffers of R55. -/
inductive Buf where
  | entBuf | idxBuf | stageBuf | tokTable | textIn | textOut | passIn | saltBuf | normBuf
deriving DecidableEq, Repr

/-- The size n of a host access: 1, 2 or 4 bytes (R80). -/
inductive Width where
  | w1 | w2 | w4
deriving DecidableEq, Repr

/-- The two primitives of R80. A write of n bytes uses the low n bytes of its data (R82). -/
inductive Access where
  | read (off : Half) (n : Width)
  | write (off : Half) (n : Width) (v : Word)
deriving DecidableEq, Repr

/-- resp of R80. -/
inductive Resp where
  | okay | error
deriving DecidableEq, Repr

/-- What the port returns for one access: (data, resp) for a read, resp for a write (R80). -/
inductive Answer where
  | read (data : Word) (resp : Resp)
  | write (resp : Resp)
deriving DecidableEq, Repr

/-- What one clock cycle can bring from outside (R80, R81, R92, R128, R300). -/
inductive HostEvent where
  /-- no access in this cycle -/
  | quiet
  /-- one host access -/
  | access (a : Access)
  /-- the polling loop `wait` of R128: read STATUS, stay while bit 0 is 1 -/
  | wait
  /-- wait for the IRQ output (R94) -/
  | waitIrq
  /-- one clock edge at which RST is sampled asserted, with an access presented at the same time or none (R300) -/
  | rst (during : Option Access)
deriving DecidableEq, Repr

end Sys2Proof.Machine
end

