-- ==== Sys2Proof/Syntax.lean ====
section
/-! DEFINITION. The commands of the block (spec/30_encoding.md R123): one constructor per row of the opcode table. A command
carries no operand (R121): every operand is a fixed register or buffer. -/

namespace Sys2Proof

inductive Instr where
  /-- NOP, R150. -/
  | nop
  /-- ZEROIZE, R151. -/
  | zeroize
  /-- TBL_RESET, R191. -/
  | tblReset
  /-- TBL_PUSH, R193. -/
  | tblPush
  /-- TBL_SEAL, R194. -/
  | tblSeal
  /-- TBL_READ, R195. -/
  | tblRead
  /-- TBL_FIND, R196. -/
  | tblFind
  /-- CKSUM, R162. -/
  | cksum
  /-- PACK, R174. -/
  | pack
  /-- UNPACK, R175. -/
  | unpack
  /-- NORMALIZE, R222. -/
  | normalize
  /-- SALT, R224. -/
  | salt
  /-- W2I, R198. -/
  | w2i
  /-- I2W, R199. -/
  | i2w
  /-- E2M, R240. -/
  | e2m
  /-- M2E_TXT, R241. -/
  | m2eTxt
  /-- M2E_BIN, R242. -/
  | m2eBin
  /-- VAL_TXT, R243. -/
  | valTxt
  /-- VAL_BIN, R244. -/
  | valBin
  /-- SEEDPREP_TXT, R245. -/
  | seedprepTxt
  /-- SEEDPREP_BIN, R246. -/
  | seedprepBin
deriving DecidableEq, Repr

end Sys2Proof
end

