-- ==== Sys2Proof/WellFormed.lean ====
section
/-! DEFINITION. Which terms are well-formed. A command has no operand, so every command is well-formed (spec/30_encoding.md
R121). A write of n bytes carries a value of n bytes (spec/20_memory.md R80, spec/30_encoding.md R127). -/

namespace Sys2Proof

/-- Every command is well-formed: a command word has no immediate and no register specifier (R121). -/
def Instr.wellFormed : Instr → Bool
  | .nop | .zeroize | .tblReset | .tblPush | .tblSeal | .tblRead | .tblFind => true
  | .cksum | .pack | .unpack => true
  | .normalize | .salt | .w2i | .i2w => true
  | .e2m | .m2eTxt | .m2eBin | .valTxt | .valBin | .seedprepTxt | .seedprepBin => true

namespace Machine

/-- The n of an access, in bytes (R80). -/
def Width.bytes : Width → Nat
  | .w1 => 1
  | .w2 => 2
  | .w4 => 4

/-- A write's value fits its n bytes (R80, R127). -/
def Access.wellFormed : Access → Bool
  | .read _ _ => true
  | .write _ n v => decide (v.toNat < 256 ^ n.bytes)

/-- Every access an event carries is well-formed. -/
def HostEvent.wellFormed : HostEvent → Bool
  | .quiet | .wait | .waitIrq | .rst none => true
  | .access a | .rst (some a) => a.wellFormed

end Machine
end Sys2Proof
end

