-- ==== Sys2Proof/Decode.lean ====
section
/-! DEFINITION. Command words: decoding (spec/30_encoding.md R120-R125), total on every 32-bit word and on any bytes, and the
encoder written from the same opcode map (R123). -/

namespace Sys2Proof

/-- Why bytes are no command. -/
inductive DecodeError where
  /-- bits [31:8] not zero, or an OPC outside R123: such a word is accepted and completes with IllegalCommand (R124). Safe. -/
  | illegalCommand
  /-- fewer than the four bytes of a command word (R120). Safe. -/
  | truncated
deriving DecidableEq, Repr

/-- The opcode map of R123. -/
def opcodeMap : List (Byte × Instr) :=
  [(0x00, .nop), (0x01, .zeroize), (0x02, .tblReset), (0x03, .tblPush), (0x04, .tblSeal), (0x05, .tblRead),
   (0x06, .tblFind), (0x10, .cksum), (0x11, .pack), (0x12, .unpack), (0x20, .normalize), (0x21, .salt)] ++
  [(0x30, .w2i), (0x31, .i2w), (0x40, .e2m), (0x41, .m2eTxt), (0x42, .m2eBin), (0x43, .valTxt),
   (0x44, .valBin), (0x45, .seedprepTxt), (0x46, .seedprepBin)]

/-- Field OPC, bits [7:0] (R120). -/
def opcOf (w : Word) : Byte := w.extractLsb' 0 8

/-- Field MBZ, bits [31:8] (R120). -/
def mbzOf (w : Word) : BitVec 24 := w.extractLsb' 8 24

/-- `decode` of R122. -/
def decode (w : Word) : Except DecodeError Instr :=
  if mbzOf w = 0 then
    match opcodeMap.find? (fun row => row.1 == opcOf w) with
    | some row => .ok row.2
    | none => .error .illegalCommand
  else .error .illegalCommand

/-- The four bytes of a word as the little-endian port lays them out (spec/20_memory.md R82). -/
def wordBytes (w : Word) : Bytes :=
  [w.extractLsb' 0 8, w.extractLsb' 8 8, w.extractLsb' 16 8, w.extractLsb' 24 8]

/-- Decoding from bytes at rising offsets: the command of the first word and the bytes after it. -/
def decodeBytes : Bytes → Except DecodeError (Instr × Bytes)
  | b0 :: b1 :: b2 :: b3 :: rest => (decode (b3 ++ b2 ++ b1 ++ b0)).map (fun i => (i, rest))
  | _ => .error .truncated

/-- The command word of a command, from the OPC column of R123; bits [31:8] are 0 (R120). -/
def encode : Instr → Word
  | .nop => 0x00000000
  | .zeroize => 0x00000001
  | .tblReset => 0x00000002
  | .tblPush => 0x00000003
  | .tblSeal => 0x00000004
  | .tblRead => 0x00000005
  | .tblFind => 0x00000006
  | .cksum => 0x00000010
  | .pack => 0x00000011
  | .unpack => 0x00000012
  | .normalize => 0x00000020
  | .salt => 0x00000021
  | .w2i => 0x00000030
  | .i2w => 0x00000031
  | .e2m => 0x00000040
  | .m2eTxt => 0x00000041
  | .m2eBin => 0x00000042
  | .valTxt => 0x00000043
  | .valBin => 0x00000044
  | .seedprepTxt => 0x00000045
  | .seedprepBin => 0x00000046

/-- The bytes of a command's word. -/
def encodeBytes (i : Instr) : Bytes := wordBytes (encode i)

/-- The 32-bit word of a table row's bits; bits at `nbits` and above are 0. -/
def tableWord (nbits w : Nat) : Word := BitVec.ofNat 32 (w % 2 ^ nbits)

/-- The command the decoder reads from a table row's bits. -/
def decodeTableWord (nbits w : Nat) : Option Instr :=
  match decodeBytes (wordBytes (tableWord nbits w)) with
  | .ok (i, _) => some i
  | .error _ => none

end Sys2Proof
end

