-- ==== Sys2Proof/Machine/State.lean ====
section
/-! DEFINITION. The state of the block (spec/10_state.md §2-§4), its reset value (R75), and the reasons a step can stop. -/

namespace Sys2Proof.Machine

/-- The sequencer (R31). `busy left`: a command runs and completes after `left` further cycles (R14, R320; log 3). -/
inductive Seq where
  | idle
  | busy (left : Nat)
deriving DecidableEq, Repr

/-- The error kinds of spec/60_exceptions.md R270 that a command can raise. Code 6 ExternalEntropyUnavailable has no
constructor: it is never raised (R271). -/
inductive ErrKind where
  | invalidEntropyLength | invalidWordlist | invalidMnemonicWordCount | unknownWord | checksumMismatch
  | invalidText | capacityExceeded | illegalCommand | sequenceError
deriving DecidableEq, Repr

/-- `raise <Error>(info)` of spec/00_scope.md R18. -/
structure Raise where
  kind : ErrKind
  info : Half
deriving DecidableEq, Repr

/-- Everything the spec gives the block. The nine buffers are one memory, a list of (window offset, byte) in canonical form
(`Memory.wf`); an unlisted offset reads 0x00, the reset contents (R55, R75). The word table is a list of (index, entry) in the
same form; an unlisted entry is empty (R66). ID, STATUS.BUSY and IRQ have no storage of their own (R33, R36, R71). -/
structure State where
  /-- SEQ, R31 -/
  seq : Seq
  /-- CMD, R35 -/
  cmd : Word
  /-- CTRL.IRQ_EN, R34 -/
  irqEn : Bool
  /-- CTRL.IRQ_EN from before the running command, which a CTRL read returns while BUSY (spec/20_memory.md R91); log 22 -/
  irqEnHeld : Bool
  /-- STATUS.DONE, R36 -/
  done : Bool
  /-- STATUS.ERR, R36 -/
  err : BitVec 4
  /-- STATUS.TABLE_VALID, R68 -/
  tableValid : Bool
  /-- STATUS.TBL_OVER, R67 -/
  tblOver : Bool
  /-- STATUS.TBL_BAD, R67 -/
  tblBad : Bool
  /-- ERRFLAGS.OVERRUN, R37 -/
  overrun : Bool
  /-- ERRFLAGS.BUSY_WR, R37 -/
  busyWr : Bool
  /-- IRQ_STATUS.DONE_IRQ, R38 -/
  doneIrq : Bool
  /-- ENT_LEN, R39 -/
  entLen : Byte
  /-- WORD_COUNT, R40 -/
  wordCount : Half
  /-- TEXT_LEN, R41 -/
  textLen : Half
  /-- PASS_LEN, R42 -/
  passLen : Half
  /-- NORM_LEN, R43 -/
  normLen : Half
  /-- OUT_LEN, R44 -/
  outLen : Half
  /-- SALT_LEN, R45 -/
  saltLen : Half
  /-- CKSUM.CK, R46 -/
  ck : Byte
  /-- CKSUM.CSN, R46 -/
  csn : BitVec 4
  /-- TBL_COUNT, R47 -/
  tblCount : Half
  /-- STAGE_LEN, R48 -/
  stageLen : Byte
  /-- LOOKUP_IDX, R49 -/
  lookupIdx : Half
  /-- ERR_INDEX, R50 -/
  errIndex : Half
  /-- RESULT.VALID, R51 -/
  resValid : Bool
  /-- RESULT.REASON, R51 -/
  resReason : BitVec 4
  /-- the nine buffers, R55 -/
  mem : List Host.Cell
  /-- the word table WT, R66 -/
  wt : List (Nat × Bytes)
  /-- MODEL'S OWN: what is still to arrive from outside, in order (spec/20_memory.md R92); log 4 -/
  host : List HostEvent
  /-- MODEL'S OWN: the port's most recent answer (spec/20_memory.md R80); log 4 -/
  resp : Option Answer
  /-- MODEL'S OWN: draws a fresh free value for `Config.rstAnswer`; log 6 -/
  freeCount : Nat
deriving DecidableEq, Repr

/-- The state right after reset (R75, spec/70_reset_and_hazards.md R300). `host`, `resp` and `freeCount` are the model's own
(logs 4 and 6). -/
def State.reset : State where
  seq := .idle
  cmd := 0
  irqEn := false
  irqEnHeld := false
  done := false
  err := 0
  tableValid := false
  tblOver := false
  tblBad := false
  overrun := false
  busyWr := false
  doneIrq := false
  entLen := 0
  wordCount := 0
  textLen := 0
  passLen := 0
  normLen := 0
  outLen := 0
  saltLen := 0
  ck := 0
  csn := 0
  tblCount := 0
  stageLen := 0
  lookupIdx := 0
  errIndex := 0xFFFF
  resValid := false
  resReason := 0
  mem := []
  wt := []
  host := []
  resp := none
  freeCount := 0

/-- The block never stops with a fault: it has no trap, and every command and every access completes (spec/60_exceptions.md
R280, R287). So this type has no constructor (log 12). Safe. -/
inductive Fault where
deriving DecidableEq, Repr

/-- Why a step has no meaning. -/
inductive Refusal where
  /-- raised by `exec` for a command whose meaning is not written yet; no arm raises it now. Safe. -/
  | notModelled (mnemonic : String)
deriving DecidableEq, Repr

end Sys2Proof.Machine
end

