-- ==== Sys2Proof/Machine/Flags.lean ====
section
/-! DEFINITION. Status, flag and result words (spec/10_state.md R34, R36-R38, R46, R51, R71), the error codes
(spec/60_exceptions.md R270) and the checksum slice (spec/41_checksum.md R161). -/

namespace Sys2Proof.Machine

/-- The codes of R270. -/
def ErrKind.code : ErrKind → BitVec 4
  | .invalidEntropyLength => 1
  | .invalidWordlist => 2
  | .invalidMnemonicWordCount => 3
  | .unknownWord => 4
  | .checksumMismatch => 5
  | .invalidText => 7
  | .capacityExceeded => 8
  | .illegalCommand => 9
  | .sequenceError => 10

/-- STATUS.BUSY: 1 iff SEQ = BUSY (R36). -/
def isBusy (s : State) : Bool :=
  match s.seq with
  | .idle => false
  | .busy _ => true

/-- The IRQ output: `IRQ = CTRL.IRQ_EN & IRQ_STATUS.DONE_IRQ` (R71, R285). -/
def irq (s : State) : Bool := s.irqEn && s.doneIrq

/-- IRQ_EN as CTRL shows it: while BUSY its value from before the command, although a CTRL write while BUSY is in force at once
(spec/20_memory.md R91, spec/70_reset_and_hazards.md R306, D29). -/
def irqEnShown (s : State) : Bool := if isBusy s then s.irqEnHeld else s.irqEn

/-- CTRL as read: bit 0 IRQ_EN; SRST reads 0 (R34). -/
def ctrlWord (s : State) : Word := 0#31 ++ BitVec.ofBool (irqEnShown s)

/-- STATUS as read (R36). -/
def statusWord (s : State) : Word :=
  0#21 ++ BitVec.ofBool s.tblBad ++ BitVec.ofBool s.tblOver ++ BitVec.ofBool s.tableValid ++ s.err ++ 0#2 ++
    BitVec.ofBool s.done ++ BitVec.ofBool (isBusy s)

/-- ERRFLAGS as read (R37). -/
def errflagsWord (s : State) : Word := 0#30 ++ BitVec.ofBool s.busyWr ++ BitVec.ofBool s.overrun

/-- IRQ_STATUS as read (R38). -/
def irqStatusWord (s : State) : Word := 0#31 ++ BitVec.ofBool s.doneIrq

/-- CKSUM as read: CSN [11:8], CK [7:0] (R46). -/
def cksumWord (s : State) : Word := 0#20 ++ s.csn ++ s.ck

/-- RESULT as read: REASON [7:4], VALID [0] (R51). -/
def resultWord (s : State) : Word := 0#24 ++ s.resReason ++ 0#3 ++ BitVec.ofBool s.resValid

/-- A write-1-to-clear bit after a write of `w` to it (R32). -/
def w1c (flag w : Bool) : Bool := flag && !w

/-- The checksum byte of a digest byte for `cs` checksum bits: `(d0 >> (8-CS)) << (8-CS)` (R161). -/
def slice (d0 : Byte) (cs : Nat) : Byte := (d0 >>> (8 - cs)) <<< (8 - cs)

/-- CK of entropy `e` (R161): the slice of digest byte 0 for CS = L / 4. -/
def ckOf (e : Bytes) : Byte := slice (Config.hash256 e)[0] (e.length / 4)

end Sys2Proof.Machine
end

