-- ==== Sys2Proof/Machine/Ops.lean ====
section
/-! DEFINITION. The shared operations over memory, the word table and the control state: canonical sparse memory, byte order,
buffers, accepting a command (spec/10_state.md R35), completing one (R70: commit, raise, spec/00_scope.md R18) and reset
(spec/70_reset_and_hazards.md R300). -/

namespace Sys2Proof.Machine

/-! ### Canonical sparse storage -/

/-- What key `a` holds; `d` where nothing is listed. -/
def Sparse.get {α : Type} (d : α) : List (Nat × α) → Nat → α
  | [], _ => d
  | (k, v) :: m, a => if k = a then v else Sparse.get d m a

/-- The cells of values laid at rising keys from `a`; a value equal to `d` is not listed. -/
def Sparse.cells {α : Type} [DecidableEq α] (d : α) : Nat → List α → List (Nat × α)
  | _, [] => []
  | a, v :: vs => if v = d then Sparse.cells d (a + 1) vs else (a, v) :: Sparse.cells d (a + 1) vs

/-- Keys `a` up to `a + n` become the values `vs`, and `d` where `vs` ends earlier; every other key is left alone. -/
def Sparse.store {α : Type} [DecidableEq α] (d : α) (m : List (Nat × α)) (a n : Nat) (vs : List α) : List (Nat × α) :=
  m.filter (fun c => c.1 < a) ++ Sparse.cells d a (vs.take n) ++ m.filter (fun c => a + n ≤ c.1)

/-- The canonical form: keys strictly rising, no value equal to what an unlisted key reads as. -/
abbrev Sparse.wf {α : Type} [DecidableEq α] (d : α) (m : List (Nat × α)) : Prop :=
  m.Pairwise (fun x y => x.1 < y.1) ∧ ∀ c ∈ m, c.2 ≠ d

/-- The canonical form of the buffer memory: an unlisted offset reads 0x00 (R55, R75). -/
abbrev Memory.wf (m : List Host.Cell) : Prop := Sparse.wf (0 : Byte) m

/-- One byte of the window. -/
def readByte (s : State) (a : Nat) : Byte := Sparse.get 0 s.mem a

/-- The `n` bytes from offset `a`. -/
def bytesAt (s : State) (a n : Nat) : Bytes := (List.range n).map (fun i => readByte s (a + i))

/-- The bytes from `a` up to `a + n` become `vs`, zero-padded. -/
def storeBytes (s : State) (a n : Nat) (vs : Bytes) : State :=
  { s with mem := Sparse.store 0 s.mem a n vs }

/-- `WT[i]` (R66). -/
def wtEntry (wt : List (Nat × Bytes)) (i : Nat) : Bytes := Sparse.get [] wt i

/-! ### Byte order (R82) -/

/-- The low `n` bytes of `v`, least significant first. -/
def leBytes : Nat → Nat → Bytes
  | 0, _ => []
  | n + 1, v => BitVec.ofNat 8 v :: leBytes n (v / 256)

/-- The value of bytes, least significant first. -/
def leVal : Bytes → Nat
  | [] => 0
  | b :: bs => b.toNat + 256 * leVal bs

/-! ### Buffers (R55) -/

/-- First offset of a buffer (R55). -/
def Buf.base : Buf → Nat
  | .entBuf => 0x0100
  | .idxBuf => 0x0140
  | .stageBuf => 0x0180
  | .tokTable => 0x0200
  | .textIn => 0x1000
  | .textOut => 0x2000
  | .passIn => 0x3000
  | .saltBuf => 0x4000
  | .normBuf => 0x8000

/-- Size of a buffer in bytes (R55, R11). -/
def Buf.size : Buf → Nat
  | .entBuf => 32
  | .idxBuf => 48
  | .stageBuf => Config.wordMax
  | .tokTable => 4 * Config.tokMax
  | .textIn => Config.textMax
  | .textOut => Config.outMax
  | .passIn => Config.passMax
  | .saltBuf => Config.saltMax
  | .normBuf => Config.normMax

/-- RW buffers take host writes when IDLE; RO buffers ignore them (R55). -/
def Buf.isRw : Buf → Bool
  | .entBuf | .idxBuf | .stageBuf | .textIn | .passIn => true
  | .tokTable | .textOut | .saltBuf | .normBuf => false

/-- The nine buffers of R55. -/
def Buf.all : List Buf :=
  [.entBuf, .idxBuf, .stageBuf, .tokTable, .textIn, .textOut, .passIn, .saltBuf, .normBuf]

/-- Offset `a` lies in buffer `b`. -/
abbrev Buf.holds (b : Buf) (a : Nat) : Prop := b.base ≤ a ∧ a < b.base + b.size

/-- `buf[B][0..n)` (spec/00_scope.md R18). -/
def bufBytes (s : State) (b : Buf) (n : Nat) : Bytes := bytesAt s b.base n

/-- `buf[B] <- vs` (R18): the bytes become `vs` and every later byte of B becomes 0x00. -/
def commitBuf (s : State) (b : Buf) (vs : Bytes) : State := storeBytes s b.base b.size vs

/-- `half[IDX][j]` (R18, R56). -/
def half (s : State) (j : Nat) : Nat := leVal (bytesAt s (Buf.idxBuf.base + 2 * j) 2)

/-- TOK[j].TOK_OFF (R58). -/
def tokOff (s : State) (j : Nat) : Nat := leVal (bytesAt s (Buf.tokTable.base + 4 * j) 2)

/-- TOK[j].TOK_LEN (R58). -/
def tokLen (s : State) (j : Nat) : Nat := leVal (bytesAt s (Buf.tokTable.base + 4 * j + 2) 2)

/-- IDX_BUF becomes the indices `vs`, halfwords after them 0 (R56). -/
def commitIdx (s : State) (vs : List Nat) : State := commitBuf s .idxBuf (vs.flatMap (leBytes 2))

/-- TOK_TABLE becomes the descriptors (offset, length), later descriptors 0 (R58). -/
def commitTok (s : State) (ds : List (Nat × Nat)) : State :=
  commitBuf s .tokTable (ds.flatMap (fun d => leBytes 2 d.1 ++ leBytes 2 d.2))

/-! ### Accepting, completing, reset -/

/-- ERR_INDEX where there is no position (R18, R50). -/
def noIndex : Half := 0xFFFF

/-- `raise <Error>(0xFFFF)` (R18). -/
def fail {α : Type} (k : ErrKind) : Except Raise α := .error ⟨k, noIndex⟩

/-- `raise UnknownWord(j)` (R277). -/
def failAt {α : Type} (j : Nat) : Except Raise α := .error ⟨.unknownWord, BitVec.ofNat 16 j⟩

/-- Word `w` becomes the running command, with `left` cycles before its completion step (R35). IRQ_EN from before the command is
held for CTRL reads while BUSY (spec/20_memory.md R91; log 22). -/
def issue (s : State) (w : Word) (left : Nat) : State :=
  { s with cmd := w, seq := .busy left, done := false, err := 0, irqEnHeld := s.irqEn }

/-- Acceptance of a command (R35). It completes LAT >= 1 cycles later (R14, R320; log 3). -/
def accept (s : State) (w : Word) : State := issue s w (max 1 (Config.lat State w s) - 1)

/-- Completion (R70): STATUS.BUSY <- 0, DONE <- 1, DONE_IRQ <- 1, STATUS.ERR and ERR_INDEX as given. -/
def finish (s : State) (err : BitVec 4) (info : Half) : State :=
  { s with seq := .idle, done := true, doneIrq := true, err := err, errIndex := info }

/-- The end of a command run in state `s`: `commit` of the state that holds its commit set, or `raise`, which leaves everything
but STATUS.ERR and ERR_INDEX as it was (R18, R70, spec/60_exceptions.md R280, R284). -/
def complete (s : State) : Except Raise State → State
  | .ok t => finish t 0 noIndex
  | .error r => finish s r.kind.code r.info

/-- The end of a VAL command (spec/45_composite.md R243, R244): RESULT tells the outcome of the checks, ERR_INDEX the position,
and STATUS.ERR is 0. -/
def completeVal {α : Type} (s : State) : Except Raise α → State
  | .ok _ => finish { s with resValid := true, resReason := 0 } 0 noIndex
  | .error r => finish { s with resValid := false, resReason := r.kind.code } 0 r.info

/-- The end of an illegal command word: IllegalCommand, ERR_INDEX 0xFFFF, no other effect (spec/30_encoding.md R124). -/
def completeIllegal (s : State) : State := complete s (fail .illegalCommand)

/-- Reset of the block (R300, R301): every piece of its state at its reset value. What is outside the block stays: the host's
queue, the port's answer already given, the free-value counter (log 8). -/
def resetBlock (s : State) : State :=
  { State.reset with host := s.host, resp := s.resp, freeCount := s.freeCount }

end Sys2Proof.Machine
end

