-- ==== Sys2Proof/Machine/Operands.lean ====
section
/-! DEFINITION. The operands of the commands and their checks: entropy (spec/41_checksum.md R160), word count and indices
(spec/43_wordtable.md R197), the table gate and lookups (R190, spec/10_state.md R69), text (spec/44_normalizer.md R220-R223). -/

namespace Sys2Proof.Machine

/-! ### Entropy -/

/-- `ent_ok` (R160). -/
def entOk (l : Nat) : Bool := Config.entLengths.contains l

/-- The entropy operand: ENT_BUF[0..L) for a legal L = ENT_LEN, else InvalidEntropyLength (R160, R162). -/
def entropyIn (s : State) : Except Raise Bytes :=
  if entOk s.entLen.toNat then .ok (bufBytes s .entBuf s.entLen.toNat) else fail .invalidEntropyLength

/-! ### Word count and indices -/

/-- N ∈ {12,15,18,21,24} (R10). -/
def countOk (n : Nat) : Bool := Config.wordCounts.contains n

/-- The word-count check on WORD_COUNT (R275). -/
def countIn (s : State) : Except Raise Nat :=
  if countOk s.wordCount.toNat then .ok s.wordCount.toNat else fail .invalidMnemonicWordCount

/-- Indices in ascending position from `j`: the first one above 2047 raises UnknownWord at its position (R197). -/
def checkRange : List Nat → Nat → Except Raise Unit
  | [], _ => .ok ()
  | v :: vs, j => if v > 2047 then failAt j else checkRange vs (j + 1)

/-- The index operands: WORD_COUNT legal, then IDX_BUF halfwords 0..N-1 in range (R175, R197). -/
def indicesIn (s : State) : Except Raise (List Nat) := do
  let n ← countIn s
  let v := (List.range n).map (half s)
  checkRange v 0
  return v

/-! ### The word table -/

/-- `need_table` (R190). -/
def needTable (s : State) : Except Raise Unit :=
  if s.tableValid then .ok () else fail .invalidWordlist

/-- The lowest index from `i` on that the table does not list. -/
def firstEmpty : List (Nat × Bytes) → Nat → Option Nat
  | [], i => if i < Config.tableSize then some i else none
  | (k, _) :: wt, i => if i < k then some i else firstEmpty wt (i + 1)

/-- `RIDX(w)`, the lowest index whose entry equals w (R69). The table is listed in rising order, so the first listed match is the
lowest; the entries equal to "" are the unlisted ones. -/
def ridx (wt : List (Nat × Bytes)) (w : Bytes) : Option Nat :=
  if w = [] then firstEmpty wt 0 else (wt.find? (fun e => e.2 == w)).map (·.1)

/-- The reverse lookups of tokens in ascending position from `j`: the first unknown one raises UnknownWord (R198). -/
def lookupAll (wt : List (Nat × Bytes)) : List Bytes → Nat → Except Raise (List Nat)
  | [], _ => .ok []
  | w :: ws, j =>
    match ridx wt w with
    | none => failAt j
    | some i => (lookupAll wt ws (j + 1)).map (i :: ·)

/-! ### Text -/

/-- What a lead byte asks for: how many continuation bytes, and the range of the first of them. The table of well-formed UTF-8
byte sequences of the Unicode Standard (spec/00_scope.md R19, 93 G3; log 9). -/
def utf8Lead (b : Byte) : Option (Nat × Byte × Byte) :=
  if b ≤ 0x7F then some (0, 0x80, 0xBF)
  else if b < 0xC2 then none
  else if b ≤ 0xDF then some (1, 0x80, 0xBF)
  else if b = 0xE0 then some (2, 0xA0, 0xBF)
  else if b = 0xED then some (2, 0x80, 0x9F)
  else if b ≤ 0xEF then some (2, 0x80, 0xBF)
  else if b = 0xF0 then some (3, 0x90, 0xBF)
  else if b ≤ 0xF3 then some (3, 0x80, 0xBF)
  else if b = 0xF4 then some (3, 0x80, 0x8F)
  else none

/-- Well-formedness of the rest of a string, with so many continuation bytes due and the next of them within [lo, hi]. -/
def utf8Rest : Nat → Byte → Byte → Bytes → Bool
  | need, _, _, [] => need == 0
  | 0, _, _, b :: bs =>
    match utf8Lead b with
    | some (n, lo, hi) => utf8Rest n lo hi bs
    | none => false
  | n + 1, lo, hi, b :: bs => decide (lo ≤ b ∧ b ≤ hi) && utf8Rest n 0x80 0xBF bs

/-- `utf8_wf` (R19): shortest form, no surrogates, nothing above U+10FFFF. -/
def utf8Wf (t : Bytes) : Bool := utf8Rest 0 0x80 0xBF t

/-- Parameter `NFKD` (R13): a total function from well-formed UTF-8 to well-formed UTF-8, with the empty text for the empty text,
as the corner cases of R222 and R224 say. Any such function is this one for some `Config.nfkdMap`, and this one is such a function
for every `Config.nfkdMap` (log 2). -/
def nfkd (t : Bytes) : Bytes :=
  if t = [] then []
  else if utf8Wf (Config.nfkdMap t) then Config.nfkdMap t
  else t

/-- `split_sp` (R19): the sub-strings between 0x20 bytes, one more than there are such bytes. -/
def splitSp : Bytes → List Bytes
  | [] => [[]]
  | b :: bs =>
    if b = Config.space then [] :: splitSp bs
    else
      match splitSp bs with
      | [] => [[b]]
      | w :: ws => (b :: w) :: ws

/-- `join_sp` (R19). -/
def joinSp : List Bytes → Bytes
  | [] => []
  | [w] => w
  | w :: ws => w ++ Config.space :: joinSp ws

/-- `text_in` (R220): capacity first, then UTF-8. -/
def textIn (s : State) (b : Buf) (n cap : Nat) : Except Raise Bytes :=
  if n > cap then fail .capacityExceeded
  else if utf8Wf (bufBytes s b n) then .ok (bufBytes s b n)
  else fail .invalidText

/-- A normalized mnemonic: its bytes and its tokens (R221). -/
structure NormText where
  text : Bytes
  toks : List Bytes
deriving DecidableEq, Repr

/-- `norm_tok` (R221): NFKD, the capacity check, the literal split at 0x20, the token-count check. -/
def normTok (t : Bytes) : Except Raise NormText :=
  let n := nfkd t
  if n.length > Config.normMax then fail .capacityExceeded
  else if countOk (splitSp n).length then .ok ⟨n, splitSp n⟩
  else fail .invalidMnemonicWordCount

/-- The descriptors (off_j, len_j) of tokens from offset `off` on: `off_{j+1} = off_j + len_j + 1` (R221). -/
def descriptors : Nat → List Bytes → List (Nat × Nat)
  | _, [] => []
  | off, w :: ws => (off, w.length) :: descriptors (off + w.length + 1) ws

/-- The mnemonic text operand: TEXT_IN[0..TEXT_LEN), checked, normalized and tokenized (R222). -/
def mnemonicIn (s : State) : Except Raise NormText := do
  let t ← textIn s .textIn s.textLen.toNat Config.textMax
  normTok t

/-- `salt` (R223). -/
def saltOf (p : Bytes) : Except Raise Bytes :=
  let v := Config.saltPrefix ++ nfkd p
  if v.length > Config.saltMax then fail .capacityExceeded else .ok v

/-- The passphrase operand turned into the salt: PASS_IN[0..PASS_LEN), checked, then `salt` (R224). -/
def saltIn (s : State) : Except Raise Bytes := do
  let p ← textIn s .passIn s.passLen.toNat Config.passMax
  saltOf p

/-! ### Staged word -/

/-- `entry_ok(len, w)` (R192). -/
def entryOk (len : Nat) (w : Bytes) : Bool := decide (1 ≤ len ∧ len ≤ Config.wordMax) && utf8Wf w

/-- The staged word of TBL_PUSH: STAGE_BUF[0..min(len, 64)) (R193). -/
def stagedWord (s : State) : Bytes := bufBytes s .stageBuf (min s.stageLen.toNat Config.wordMax)

end Sys2Proof.Machine
end

