-- ==== Sys2Proof/Machine/Normalizer.lean ====
section
/-! DEFINITION. Mnemonic normalizer and tokenizer (spec/44_normalizer.md). -/

namespace Sys2Proof.Machine

/-- NORMALIZE's commit set (R222): NORM_BUF, NORM_LEN, TOK_TABLE, WORD_COUNT. -/
def commitNorm (s : State) (m : NormText) : State :=
  { commitTok (commitBuf s .normBuf m.text) (descriptors 0 m.toks) with
    normLen := BitVec.ofNat 16 m.text.length, wordCount := BitVec.ofNat 16 m.toks.length }

/-- The pseudocode of NORMALIZE (R222). -/
def runNormalize (s : State) : Except Raise State := do
  let m ← mnemonicIn s
  return commitNorm s m

/-- NORMALIZE (R222). -/
def execNormalize (s : State) : Host.Outcome State Fault Refusal := .next (complete s (runNormalize s))

/-- SALT's commit set (R224): SALT_BUF, SALT_LEN. -/
def commitSalt (s : State) (v : Bytes) : State :=
  { commitBuf s .saltBuf v with saltLen := BitVec.ofNat 16 v.length }

/-- The pseudocode of SALT (R224). -/
def runSalt (s : State) : Except Raise State := do
  let v ← saltIn s
  return commitSalt s v

/-- SALT (R224). -/
def execSalt (s : State) : Host.Outcome State Fault Refusal := .next (complete s (runSalt s))

end Sys2Proof.Machine
end

