-- ==== Sys2Proof/Machine/Checksum.lean ====
section
/-! DEFINITION. Entropy-to-checksum slicer (spec/41_checksum.md). -/

namespace Sys2Proof.Machine

/-- `reg[CKSUM] <- (CS << 8) | CK` for entropy `e` (R162). -/
def commitCksum (s : State) (e : Bytes) : State :=
  { s with ck := ckOf e, csn := BitVec.ofNat 4 (e.length / 4) }

/-- The pseudocode of CKSUM (R162). -/
def runCksum (s : State) : Except Raise State := do
  let e ← entropyIn s
  return commitCksum s e

/-- CKSUM (R162). -/
def execCksum (s : State) : Host.Outcome State Fault Refusal := .next (complete s (runCksum s))

end Sys2Proof.Machine
end

