-- ==== Sys2Proof/Machine/Radix.lean ====
section
/-! DEFINITION. Radix codec: 11-bit packing and unpacking (spec/42_radix.md). -/

namespace Sys2Proof.Machine

/-- `bit(s, k)`: bit k of the MSB-first stream of a byte string (spec/00_scope.md R19). -/
def bitAt (e : Bytes) (k : Nat) : Bool := (e.getD (k / 8) 0).getLsbD (7 - k % 8)

/-- The value of bits, most significant first. -/
def bitsVal (bs : List Bool) : Nat := bs.foldl (fun acc b => 2 * acc + b.toNat) 0

/-- `idx(j)` of the stream E ‖ [CK] (R170, R171). -/
def packIdx (e : Bytes) (ck : Byte) (j : Nat) : Nat :=
  bitsVal ((List.range 11).map (fun t => bitAt (e ++ [ck]) (11 * j + t)))

/-- The N = 3L/4 indices of entropy `e` (R171, R172). -/
def packIndices (e : Bytes) : List Nat := (List.range (3 * e.length / 4)).map (packIdx e (ckOf e))

/-- PACK's commit set (R174): CKSUM, IDX_BUF, WORD_COUNT. -/
def commitPack (s : State) (e : Bytes) : State :=
  { commitIdx (commitCksum s e) (packIndices e) with wordCount := BitVec.ofNat 16 (3 * e.length / 4) }

/-- The pseudocode of PACK (R174). -/
def runPack (s : State) : Except Raise State := do
  let e ← entropyIn s
  return commitPack s e

/-- PACK (R174). -/
def execPack (s : State) : Host.Outcome State Fault Refusal := .next (complete s (runPack s))

/-- `s(k)`: bit k of the stream of 11-bit indices (R173). -/
def idxBit (v : List Nat) (k : Nat) : Bool := (v.getD (k / 11) 0).testBit (10 - k % 11)

/-- The decoded entropy E of N indices (R173). -/
def ungroupEntropy (v : List Nat) : Bytes :=
  (List.range (4 * v.length / 3)).map
    (fun i => BitVec.ofNat 8 (bitsVal ((List.range 8).map (fun t => idxBit v (8 * i + t)))))

/-- The decoded checksum CSV of N indices (R173). -/
def ungroupCsv (v : List Nat) : Nat :=
  bitsVal ((List.range (v.length / 3)).map (fun t => idxBit v (8 * (4 * v.length / 3) + t)))

/-- Indices to entropy with the checksum check (R175): the recomputed CK's top CS bits must equal CSV. -/
def decodeIndices (v : List Nat) : Except Raise Bytes :=
  let e := ungroupEntropy v
  if (ckOf e >>> (8 - v.length / 3)).toNat = ungroupCsv v then .ok e else fail .checksumMismatch

/-- UNPACK's commit set (R175): ENT_BUF, ENT_LEN, CKSUM. -/
def commitEntropy (s : State) (e : Bytes) : State :=
  { commitCksum (commitBuf s .entBuf e) e with entLen := BitVec.ofNat 8 e.length }

/-- The pseudocode of UNPACK (R175). -/
def runUnpack (s : State) : Except Raise State := do
  let v ← indicesIn s
  let e ← decodeIndices v
  return commitEntropy s e

/-- UNPACK (R175). -/
def execUnpack (s : State) : Host.Outcome State Fault Refusal := .next (complete s (runUnpack s))

end Sys2Proof.Machine
end

