-- ==== Sys2Proof/Machine/WordTable.lean ====
section
/-! DEFINITION. Word-index table lookup controller (spec/43_wordtable.md). -/

namespace Sys2Proof.Machine

/-- TBL_RESET (R191). -/
def execTblReset (s : State) : Host.Outcome State Fault Refusal :=
  .next (complete s (.ok { s with wt := [], tblCount := 0, tblOver := false, tblBad := false, tableValid := false }))

/-- `WT[n] <- w` (R193). -/
def setEntry (s : State) (n : Nat) (w : Bytes) : State := { s with wt := Sparse.store [] s.wt n 1 [w] }

/-- What a push stores (R193): below 2048 the entry, or "" with TBL_BAD; from 2048 on nothing, with TBL_OVER. -/
def pushEntry (s : State) (n len : Nat) (w : Bytes) : State :=
  if n < Config.tableSize then
    if entryOk len w then setEntry s n w else { setEntry s n [] with tblBad := true }
  else { s with tblOver := true }

/-- The pseudocode of TBL_PUSH (R193). TBL_COUNT saturates at 0xFFFF. -/
def runTblPush (s : State) : Except Raise State :=
  if s.tableValid then fail .sequenceError
  else
    let n := s.tblCount.toNat
    .ok { pushEntry s n s.stageLen.toNat (stagedWord s) with tblCount := BitVec.ofNat 16 (min (n + 1) 0xFFFF) }

/-- TBL_PUSH (R193). -/
def execTblPush (s : State) : Host.Outcome State Fault Refusal := .next (complete s (runTblPush s))

/-- The pseudocode of TBL_SEAL (R194). -/
def runTblSeal (s : State) : Except Raise State :=
  if s.tableValid then .ok s
  else if s.tblCount.toNat ≠ Config.tableSize ∨ s.tblOver = true ∨ s.tblBad = true then fail .invalidWordlist
  else .ok { s with tableValid := true }

/-- TBL_SEAL (R194). -/
def execTblSeal (s : State) : Host.Outcome State Fault Refusal := .next (complete s (runTblSeal s))

/-- The pseudocode of TBL_READ (R195). -/
def runTblRead (s : State) : Except Raise State := do
  needTable s
  let i := s.lookupIdx.toNat
  if i > 2047 then failAt 0
  else
    let w := wtEntry s.wt i
    return { commitBuf s .stageBuf w with stageLen := BitVec.ofNat 8 w.length }

/-- TBL_READ (R195). -/
def execTblRead (s : State) : Host.Outcome State Fault Refusal := .next (complete s (runTblRead s))

/-- The pseudocode of TBL_FIND (R196). -/
def runTblFind (s : State) : Except Raise State := do
  needTable s
  let len := s.stageLen.toNat
  if len > Config.wordMax then failAt 0
  else
    match ridx s.wt (bufBytes s .stageBuf len) with
    | none => failAt 0
    | some i => return { s with lookupIdx := BitVec.ofNat 16 i }

/-- TBL_FIND (R196). -/
def execTblFind (s : State) : Host.Outcome State Fault Refusal := .next (complete s (runTblFind s))

/-- Token j of NORM_BUF as TOK_TABLE describes it (R198; outside NORM_BUF see log 11). -/
def tokenBytes (s : State) (j : Nat) : Bytes := bytesAt s (Buf.normBuf.base + tokOff s j) (tokLen s j)

/-- The pseudocode of W2I (R198). -/
def runW2i (s : State) : Except Raise State := do
  needTable s
  let n ← countIn s
  let v ← lookupAll s.wt ((List.range n).map (tokenBytes s)) 0
  return commitIdx s v

/-- W2I (R198). -/
def execW2i (s : State) : Host.Outcome State Fault Refusal := .next (complete s (runW2i s))

/-- `join_sp` of the entries at indices `v` (R199). -/
def phraseOf (wt : List (Nat × Bytes)) (v : List Nat) : Bytes := joinSp (v.map (wtEntry wt))

/-- I2W's commit set (R199): TEXT_OUT, OUT_LEN. -/
def commitPhrase (s : State) (t : Bytes) : State :=
  { commitBuf s .textOut t with outLen := BitVec.ofNat 16 t.length }

/-- The pseudocode of I2W (R199). -/
def runI2w (s : State) : Except Raise State := do
  needTable s
  let v ← indicesIn s
  return commitPhrase s (phraseOf s.wt v)

/-- I2W (R199). -/
def execI2w (s : State) : Host.Outcome State Fault Refusal := .next (complete s (runI2w s))

end Sys2Proof.Machine
end

