-- ==== Sys2Proof/Machine/Composite.lean ====
section
/-! DEFINITION. Composite codec commands (spec/45_composite.md). -/

namespace Sys2Proof.Machine

/-- The pseudocode of E2M (R240). -/
def runE2m (s : State) : Except Raise State := do
  needTable s
  let e ← entropyIn s
  return commitPhrase (commitPack s e) (phraseOf s.wt (packIndices e))

/-- E2M (R240). -/
def execE2m (s : State) : Host.Outcome State Fault Refusal := .next (complete s (runE2m s))

/-- What the checks of M2E_TXT yield: the normalized text, the indices, the entropy (R241). -/
structure TextDecoding where
  norm : NormText
  indices : List Nat
  entropy : Bytes
deriving DecidableEq, Repr

/-- The checks of M2E_TXT without its commit (R241, R243). -/
def decodeText (s : State) : Except Raise TextDecoding := do
  needTable s
  let m ← mnemonicIn s
  let v ← lookupAll s.wt m.toks 0
  let e ← decodeIndices v
  return ⟨m, v, e⟩

/-- The pseudocode of M2E_TXT (R241). -/
def runM2eTxt (s : State) : Except Raise State := do
  let d ← decodeText s
  return commitEntropy (commitIdx (commitNorm s d.norm) d.indices) d.entropy

/-- M2E_TXT (R241). -/
def execM2eTxt (s : State) : Host.Outcome State Fault Refusal := .next (complete s (runM2eTxt s))

/-- The checks of M2E_BIN without its commit (R242, R244). -/
def decodeBinary (s : State) : Except Raise Bytes := do
  needTable s
  let v ← indicesIn s
  decodeIndices v

/-- The pseudocode of M2E_BIN (R242). -/
def runM2eBin (s : State) : Except Raise State := do
  let e ← decodeBinary s
  return commitEntropy s e

/-- M2E_BIN (R242). -/
def execM2eBin (s : State) : Host.Outcome State Fault Refusal := .next (complete s (runM2eBin s))

/-- VAL_TXT (R243). -/
def execValTxt (s : State) : Host.Outcome State Fault Refusal := .next (completeVal s (decodeText s))

/-- VAL_BIN (R244). -/
def execValBin (s : State) : Host.Outcome State Fault Refusal := .next (completeVal s (decodeBinary s))

/-- The pseudocode of SEEDPREP_TXT (R245). -/
def runSeedprepTxt (s : State) : Except Raise State := do
  let m ← mnemonicIn s
  let v ← saltIn s
  return commitSalt (commitNorm s m) v

/-- SEEDPREP_TXT (R245). -/
def execSeedprepTxt (s : State) : Host.Outcome State Fault Refusal := .next (complete s (runSeedprepTxt s))

/-- The pseudocode of SEEDPREP_BIN (R246). -/
def runSeedprepBin (s : State) : Except Raise State := do
  needTable s
  let i ← indicesIn s
  let v ← saltIn s
  return commitSalt (commitPhrase s (phraseOf s.wt i)) v

/-- SEEDPREP_BIN (R246). -/
def execSeedprepBin (s : State) : Host.Outcome State Fault Refusal := .next (complete s (runSeedprepBin s))

end Sys2Proof.Machine
end

