-- ==== Sys2Proof/Machine/Control.lean ====
section
/-! DEFINITION. Control commands (spec/40_control.md). -/

namespace Sys2Proof.Machine

/-- NOP (R150): an empty commit set. -/
def execNop (s : State) : Host.Outcome State Fault Refusal := .next (complete s (.ok s))

/-- Every buffer of the list becomes all-zero. -/
def clearBufs (s : State) (bs : List Buf) : State := bs.foldl (fun t b => commitBuf t b []) s

/-- ZEROIZE's commit set (R151): all buffers, the length registers, CKSUM, LOOKUP_IDX, RESULT. -/
def zeroized (s : State) : State :=
  { clearBufs s Buf.all with
    entLen := 0, wordCount := 0, textLen := 0, passLen := 0, normLen := 0, outLen := 0, saltLen := 0
    ck := 0, csn := 0, stageLen := 0, lookupIdx := 0, resValid := false, resReason := 0 }

/-- ZEROIZE (R151). -/
def execZeroize (s : State) : Host.Outcome State Fault Refusal := .next (complete s (.ok (zeroized s)))

end Sys2Proof.Machine
end

