-- ==== Sys2Proof/Machine/Dispatch.lean ====
section
/-! DEFINITION. One arm per command (spec/30_encoding.md R123). -/

namespace Sys2Proof.Machine

/-- What a running command does at its completion (spec/10_state.md R70; log 17). -/
def exec (i : Instr) (s : State) : Host.Outcome State Fault Refusal :=
  match i with
  | .nop => Sys2Proof.Machine.execNop s
  | .zeroize => Sys2Proof.Machine.execZeroize s
  | .tblReset => Sys2Proof.Machine.execTblReset s
  | .tblPush => Sys2Proof.Machine.execTblPush s
  | .tblSeal => Sys2Proof.Machine.execTblSeal s
  | .tblRead => Sys2Proof.Machine.execTblRead s
  | .tblFind => Sys2Proof.Machine.execTblFind s
  | .cksum => Sys2Proof.Machine.execCksum s
  | .pack => Sys2Proof.Machine.execPack s
  | .unpack => Sys2Proof.Machine.execUnpack s
  | .normalize => Sys2Proof.Machine.execNormalize s
  | .salt => Sys2Proof.Machine.execSalt s
  | .w2i => Sys2Proof.Machine.execW2i s
  | .i2w => Sys2Proof.Machine.execI2w s
  | .e2m => Sys2Proof.Machine.execE2m s
  | .m2eTxt => Sys2Proof.Machine.execM2eTxt s
  | .m2eBin => Sys2Proof.Machine.execM2eBin s
  | .valTxt => Sys2Proof.Machine.execValTxt s
  | .valBin => Sys2Proof.Machine.execValBin s
  | .seedprepTxt => Sys2Proof.Machine.execSeedprepTxt s
  | .seedprepBin => Sys2Proof.Machine.execSeedprepBin s

end Sys2Proof.Machine
end

