-- ==== Sys2Proof/Machine/Port.lean ====
section
/-! DEFINITION. The host port (spec/20_memory.md): where an access goes, what a read returns, what a write does, also while BUSY
(spec/70_reset_and_hazards.md R306), and what one cycle of the outside world does to the block. -/

namespace Sys2Proof.Machine

/-- Offsets of the register map (spec/10_state.md R32). -/
def Reg.offset : Reg → Nat
  | .id => 0x000
  | .ctrl => 0x004
  | .cmd => 0x008
  | .status => 0x00C
  | .errflags => 0x010
  | .irqStatus => 0x014
  | .entLen => 0x018
  | .wordCount => 0x01C
  | .textLen => 0x020
  | .passLen => 0x024
  | .normLen => 0x028
  | .outLen => 0x02C
  | .saltLen => 0x030
  | .cksum => 0x034
  | .tblCount => 0x038
  | .stageLen => 0x03C
  | .lookupIdx => 0x040
  | .errIndex => 0x044
  | .result => 0x048

/-- The registers of R32 in the order of their offsets. -/
def Reg.all : List Reg :=
  [.id, .ctrl, .cmd, .status, .errflags, .irqStatus, .entLen, .wordCount, .textLen, .passLen] ++
  [.normLen, .outLen, .saltLen, .cksum, .tblCount, .stageLen, .lookupIdx, .errIndex, .result]

/-- A register's value as a read returns it; reserved bits read 0 (R32-R51). While BUSY every register but STATUS, CMD, ERRFLAGS
and IRQ_STATUS reads as before the command (R91). -/
def readReg (s : State) : Reg → Word
  | .id => Config.idValue
  | .ctrl => ctrlWord s
  | .cmd => s.cmd
  | .status => statusWord s
  | .errflags => errflagsWord s
  | .irqStatus => irqStatusWord s
  | .entLen => s.entLen.setWidth 32
  | .wordCount => s.wordCount.setWidth 32
  | .textLen => s.textLen.setWidth 32
  | .passLen => s.passLen.setWidth 32
  | .normLen => s.normLen.setWidth 32
  | .outLen => s.outLen.setWidth 32
  | .saltLen => s.saltLen.setWidth 32
  | .cksum => cksumWord s
  | .tblCount => s.tblCount.setWidth 32
  | .stageLen => s.stageLen.setWidth 32
  | .lookupIdx => s.lookupIdx.setWidth 32
  | .errIndex => s.errIndex.setWidth 32
  | .result => resultWord s

/-- An operand write: performed while IDLE; while BUSY ignored, with ERRFLAGS.BUSY_WR <- 1 (R306). -/
def whenIdle (s t : State) : State := if isBusy s then { s with busyWr := true } else t

/-- A 4-byte write of `v` to a register (R32-R38, R88, R306). RO registers ignore it. -/
def writeReg (s : State) (r : Reg) (v : Word) : State :=
  match r with
  | .ctrl => if v.getLsbD 1 then resetBlock s else { s with irqEn := v.getLsbD 0 }
  | .cmd => if isBusy s then { s with overrun := true } else accept s v
  | .errflags => { s with overrun := w1c s.overrun (v.getLsbD 0), busyWr := w1c s.busyWr (v.getLsbD 1) }
  | .irqStatus => { s with doneIrq := w1c s.doneIrq (v.getLsbD 0) }
  | .entLen => whenIdle s { s with entLen := v.setWidth 8 }
  | .wordCount => whenIdle s { s with wordCount := v.setWidth 16 }
  | .textLen => whenIdle s { s with textLen := v.setWidth 16 }
  | .passLen => whenIdle s { s with passLen := v.setWidth 16 }
  | .stageLen => whenIdle s { s with stageLen := v.setWidth 8 }
  | .lookupIdx => whenIdle s { s with lookupIdx := v.setWidth 16 }
  | .id | .status | .normLen | .outLen | .saltLen | .cksum | .tblCount | .errIndex | .result => s

/-- The register block ends at 0x100 (R85). -/
def regBlockEnd : Nat := 0x100

/-- The register at an offset; none at the reserved offsets (R32). -/
def regAt (off : Nat) : Option Reg := Reg.all.find? (fun r => r.offset == off)

/-- The buffer that holds all `n` bytes from an offset (R87). -/
def bufAt (off n : Nat) : Option Buf :=
  Buf.all.find? (fun b => decide (b.base ≤ off ∧ off + n ≤ b.base + b.size))

/-- Where an access lands, or nothing where it gets an ERROR response (R85-R87): a register access is 4 bytes at a 4-aligned
offset; a buffer access is naturally aligned and inside one buffer. `some (.inl none)` is a reserved register offset. -/
def target (off n : Nat) : Option (Option Reg ⊕ Buf) :=
  if off < regBlockEnd then
    if n = 4 ∧ off % 4 = 0 then some (.inl (regAt off)) else none
  else if off % n = 0 then (bufAt off n).map .inr
  else none

/-- `MemRead(off, n)` (R80, R82): the data and the response. -/
def memRead (s : State) (off n : Nat) : Word × Resp :=
  match target off n with
  | none => (0, .error)
  | some (.inl none) => (0, .okay)
  | some (.inl (some r)) => (readReg s r, .okay)
  | some (.inr _) => (BitVec.ofNat 32 (leVal (bytesAt s off n)), .okay)

/-- A host write of the low `n` bytes of `v` into buffer `b` (R55, R82, R88, R306; log 16). -/
def writeBuf (s : State) (b : Buf) (off n : Nat) (v : Word) : State :=
  if b.isRw then whenIdle s (storeBytes s off n (leBytes n v.toNat)) else s

/-- `MemWrite(off, n, v)` (R80): the state after it and the response. An ERROR response changes nothing, also while BUSY (R286;
DEDUCED, log 15). -/
def memWrite (s : State) (off n : Nat) (v : Word) : State × Resp :=
  match target off n with
  | none => (s, .error)
  | some (.inl none) => (s, .okay)
  | some (.inl (some r)) => (writeReg s r v, .okay)
  | some (.inr b) => (writeBuf s b off n v, .okay)

/-- One access: its effect and its answer (R80, R89). -/
def access (s : State) : Access → State
  | .read off n =>
    { s with resp := some (.read (memRead s off.toNat n.bytes).1 (memRead s off.toNat n.bytes).2) }
  | .write off n v =>
    { (memWrite s off.toNat n.bytes v).1 with resp := some (.write (memWrite s off.toNat n.bytes v).2) }

/-- What the port answers to an access made while RST is asserted: a free value, or no answer (R300, 93 U10; log 6). -/
def rstResp (k : Nat) (a : Access) : Option Answer :=
  match Config.rstAnswer k with
  | none => none
  | some (data, ok) =>
    match a with
    | .read _ _ => some (.read data (if ok then .okay else .error))
    | .write _ _ _ => some (.write (if ok then .okay else .error))

/-- One sampled edge of RST (R300): the block is reset; an access presented at the same time has no effect and gets a free
answer. -/
def resetEdge (s : State) (during : Option Access) : State :=
  match during with
  | none => resetBlock s
  | some a => { resetBlock s with resp := rstResp s.freeCount a, freeCount := s.freeCount + 1 }

/-- The event is an edge of RST. -/
def HostEvent.isRst : HostEvent → Bool
  | .rst _ => true
  | .quiet | .access _ | .wait | .waitIrq => false

/-- RST is sampled asserted in this cycle: the head of the host's queue is an edge of RST (R300). -/
def rstSampled (s : State) : Bool :=
  match s.host with
  | [] => false
  | e :: _ => e.isRst

/-- One round of the polling loop `wait` (spec/30_encoding.md R128): it reads STATUS and stays at the head of the queue while
bit 0 of the data is 1. -/
def pollStatus (s : State) (rest : List HostEvent) : State :=
  let t := access s (.read (BitVec.ofNat 16 Reg.status.offset) .w4)
  if (statusWord s).getLsbD 0 then t else { t with host := rest }

/-- One cycle of the outside world: the head of the host's queue happens (R92). An empty queue is a host that does nothing. -/
def hostCycle (s : State) : State :=
  match s.host with
  | [] => s
  | .quiet :: es => { s with host := es }
  | .access a :: es => access { s with host := es } a
  | .wait :: es => pollStatus s es
  | .waitIrq :: es => if irq s then { s with host := es } else s
  | .rst a :: es => resetEdge { s with host := es } a

/-- The platform address of a window offset (spec/00_scope.md R15). -/
def platformAddress (off : Half) : Nat := Config.blockBase + off.toNat

end Sys2Proof.Machine
end

