-- ==== Sys2Proof/Machine/Sequencer.lean ====
section
/-! DEFINITION. The sequencer (spec/10_state.md R31, R70): the completion of the running command, and one clock cycle. -/

namespace Sys2Proof.Machine

/-- The completion of the running command, the word in CMD (R35, R70): its meaning, or IllegalCommand (R124). DEDUCED: computed
at completion from inputs that have not changed since acceptance (log 5, safe). -/
def runCommand (s : State) : Host.Outcome State Fault Refusal :=
  match decode s.cmd with
  | .ok i => exec i s
  | .error _ => .next (completeIllegal s)

/-- One clock cycle. IDLE: the port serves the host. BUSY with cycles left: the port serves the host and one cycle passes. BUSY
with none left: the command completes in one atomic step (R70, R90), unless RST is sampled asserted in this cycle; then the
command is abandoned and commits nothing (spec/70_reset_and_hazards.md R300; log 7). -/
def clockCycle (s : State) : Host.Outcome State Fault Refusal :=
  match s.seq with
  | .idle => .next (hostCycle s)
  | .busy 0 => if rstSampled s then .next (hostCycle s) else runCommand s
  | .busy (left + 1) => .next (hostCycle { s with seq := .busy left })

/-- `s` with a table row's bits as the accepted command word, about to complete, and RST not asserted: the block fetches nothing,
so this stands for the acceptance of R35 with no further cycle of LAT left (log 4). -/
def dueWith (s : State) (nbits w : Nat) : State :=
  { issue s (tableWord nbits w) 0 with host := s.host.dropWhile HostEvent.isRst }

end Sys2Proof.Machine
end

