-- ==== Sys2Proof/Machine/Step.lean ====
section
/-! DEFINITION. One step: one clock cycle (spec/10_state.md R31, R70; spec/20_memory.md R92; logs 3 and 7). -/

namespace Sys2Proof.Machine

/-- One step is one clock cycle of the block. -/
def step (s : State) : Host.Outcome State Fault Refusal := clockCycle s

/-- `s` with a table row's bits as the accepted command word, about to complete (log 4). -/
def State.withFetchWord (s : State) (nbits w : Nat) : State := dueWith s nbits w

end Sys2Proof.Machine
end

