-- ==== Sys2Proof/Machine/HostProgram.lean ====
section
/-! DEFINITION. The host's program notation (spec/30_encoding.md R127, R128) as entries of the host's queue. -/

namespace Sys2Proof.Machine

/-- `wr32 OFF, V` (R127). -/
def wr32 (off : Half) (v : Word) : HostEvent := .access (.write off .w4 v)

/-- `wr16 OFF, V` (R127). -/
def wr16 (off : Half) (v : Half) : HostEvent := .access (.write off .w2 (v.setWidth 32))

/-- `wr8 OFF, V` (R127). -/
def wr8 (off : Half) (v : Byte) : HostEvent := .access (.write off .w1 (v.setWidth 32))

/-- `rd32 OFF` (R127). -/
def rd32 (off : Half) : HostEvent := .access (.read off .w4)

/-- `rd16 OFF` (R127). -/
def rd16 (off : Half) : HostEvent := .access (.read off .w2)

/-- `rd8 OFF` (R127). -/
def rd8 (off : Half) : HostEvent := .access (.read off .w1)

/-- `cmd MNEMONIC` (R128): `wr32 0x008, OPC(MNEMONIC)`. -/
def cmdOp (i : Instr) : HostEvent := wr32 (BitVec.ofNat 16 Reg.cmd.offset) (encode i)

/-- `run MNEMONIC` (R128): `cmd MNEMONIC; wait`. -/
def runOp (i : Instr) : List HostEvent := [cmdOp i, .wait]

/-- `wrstr OFF, "text"` (R128): one wr8 per byte, in order. DESIGN CHOICE (log 23): OFF + i is a 16-bit window offset, so past
0xFFFF it goes on at 0x0000; R128 does not say what it is there. -/
def wrstr (off : Half) : Bytes → List HostEvent
  | [] => []
  | b :: bs => wr8 off b :: wrstr (off + 1) bs

/-- `wrfill OFF, N, B` (R128); offsets past 0xFFFF as in `wrstr` (log 23). -/
def wrfill (off : Half) (n : Nat) (b : Byte) : List HostEvent := wrstr off (List.replicate n b)

/-- The claim of `expect OFF, V` (R128) about the answer to its `rd32 OFF`: the data equals V. It is no claim about the
response. -/
def expectMet (s : State) (v : Word) : Bool :=
  match s.resp with
  | some (.read d _) => d == v
  | some (.write _) | none => false

end Sys2Proof.Machine
end

