-- ==== Sys2Proof/Safety.lean ====
section
/-! DEFINITION. The terms claims are stated in: the spec's formulas in its own notation, how a command ends, what each command
may write (spec/30_encoding.md R123), and the invariants of the block. -/

namespace Sys2Proof.Machine

/-! ### The spec's tables, in its own numbers -/

/-- The register map of spec/10_state.md R32: offset and register, row by row. -/
def specRegisterMap : List (Nat × Reg) :=
  [(0x000, .id), (0x004, .ctrl), (0x008, .cmd), (0x00C, .status), (0x010, .errflags), (0x014, .irqStatus)] ++
  [(0x018, .entLen), (0x01C, .wordCount), (0x020, .textLen), (0x024, .passLen), (0x028, .normLen), (0x02C, .outLen)] ++
  [(0x030, .saltLen), (0x034, .cksum), (0x038, .tblCount), (0x03C, .stageLen), (0x040, .lookupIdx), (0x044, .errIndex)] ++
  [(0x048, .result)]

/-- The offsets of the registers of class RO in R32. -/
def specReadOnlyOffsets : List Nat := [0x000, 0x00C, 0x028, 0x02C, 0x030, 0x034, 0x038, 0x044, 0x048]

/-- The RW operand registers of R32 with the width of their field: offset, register, width. -/
def specOperandRegisters : List (Nat × Reg × Nat) :=
  [(0x018, .entLen, 8), (0x01C, .wordCount, 16), (0x020, .textLen, 16)] ++
  [(0x024, .passLen, 16), (0x03C, .stageLen, 8), (0x040, .lookupIdx, 16)]

/-- A row of the buffer map of R55: the first and the last offset, the buffer, and whether its class is RW. -/
structure BufRow where
  first : Nat
  last : Nat
  buf : Buf
  rw : Bool
deriving DecidableEq, Repr

/-- An access of n bytes at an offset lies wholly inside the row's range. -/
abbrev BufRow.covers (row : BufRow) (off n : Nat) : Prop := row.first ≤ off ∧ off + n ≤ row.last + 1

/-- The buffer map of spec/10_state.md R55, row by row. -/
def specBufferMap : List BufRow :=
  [⟨0x0100, 0x011F, .entBuf, true⟩, ⟨0x0140, 0x016F, .idxBuf, true⟩, ⟨0x0180, 0x01BF, .stageBuf, true⟩] ++
  [⟨0x0200, 0x025F, .tokTable, false⟩, ⟨0x1000, 0x17FF, .textIn, true⟩, ⟨0x2000, 0x27FF, .textOut, false⟩] ++
  [⟨0x3000, 0x33FF, .passIn, true⟩, ⟨0x4000, 0x47FF, .saltBuf, false⟩, ⟨0x8000, 0x8FFF, .normBuf, false⟩]

/-! ### The spec's formulas -/

/-- `bit(s, k) = (s[k div 8] >> (7 - k mod 8)) & 1` (spec/00_scope.md R19). -/
def specBit (e : Bytes) (k : Nat) : Nat := ((e.getD (k / 8) 0).toNat >>> (7 - k % 8)) &&& 1

/-- `idx(j)` (spec/42_radix.md R171) of `stream(k) = bit(E ‖ [CK], k)` (R170). -/
def specIdx (e : Bytes) (ck : Byte) (j : Nat) : Nat :=
  ((List.range 11).map (fun t => specBit (e ++ [ck]) (11 * j + t) <<< (10 - t))).sum

/-- Digest byte 0 of HASH256 (spec/00_scope.md R12). -/
def digest0 (e : Bytes) : Nat := (Config.hash256 e)[0].toNat

/-- `CK = ((d[0] >> bitsToZero) << bitsToZero) & 0xFF` with `bitsToZero = 8 - CS` (spec/41_checksum.md R161). -/
def specCk (e : Bytes) (cs : Nat) : Nat := ((digest0 e >>> (8 - cs)) <<< (8 - cs)) &&& 0xFF

/-- `s(k) = (v(k div 11) >> (10 - k mod 11)) & 1` (spec/42_radix.md R173). -/
def specStream (v : Nat → Nat) (k : Nat) : Nat := (v (k / 11) >>> (10 - k % 11)) &&& 1

/-- `E[i]` (R173). -/
def specEntropyByte (v : Nat → Nat) (i : Nat) : Nat :=
  ((List.range 8).map (fun t => specStream v (8 * i + t) <<< (7 - t))).sum

/-- The L = 4N/3 entropy bytes E of N indices (R173). -/
def specEntropy (v : Nat → Nat) (n : Nat) : Bytes :=
  (List.range (4 * n / 3)).map (fun i => BitVec.ofNat 8 (specEntropyByte v i))

/-- `CSV` of N indices (R173). -/
def specCsv (v : Nat → Nat) (n : Nat) : Nat :=
  ((List.range (n / 3)).map (fun t => specStream v (8 * (4 * n / 3) + t) <<< (n / 3 - 1 - t))).sum

/-- The entropy operand ENT_BUF[0..ENT_LEN) (R98). -/
def entropyOf (s : State) : Bytes := bufBytes s .entBuf s.entLen.toNat

/-- The mnemonic operand TEXT_IN[0..TEXT_LEN) (spec/10_state.md R59). -/
def textOf (s : State) : Bytes := bufBytes s .textIn s.textLen.toNat

/-- The passphrase operand PASS_IN[0..PASS_LEN) (spec/10_state.md R61). -/
def passOf (s : State) : Bytes := bufBytes s .passIn s.passLen.toNat

/-- The staged bytes STAGE_BUF[0..min(STAGE_LEN, 64)) (spec/43_wordtable.md R193). -/
def stagedOf (s : State) : Bytes := bufBytes s .stageBuf (min s.stageLen.toNat 64)

/-- `L ∈ {16, 20, 24, 28, 32}` (spec/41_checksum.md R160). -/
def LegalEntLen (l : Nat) : Prop := l = 16 ∨ l = 20 ∨ l = 24 ∨ l = 28 ∨ l = 32

/-- `N ∈ {12, 15, 18, 21, 24}` (spec/00_scope.md R10). -/
def LegalCount (n : Nat) : Prop := n = 12 ∨ n = 15 ∨ n = 18 ∨ n = 21 ∨ n = 24

/-- `RIDX(w) = i`: the lowest index whose entry is w (spec/10_state.md R69). -/
def IsRidx (s : State) (w : Bytes) (i : Nat) : Prop :=
  i < 2048 ∧ wtEntry s.wt i = w ∧ ∀ j < i, wtEntry s.wt j ≠ w

/-- `RIDX(w) = ⊥` (spec/10_state.md R69). -/
def NoRidx (s : State) (w : Bytes) : Prop := ∀ j < 2048, wtEntry s.wt j ≠ w

/-! ### How a command ends -/

/-- The state after a command that ends with an error code and position: nothing but the completion fields differs
(spec/10_state.md R70, spec/60_exceptions.md R280). -/
def failedWith (s : State) (code : BitVec 4) (info : Half) : State :=
  { s with seq := .idle, done := true, doneIrq := true, err := code, errIndex := info }

/-- A command has completed with success (spec/10_state.md R70, R50). -/
structure Succeeded (t : State) : Prop where
  idle : t.seq = .idle
  done : t.done = true
  pending : t.doneIrq = true
  noErr : t.err = 0
  noPosition : t.errIndex = 0xFFFF

/-- `buf[B] <- vs` (spec/00_scope.md R18): bytes 0..len(vs)-1 of B are vs, every later byte of B is 0x00. -/
def Holds (t : State) (b : Buf) (vs : Bytes) : Prop := ∀ k < b.size, readByte t (b.base + k) = vs.getD k 0

/-- IDX_BUF holds the N indices v and halfwords N..23 are 0 (spec/10_state.md R56). -/
def HoldsIdx (t : State) (n : Nat) (v : Nat → Nat) : Prop := ∀ j < 24, half t j = if j < n then v j else 0

/-- NORM_BUF, NORM_LEN, WORD_COUNT and TOK_TABLE hold a normalized text (spec/44_normalizer.md R221, R222). -/
def HoldsNorm (t : State) (n : Bytes) : Prop :=
  Holds t .normBuf n ∧ t.normLen.toNat = n.length ∧ t.wordCount.toNat = (splitSp n).length ∧
    ∀ j < 24,
      tokOff t j = (if j < (splitSp n).length then (((splitSp n).take j).map (fun w => w.length + 1)).sum else 0) ∧
        tokLen t j = ((splitSp n).getD j []).length

/-! ### What a command may write (R123, column "writes on success") -/

/-- The registers of the column. STATUS, IRQ_STATUS and ERR_INDEX are written by every completion (R70) and are not listed. -/
def Instr.regsWritten : Instr → List Reg
  | .nop => []
  | .zeroize =>
    [.entLen, .wordCount, .textLen, .passLen, .normLen, .outLen, .saltLen, .cksum, .stageLen, .lookupIdx, .result]
  | .tblReset => [.tblCount]
  | .tblPush => [.tblCount]
  | .tblSeal => []
  | .tblRead => [.stageLen]
  | .tblFind => [.lookupIdx]
  | .cksum => [.cksum]
  | .pack => [.cksum, .wordCount]
  | .unpack => [.entLen, .cksum]
  | .normalize => [.normLen, .wordCount]
  | .salt => [.saltLen]
  | .w2i => []
  | .i2w => [.outLen]
  | .e2m => [.cksum, .wordCount, .outLen]
  | .m2eTxt => [.normLen, .wordCount, .entLen, .cksum]
  | .m2eBin => [.entLen, .cksum]
  | .valTxt => [.result]
  | .valBin => [.result]
  | .seedprepTxt => [.normLen, .wordCount, .saltLen]
  | .seedprepBin => [.outLen, .saltLen]

/-- The buffers of the column. -/
def Instr.bufsWritten : Instr → List Buf
  | .nop => []
  | .zeroize => [.entBuf, .idxBuf, .stageBuf, .tokTable, .textIn, .textOut, .passIn, .saltBuf, .normBuf]
  | .tblReset | .tblPush | .tblSeal => []
  | .tblRead => [.stageBuf]
  | .tblFind | .cksum => []
  | .pack => [.idxBuf]
  | .unpack => [.entBuf]
  | .normalize => [.normBuf, .tokTable]
  | .salt => [.saltBuf]
  | .w2i => [.idxBuf]
  | .i2w => [.textOut]
  | .e2m => [.idxBuf, .textOut]
  | .m2eTxt => [.normBuf, .tokTable, .idxBuf, .entBuf]
  | .m2eBin => [.entBuf]
  | .valTxt | .valBin => []
  | .seedprepTxt => [.normBuf, .tokTable, .saltBuf]
  | .seedprepBin => [.textOut, .saltBuf]

/-- Whether the column names the word table's contents WT. -/
def Instr.writesEntries : Instr → Bool
  | .tblReset | .tblPush => true
  | .nop | .zeroize | .tblSeal | .tblRead | .tblFind | .cksum | .pack | .unpack | .normalize | .salt | .w2i | .i2w
  | .e2m | .m2eTxt | .m2eBin | .valTxt | .valBin | .seedprepTxt | .seedprepBin => false

/-- Whether the column names TBL_OVER and TBL_BAD. -/
def Instr.writesTableFlags : Instr → Bool
  | .tblReset | .tblPush => true
  | .nop | .zeroize | .tblSeal | .tblRead | .tblFind | .cksum | .pack | .unpack | .normalize | .salt | .w2i | .i2w
  | .e2m | .m2eTxt | .m2eBin | .valTxt | .valBin | .seedprepTxt | .seedprepBin => false

/-- Whether the column names TABLE_VALID. -/
def Instr.writesTableValid : Instr → Bool
  | .tblReset | .tblSeal => true
  | .nop | .zeroize | .tblPush | .tblRead | .tblFind | .cksum | .pack | .unpack | .normalize | .salt | .w2i | .i2w
  | .e2m | .m2eTxt | .m2eBin | .valTxt | .valBin | .seedprepTxt | .seedprepBin => false

/-- What `exec i` leaves unchanged from `s` to `t`: every register but those it writes and the three every completion writes (CTRL
by its fields, since it shows another one of them once the block is IDLE, R91),
every byte outside the buffers it writes, the word table and its flags but where it writes them, and all that is outside. -/
structure Frame (i : Instr) (s t : State) : Prop where
  regs : ∀ r : Reg, r ∉ Instr.regsWritten i → r ≠ .status → r ≠ .irqStatus → r ≠ .errIndex → r ≠ .ctrl →
    readReg t r = readReg s r
  control : t.irqEn = s.irqEn ∧ t.irqEnHeld = s.irqEnHeld
  bytes : ∀ a, (∀ b ∈ Instr.bufsWritten i, ¬b.holds a) → readByte t a = readByte s a
  entries : Instr.writesEntries i = false → t.wt = s.wt
  flags : Instr.writesTableFlags i = false → t.tblOver = s.tblOver ∧ t.tblBad = s.tblBad
  valid : Instr.writesTableValid i = false → t.tableValid = s.tableValid
  outside : t.host = s.host ∧ t.resp = s.resp ∧ t.freeCount = s.freeCount

/-- The table-dependent commands of spec/43_wordtable.md R190 that report the gate's failure in STATUS.ERR. -/
def gatedCommands : List Instr := [.tblRead, .tblFind, .w2i, .i2w, .e2m, .m2eTxt, .m2eBin, .seedprepBin]

/-- The event resets the block: an edge of RST, or a 4-byte write to CTRL with bit 1 set (spec/10_state.md R34,
spec/70_reset_and_hazards.md R300, R301). -/
def HostEvent.resets : HostEvent → Bool
  | .rst _ => true
  | .access (.write off .w4 v) => off == 0x004 && v.getLsbD 1
  | .access (.write _ .w1 _) | .access (.write _ .w2 _) | .access (.read _ _) | .quiet | .wait | .waitIrq => false

/-! ### Invariants -/

/-- The error codes the block produces in STATUS.ERR (spec/60_exceptions.md R270-R272). -/
def legalErr (e : BitVec 4) : Bool := e != 6 && decide (e ≤ 10)

/-- The codes RESULT.REASON takes (spec/60_exceptions.md R270). -/
def legalReason (e : BitVec 4) : Bool := [0, 2, 3, 4, 5, 7, 8].contains e

/-- The buffers' memory is in canonical form and lists only offsets inside a buffer (spec/10_state.md R55). -/
structure MemInv (s : State) : Prop where
  canonical : Memory.wf s.mem
  mapped : ∀ c ∈ s.mem, ∃ b : Buf, b.holds c.1

/-- The word table: canonical; only pushed indices hold entries; entries are text of at most WORD_MAX bytes; without TBL_BAD
no pushed entry is missing; TBL_OVER tells more than 2048 pushes; a sealed table is complete (spec/10_state.md R47, R66-R68,
spec/43_wordtable.md R192-R194). -/
structure TableInv (s : State) : Prop where
  canonical : Sparse.wf [] s.wt
  pushed : ∀ e ∈ s.wt, e.1 < min s.tblCount.toNat 2048
  text : ∀ e ∈ s.wt, e.2.length ≤ 64 ∧ utf8Wf e.2 = true
  noGap : s.tblBad = false → ∀ i < min s.tblCount.toNat 2048, wtEntry s.wt i ≠ []
  overflow : s.tblOver = true ↔ 2048 < s.tblCount.toNat
  sealed : s.tableValid = true → s.tblCount.toNat = 2048 ∧ s.tblOver = false ∧ s.tblBad = false

/-- The status fields: DONE and ERR are 0 while BUSY, ERR is 0 unless DONE, the codes are legal, VALID means no reason
(spec/10_state.md R36, R51, spec/20_memory.md R91). -/
structure StatusInv (s : State) : Prop where
  busyClear : isBusy s = true → s.done = false
  errDone : s.done = false → s.err = 0
  errLegal : legalErr s.err = true
  reasonLegal : legalReason s.resReason = true
  validReason : s.resValid = true → s.resReason = 0

/-- The lengths and the checksum register (spec/10_state.md R43-R46, spec/41_checksum.md R161,
spec/43_wordtable.md R200). -/
structure LengthInv (s : State) : Prop where
  norm : s.normLen.toNat ≤ 4096
  out : s.outLen.toNat ≤ 1559
  salt : s.saltLen = 0 ∨ (8 ≤ s.saltLen.toNat ∧ s.saltLen.toNat ≤ 2048)
  cksum : (s.csn = 0 ∧ s.ck = 0) ∨
    (4 ≤ s.csn.toNat ∧ s.csn.toNat ≤ 8 ∧ ∀ k < 8 - s.csn.toNat, s.ck.getLsbD k = false)

/-- The invariant of the block: it holds at reset and every step keeps it. -/
structure Inv (s : State) : Prop where
  mem : MemInv s
  table : TableInv s
  status : StatusInv s
  lengths : LengthInv s

/-- Every token descriptor stays inside the normalized text (spec/10_state.md R58, R63). -/
def TokensInside (s : State) : Prop := s.normLen.toNat ≤ 4096 ∧ ∀ j < 24, tokOff s j + tokLen s j ≤ s.normLen.toNat

end Sys2Proof.Machine
end

