-- ==== Sys2Proof/Certificates/Slice0/Obligations.lean ====
section
/-! DEFINITION. The statements for the provers, from the numbered rules of the spec. Each docstring names its rules. -/

open Sys2Proof Sys2Proof.Machine

/-! ### Encoding -/

/-- Words written out from the opcode map of R123, and words that R124 calls illegal. -/
def Obligations.DecodeSpecWords : Prop :=
  decode 0x00000000 = .ok .nop ∧ decode 0x00000003 = .ok .tblPush ∧ decode 0x00000010 = .ok .cksum ∧
  decode 0x00000012 = .ok .unpack ∧ decode 0x00000021 = .ok .salt ∧ decode 0x00000030 = .ok .w2i ∧
  decode 0x00000041 = .ok .m2eTxt ∧ decode 0x00000046 = .ok .seedprepBin ∧
  decode 0x00000007 = .error .illegalCommand ∧ decode 0x00000100 = .error .illegalCommand ∧
  decode 0x80000011 = .error .illegalCommand

/-- A word decodes to a command exactly when it is that command's word: no bit of a word is dropped, and each command has one
word (R120, R122, R123). -/
def Obligations.DecodeExactlyTheCommandWords : Prop :=
  ∀ (w : Word) (i : Instr), decode w = .ok i ↔ w = encode i

/-- R124: which words are illegal, that they are accepted like any other, and how they complete. The last clause is a
step of the model's countdown, whose completing cycle serves no host access (log 3, the model's choice), in a cycle in which RST
is not sampled asserted (R300 as the model reads it, log 7). -/
def Obligations.IllegalWordsCompleteWithCode9 : Prop :=
  (∀ w : Word, decode w = .error .illegalCommand ↔
    (w.extractLsb' 8 24 ≠ 0 ∨
      (let opc := (w.extractLsb' 0 8).toNat
       (0x07 ≤ opc ∧ opc ≤ 0x0F) ∨ (0x13 ≤ opc ∧ opc ≤ 0x1F) ∨ (0x22 ≤ opc ∧ opc ≤ 0x2F) ∨
        (0x32 ≤ opc ∧ opc ≤ 0x3F) ∨ (0x47 ≤ opc ∧ opc ≤ 0xFF)))) ∧
  (∀ (s : State) (w : Word), s.seq = .idle → decode w = .error .illegalCommand →
    isBusy (memWrite s 0x008 4 w).1 = true ∧ (memWrite s 0x008 4 w).1.cmd = w) ∧
  (∀ s : State, s.seq = .busy 0 → (∀ a es, s.host ≠ .rst a :: es) → decode s.cmd = .error .illegalCommand →
    step s = .next (failedWith s 9 0xFFFF))

/-! ### Steps -/

/-- When a command is due and its word decodes, the step is the command's meaning on that state (the model's countdown, log 3;
R70), unless RST is sampled asserted in that cycle (R300 as the model reads it, log 7; what happens then is
HardwareResetEqualsReset). -/
def Obligations.StepRunsTheDecodedCommand : Prop :=
  ∀ (s : State) (i : Instr), s.seq = .busy 0 → (∀ a es, s.host ≠ .rst a :: es) → decode s.cmd = .ok i →
    step s = exec i s

/-- R35: what a write to CMD does while IDLE and while BUSY, and what a read returns. R91: right after the acceptance every register
but CMD and STATUS, so CTRL too, reads as before it (`irqEnHeld` keeps IRQ_EN for that, log 22). -/
def Obligations.CmdWriteAcceptsOrOverruns : Prop :=
  (∀ (s : State) (w : Word) (es : List HostEvent), s.seq = .idle → s.host = .access (.write 0x008 .w4 w) :: es →
    ∃ (t : State) (left : Nat), step s = .next t ∧ t.seq = .busy left ∧
      t = { s with cmd := w, seq := .busy left, done := false, err := 0, irqEnHeld := s.irqEn, host := es,
                   resp := some (.write .okay) } ∧
      (readReg t .status).getLsbD 0 = true ∧ (∀ r : Reg, r ≠ .cmd → r ≠ .status → readReg t r = readReg s r)) ∧
  (∀ (s : State) (w : Word) (es : List HostEvent) (left : Nat), s.seq = .busy (left + 1) →
    s.host = .access (.write 0x008 .w4 w) :: es →
    step s = .next { s with seq := .busy left, overrun := true, host := es, resp := some (.write .okay) }) ∧
  (∀ s : State, readReg s .cmd = s.cmd) ∧ State.reset.cmd = 0

/-- R320: every accepted command completes, unless a reset abandons it: from a running command with n cycles left (log 3), n + 1
steps end in its completion if nothing that is to arrive resets the block. -/
def Obligations.AcceptedCommandCompletes : Prop :=
  ∀ (n : Nat) (s : State), s.seq = .busy n → (∀ e ∈ s.host, e.resets = false) →
    ∃ t : State, Host.Core.run Sys2Proof.core (n + 1) s = .next t ∧ t.seq = .idle ∧ t.done = true ∧ t.doneIrq = true ∧
      t.cmd = s.cmd

/-- R70, R306: while a command runs, what arrives from outside, unless it is a reset, changes nothing but IRQ_EN, the sticky
flags, and what is outside the block; one cycle of the countdown passes (log 3). R91: every register but ERRFLAGS and IRQ_STATUS
reads as before, CTRL too where the event writes it. -/
def Obligations.InputsStayFixedWhileBusy : Prop :=
  ∀ (s : State) (left : Nat), s.seq = .busy (left + 1) → (∀ e es, s.host = e :: es → e.resets = false) →
    ∃ t : State, step s = .next t ∧
      t = { s with seq := .busy left, irqEn := t.irqEn, overrun := t.overrun, busyWr := t.busyWr, doneIrq := t.doneIrq,
                   host := t.host, resp := t.resp } ∧
      (∀ r : Reg, r ≠ .errflags → r ≠ .irqStatus → readReg t r = readReg s r)

/-- R306: the table of writes while BUSY, every one with an OKAY response. That a soft reset leaves the queue, the answer and the
free-value counter is the model's choice (log 8). -/
def Obligations.BusyWriteTable : Prop :=
  ∀ (s : State) (v : Word), isBusy s = true →
    memWrite s 0x008 4 v = ({ s with overrun := true }, .okay) ∧
    memWrite s 0x004 4 v =
      (if v.getLsbD 1 then { State.reset with host := s.host, resp := s.resp, freeCount := s.freeCount }
       else { s with irqEn := v.getLsbD 0 }, .okay) ∧
    memWrite s 0x010 4 v =
      ({ s with overrun := s.overrun && !v.getLsbD 0, busyWr := s.busyWr && !v.getLsbD 1 }, .okay) ∧
    memWrite s 0x014 4 v = ({ s with doneIrq := s.doneIrq && !v.getLsbD 0 }, .okay) ∧
    (∀ row ∈ specOperandRegisters, memWrite s row.1 4 v = ({ s with busyWr := true }, .okay)) ∧
    (∀ row ∈ specBufferMap, row.rw = true → ∀ (off : Nat) (n : Width), off % n.bytes = 0 → row.covers off n.bytes →
      memWrite s off n.bytes v = ({ s with busyWr := true }, .okay)) ∧
    (∀ off ∈ specReadOnlyOffsets, memWrite s off 4 v = (s, .okay)) ∧
    (∀ row ∈ specBufferMap, row.rw = false → ∀ (off : Nat) (n : Width), off % n.bytes = 0 → row.covers off n.bytes →
      memWrite s off n.bytes v = (s, .okay))

/-! ### The port -/

/-- R86: register accesses are 4 bytes at a 4-aligned offset; any other access to 0x000-0x0FF gets ERROR, data 0, no effect. -/
def Obligations.RegisterAccessesAre32Bit : Prop :=
  ∀ (s : State) (off : Nat) (n : Width) (v : Word), off ≤ 0xFF →
    (¬(n = .w4 ∧ off % 4 = 0) → memRead s off n.bytes = (0, .error) ∧ memWrite s off n.bytes v = (s, .error)) ∧
    (n = .w4 ∧ off % 4 = 0 → (memRead s off n.bytes).2 = .okay ∧ (memWrite s off n.bytes v).2 = .okay)

/-- R55, R85, R87, R82: the buffer map in the spec's offsets, where the commands find the buffers too. Outside the register block
an access that is misaligned or not inside one buffer gets ERROR, data 0 and no effect; an aligned access inside one buffer gets
OKAY, and a read returns its bytes, the lowest offset in bits [7:0], and 0 above them. -/
def Obligations.BufferAccessRule : Prop :=
  (∀ row ∈ specBufferMap,
    row.buf.base = row.first ∧ row.buf.base + row.buf.size = row.last + 1 ∧ row.buf.isRw = row.rw) ∧
  (∀ b : Buf, ∃ row ∈ specBufferMap, row.buf = b) ∧
  ∀ (s : State) (off : Nat) (n : Width) (v : Word), 0x100 ≤ off →
    (off % n.bytes ≠ 0 ∨ (∀ row ∈ specBufferMap, ¬row.covers off n.bytes) →
      memRead s off n.bytes = (0, .error) ∧ memWrite s off n.bytes v = (s, .error)) ∧
    (∀ row ∈ specBufferMap, off % n.bytes = 0 → row.covers off n.bytes →
      (memWrite s off n.bytes v).2 = .okay ∧
        ∃ d : Word, memRead s off n.bytes = (d, .okay) ∧ (∀ i < n.bytes, d.extractLsb' (8 * i) 8 = readByte s (off + i)) ∧
          d.toNat < 256 ^ n.bytes)

/-- R55, R82, R88: an aligned write of n bytes inside an RW buffer while IDLE puts bits [7:0] of the data at the lowest offset and so
on upward, changes no other byte, and a read of the same n bytes returns the low 8n bits of the data. -/
def Obligations.LittleEndianBufferWrite : Prop :=
  ∀ (s : State) (row : BufRow) (off : Nat) (n : Width) (v : Word), s.seq = .idle → row ∈ specBufferMap → row.rw = true →
    off % n.bytes = 0 → row.covers off n.bytes →
    ∃ t : State, memWrite s off n.bytes v = (t, .okay) ∧ t = { s with mem := t.mem } ∧
      (∀ i < n.bytes, readByte t (off + i) = v.extractLsb' (8 * i) 8) ∧
      (∀ a, ¬(off ≤ a ∧ a < off + n.bytes) → readByte t a = readByte s a) ∧
      memRead t off n.bytes = (BitVec.ofNat 32 (v.toNat % 256 ^ n.bytes), .okay)

/-- R84: the mixed-width view of IDX_BUF. -/
def Obligations.MixedWidthViewOfIdxBuf : Prop :=
  ∀ s : State,
    (∀ j < 24, memRead s (0x140 + 2 * j) 2 = (BitVec.ofNat 32 (half s j), .okay)) ∧
    (∀ k < 12, ∃ d : Word, memRead s (0x140 + 4 * k) 4 = (d, .okay) ∧ (d.extractLsb' 0 16).toNat = half s (2 * k) ∧
      (d.extractLsb' 16 16).toNat = half s (2 * k + 1)) ∧
    (∀ j < 24, memRead s (0x140 + 2 * j) 1 = (BitVec.ofNat 32 (half s j % 256), .okay) ∧
      memRead s (0x140 + 2 * j + 1) 1 = (BitVec.ofNat 32 (half s j / 256), .okay))

/-- R32, R88: a write to an RW operand register while IDLE stores the defined field bits; a read returns them with every reserved
bit 0, and no other register, no byte and no table entry changes. -/
def Obligations.OperandRegisterWriteRead : Prop :=
  ∀ (s : State) (v : Word) (off : Nat) (r : Reg) (width : Nat), s.seq = .idle → (off, r, width) ∈ specOperandRegisters →
    ∃ t : State, memWrite s off 4 v = (t, .okay) ∧
      memRead t off 4 = (BitVec.ofNat 32 (v.toNat % 2 ^ width), .okay) ∧
      readReg t r = BitVec.ofNat 32 (v.toNat % 2 ^ width) ∧
      (∀ r' : Reg, r' ≠ r → readReg t r' = readReg s r') ∧ t.mem = s.mem ∧ t.wt = s.wt ∧ t.seq = s.seq

/-- R89: no read has a side effect: a step that serves a host read, in any sequencer state that serves the host, changes only what
is outside the block and (while BUSY) the countdown of log 3. -/
def Obligations.ReadsHaveNoSideEffect : Prop :=
  ∀ (s : State) (off : Half) (n : Width) (es : List HostEvent), s.host = .access (.read off n) :: es →
    (s.seq = .idle → step s = .next { s with host := es, resp := some (.read (memRead s off.toNat n.bytes).1
      (memRead s off.toNat n.bytes).2) }) ∧
    (∀ left, s.seq = .busy (left + 1) → step s = .next { s with seq := .busy left, host := es, resp := some (.read
      (memRead s off.toNat n.bytes).1 (memRead s off.toNat n.bytes).2) })

/-- R32: a 4-byte read at each offset of the register map returns that register. R36-R51: what STATUS, the operand and length
registers, CKSUM, TBL_COUNT, ERR_INDEX and RESULT show of the state, reserved bits reading 0 (CTRL, ERRFLAGS and IRQ_STATUS are in
ControlRegisterWrites, CMD in CmdWriteAcceptsOrOverruns, ID in ReadOnlyTargetsIgnoreWrites). -/
def Obligations.StatusFields : Prop :=
  ∀ s : State,
    (∀ row ∈ specRegisterMap, memRead s row.1 4 = (readReg s row.2, .okay)) ∧
    readReg s .entLen = s.entLen.setWidth 32 ∧ readReg s .wordCount = s.wordCount.setWidth 32 ∧
    readReg s .textLen = s.textLen.setWidth 32 ∧ readReg s .passLen = s.passLen.setWidth 32 ∧
    readReg s .normLen = s.normLen.setWidth 32 ∧ readReg s .outLen = s.outLen.setWidth 32 ∧
    readReg s .saltLen = s.saltLen.setWidth 32 ∧ readReg s .tblCount = s.tblCount.setWidth 32 ∧
    readReg s .stageLen = s.stageLen.setWidth 32 ∧ readReg s .lookupIdx = s.lookupIdx.setWidth 32 ∧
    readReg s .errIndex = s.errIndex.setWidth 32 ∧
    (readReg s .cksum).extractLsb' 0 8 = s.ck ∧ (readReg s .cksum).extractLsb' 8 4 = s.csn ∧
    (readReg s .cksum).extractLsb' 12 20 = 0 ∧
    (readReg s .result).getLsbD 0 = s.resValid ∧ (readReg s .result).extractLsb' 1 3 = 0 ∧
    (readReg s .result).extractLsb' 4 4 = s.resReason ∧ (readReg s .result).extractLsb' 8 24 = 0 ∧
    (readReg s .status).getLsbD 0 = isBusy s ∧ (readReg s .status).getLsbD 1 = s.done ∧
    (readReg s .status).extractLsb' 2 2 = 0 ∧ (readReg s .status).extractLsb' 4 4 = s.err ∧
    (readReg s .status).getLsbD 8 = s.tableValid ∧ (readReg s .status).getLsbD 9 = s.tblOver ∧
    (readReg s .status).getLsbD 10 = s.tblBad ∧ (readReg s .status).extractLsb' 11 21 = 0 ∧
    (isBusy s = true ↔ ∃ left, s.seq = .busy left)

/-- R32, R33, R88: ID is constant; the reserved offsets read 0; in every state a write to a reserved offset, an RO register or an RO
buffer changes nothing and gets OKAY. -/
def Obligations.ReadOnlyTargetsIgnoreWrites : Prop :=
  ∀ (s : State) (v : Word),
    memRead s 0x000 4 = (0x524B0001, .okay) ∧
    (∀ k, 0x13 ≤ k → k ≤ 0x3F → memRead s (4 * k) 4 = (0, .okay) ∧ memWrite s (4 * k) 4 v = (s, .okay)) ∧
    (∀ off ∈ specReadOnlyOffsets, memWrite s off 4 v = (s, .okay)) ∧
    (∀ row ∈ specBufferMap, row.rw = false → ∀ (off : Nat) (n : Width), off % n.bytes = 0 → row.covers off n.bytes →
      memWrite s off n.bytes v = (s, .okay))

/-- R128: the polling loop `wait` repeats while STATUS bit 0 is 1 and ends when it is 0, with the STATUS word as its answer (its
form as an entry of the queue is the model's, log 13). -/
def Obligations.WaitPollsStatus : Prop :=
  ∀ (s : State) (es : List HostEvent), s.host = .wait :: es →
    (s.seq = .idle → step s = .next { s with host := es, resp := some (.read (readReg s .status) .okay) }) ∧
    (∀ left, s.seq = .busy (left + 1) →
      step s = .next { s with seq := .busy left, resp := some (.read (readReg s .status) .okay) })

/-! ### Reset and interrupt -/

/-- R75: the reset values, as the port reads them, and the state that is not host-addressable. -/
def Obligations.ResetValues : Prop :=
  State.reset.seq = .idle ∧ readReg State.reset .id = 0x524B0001 ∧
  (∀ r ∈ [Reg.ctrl, .cmd, .status, .errflags, .irqStatus, .entLen, .wordCount, .textLen, .passLen, .normLen, .outLen, .saltLen,
    .cksum, .tblCount, .stageLen, .lookupIdx, .result], readReg State.reset r = 0) ∧
  readReg State.reset .errIndex = 0xFFFF ∧ (∀ a, readByte State.reset a = 0) ∧ (∀ i, wtEntry State.reset.wt i = []) ∧
  State.reset.tblOver = false ∧ State.reset.tblBad = false ∧ State.reset.tableValid = false ∧ irq State.reset = false

/-- R34, R301: a 4-byte write to CTRL with bit 1 = 1 resets the block, in every sequencer state that serves the host, and gets
OKAY; IRQ_EN as written in the same access is discarded. The queue, the answer and the free-value counter are the model's (log 8). -/
def Obligations.SoftResetEqualsReset : Prop :=
  ∀ (s : State) (v : Word) (es : List HostEvent), v.getLsbD 1 = true → s.host = .access (.write 0x004 .w4 v) :: es →
    (s.seq = .idle ∨ ∃ left, s.seq = .busy (left + 1)) →
    step s = .next { State.reset with host := es, resp := some (.write .okay), freeCount := s.freeCount } ∧
    irq State.reset = false

/-- R300: a sampled edge of RST, in every sequencer state, abandons the running command and puts every piece of state at its reset
value, with IRQ 0. That this holds also in the cycle in which the command is due (`.busy 0`) is the model's reading, not R300's own
words (log 7, DEDUCED). What an access at the same time is answered is free (log 6). -/
def Obligations.HardwareResetEqualsReset : Prop :=
  ∀ (s : State) (a : Option Access) (es : List HostEvent), s.host = .rst a :: es →
    ∃ t : State, step s = .next t ∧
      t = { State.reset with host := es, resp := t.resp, freeCount := t.freeCount } ∧ (a = none → t.resp = s.resp) ∧
      irq t = false

/-- R285, R38: every completion sets DONE_IRQ, success or failure; IRQ is then IRQ_EN. (A due command does not complete where RST is
sampled asserted: R300 as the model reads it, log 7.) -/
def Obligations.CompletionRaisesInterrupt : Prop :=
  ∀ (s t : State), s.seq = .busy 0 → (∀ a es, s.host ≠ .rst a :: es) → step s = .next t →
    t.doneIrq = true ∧ (readReg t .irqStatus).getLsbD 0 = true ∧ irq t = s.irqEn ∧ (irq t = (t.irqEn && t.doneIrq))

/-- R34, R37, R38, in every sequencer state: a CTRL write with bit 1 = 0 updates IRQ_EN, and CTRL reads IRQ_EN in bit 0, while BUSY
its value from before the command (R91; held in `irqEnHeld`, log 22), and 0 elsewhere; writing 1 to a bit of ERRFLAGS or
IRQ_STATUS clears it, writing 0 leaves it. -/
def Obligations.ControlRegisterWrites : Prop :=
  ∀ (s : State) (v : Word),
    (v.getLsbD 1 = false → memWrite s 0x004 4 v = ({ s with irqEn := v.getLsbD 0 }, .okay)) ∧
    (s.seq = .idle → memRead s 0x004 4 = (if s.irqEn then 1 else 0, .okay)) ∧
    (isBusy s = true → memRead s 0x004 4 = (if s.irqEnHeld then 1 else 0, .okay)) ∧
    memWrite s 0x010 4 v =
      ({ s with overrun := s.overrun && !v.getLsbD 0, busyWr := s.busyWr && !v.getLsbD 1 }, .okay) ∧
    memWrite s 0x014 4 v = ({ s with doneIrq := s.doneIrq && !v.getLsbD 0 }, .okay) ∧
    ((readReg s .errflags).getLsbD 0 = s.overrun ∧ (readReg s .errflags).getLsbD 1 = s.busyWr ∧
      (readReg s .errflags).extractLsb' 2 30 = 0) ∧
    ((readReg s .irqStatus).getLsbD 0 = s.doneIrq ∧ (readReg s .irqStatus).extractLsb' 1 31 = 0)

/-! ### Whole-machine rules -/

/-- R70, R280: every command completes, from every state: SEQ is IDLE, DONE and DONE_IRQ are 1. -/
def Obligations.EveryCommandCompletes : Prop :=
  ∀ (i : Instr) (s : State), ∃ t : State, exec i s = .next t ∧ t.seq = .idle ∧ t.done = true ∧ t.doneIrq = true

/-- R284, R280: all or nothing: a command that ends with an error changes nothing but the completion fields. -/
def Obligations.FailureChangesNothingElse : Prop :=
  ∀ (i : Instr) (s t : State), exec i s = .next t → t.err ≠ 0 → t = failedWith s t.err t.errIndex

/-- R123, R70: the frame of every command: registers, flags, table and every byte of memory outside what the column "writes on
success" names are unchanged. -/
def Obligations.CommandsWriteOnlyTheirCommitSet : Prop :=
  ∀ (i : Instr) (s t : State), exec i s = .next t → Frame i s t

/-- R271, R272: no command and no illegal word produces code 6 or codes 11-15. -/
def Obligations.ReservedCodesNeverProduced : Prop :=
  ∀ (s t : State), s.seq = .busy 0 → step s = .next t → t.err ≠ 6 ∧ t.err.toNat ≤ 10 ∧
    (t.resReason = s.resReason ∨ (t.resReason ≠ 6 ∧ t.resReason.toNat ≤ 10))

/-- R190: with the table unsealed, every table-dependent command fails with InvalidWordlist before any other check; VAL_TXT and
VAL_BIN give VALID = 0 and REASON = 2. -/
def Obligations.UnsealedTableGate : Prop :=
  ∀ s : State, s.tableValid = false →
    (∀ i ∈ gatedCommands, exec i s = .next (failedWith s 2 0xFFFF)) ∧
    (∀ i ∈ [Instr.valTxt, .valBin],
      exec i s = .next (failedWith { s with resValid := false, resReason := 2 } 0 0xFFFF))

/-- R68: TABLE_VALID is set only by a successful TBL_SEAL and cleared only by TBL_RESET and by reset; while it stays 1 the word
table does not change. -/
def Obligations.SealedTableIsImmutable : Prop :=
  ∀ (s t : State), step s = .next t →
    (s.tableValid = true → t.tableValid = true → t.wt = s.wt) ∧
    (s.tableValid = false → t.tableValid = true →
      s.seq = .busy 0 ∧ decode s.cmd = .ok .tblSeal ∧ t.err = 0 ∧ t.wt = s.wt) ∧
    (s.tableValid = true → t.tableValid = false →
      (s.seq = .busy 0 ∧ decode s.cmd = .ok .tblReset) ∨
        (∃ e es, s.host = e :: es ∧ e.resets = true ∧
          t = { State.reset with host := es, resp := t.resp, freeCount := t.freeCount }))

/-- The invariant holds at reset. -/
def Obligations.ResetMeetsInvariant : Prop := Inv State.reset ∧ TokensInside State.reset

/-- Every step keeps the invariant: memory and table in canonical form inside their bounds, a sealed table complete, legal codes,
DONE and ERR clear while BUSY, the lengths and the checksum register in range. -/
def Obligations.StepKeepsInvariant : Prop :=
  ∀ (s t : State), Inv s → step s = .next t → Inv t

/-- Every step keeps every token descriptor inside the normalized text. -/
def Obligations.StepKeepsTokensInside : Prop :=
  ∀ (s t : State), TokensInside s → step s = .next t → TokensInside t

/-! ### Control commands -/

/-- R150: NOP. -/
def Obligations.NopOnlyCompletes : Prop :=
  ∀ s : State, exec .nop s =
    .next { s with seq := .idle, done := true, doneIrq := true, err := 0, errIndex := 0xFFFF }

/-- R151: ZEROIZE: every byte of every buffer and the named registers become 0; the table, CTRL, CMD, ERRFLAGS and IRQ_STATUS
(but for the completion) stay; apart from those the state is the reset state. -/
def Obligations.ZeroizeClearsAllData : Prop :=
  ∀ s : State, MemInv s →
    exec .zeroize s = .next { State.reset with
      wt := s.wt, tblCount := s.tblCount, tblOver := s.tblOver, tblBad := s.tblBad, tableValid := s.tableValid,
      irqEn := s.irqEn, irqEnHeld := s.irqEnHeld, cmd := s.cmd, overrun := s.overrun, busyWr := s.busyWr,
      doneIrq := true, done := true, host := s.host, resp := s.resp, freeCount := s.freeCount }

/-- R151: in every state, ZEROIZE leaves every byte of every buffer 0x00 and every named register 0. -/
def Obligations.ZeroizeLeavesNoSecret : Prop :=
  ∀ s : State, ∃ t : State, exec .zeroize s = .next t ∧ Succeeded t ∧ (∀ b : Buf, Holds t b []) ∧
    (∀ r ∈ [Reg.entLen, .wordCount, .textLen, .passLen, .normLen, .outLen, .saltLen, .cksum, .stageLen, .lookupIdx, .result],
      readReg t r = 0)

/-! ### Table construction and single lookups -/

/-- R191: TBL_RESET, and no other command unseals a table. -/
def Obligations.TblResetEmptiesTable : Prop :=
  (∀ s : State, ∃ t : State, exec .tblReset s = .next t ∧ Succeeded t ∧ (∀ i, wtEntry t.wt i = []) ∧ t.tblCount = 0 ∧
    t.tblOver = false ∧ t.tblBad = false ∧ t.tableValid = false ∧ t.mem = s.mem) ∧
  (∀ (i : Instr) (s t : State), exec i s = .next t → s.tableValid = true → t.tableValid = false → i = .tblReset)

/-- R193: TBL_PUSH on an unsealed table (`n` = TBL_COUNT, `w` = STAGE_BUF[0..min(STAGE_LEN, 64))) and on a sealed one. -/
def Obligations.TblPushAppendsEntry : Prop :=
  ∀ s : State,
    (s.tableValid = true → exec .tblPush s = .next (failedWith s 10 0xFFFF)) ∧
    (s.tableValid = false → ∃ t : State, exec .tblPush s = .next t ∧ Succeeded t ∧
      t.tblCount.toNat = min (s.tblCount.toNat + 1) 0xFFFF ∧
      (∀ i, i ≠ s.tblCount.toNat → wtEntry t.wt i = wtEntry s.wt i) ∧
      (s.tblCount.toNat < 2048 → 1 ≤ s.stageLen.toNat → s.stageLen.toNat ≤ 64 → utf8Wf (stagedOf s) = true →
        wtEntry t.wt s.tblCount.toNat = stagedOf s ∧ t.tblBad = s.tblBad ∧ t.tblOver = s.tblOver) ∧
      (s.tblCount.toNat < 2048 → (s.stageLen.toNat = 0 ∨ 64 < s.stageLen.toNat ∨ utf8Wf (stagedOf s) = false) →
        wtEntry t.wt s.tblCount.toNat = [] ∧ t.tblBad = true ∧ t.tblOver = s.tblOver) ∧
      (2048 ≤ s.tblCount.toNat → t.wt = s.wt ∧ t.tblOver = true ∧ t.tblBad = s.tblBad))

/-- R194: TBL_SEAL. -/
def Obligations.TblSealValidatesTable : Prop :=
  ∀ s : State,
    (s.tableValid = true → exec .tblSeal s = .next (failedWith s 0 0xFFFF)) ∧
    (s.tableValid = false → s.tblCount.toNat = 2048 → s.tblOver = false → s.tblBad = false →
      exec .tblSeal s = .next (failedWith { s with tableValid := true } 0 0xFFFF)) ∧
    (s.tableValid = false → (s.tblCount.toNat ≠ 2048 ∨ s.tblOver = true ∨ s.tblBad = true) →
      exec .tblSeal s = .next (failedWith s 2 0xFFFF))

/-- R195: TBL_READ, for a table as every reachable state has it (`TableInv`). -/
def Obligations.TblReadReturnsEntry : Prop :=
  ∀ s : State, TableInv s →
    (s.tableValid = false → exec .tblRead s = .next (failedWith s 2 0xFFFF)) ∧
    (s.tableValid = true → 2047 < s.lookupIdx.toNat → exec .tblRead s = .next (failedWith s 4 0)) ∧
    (s.tableValid = true → s.lookupIdx.toNat ≤ 2047 →
      ∃ t : State, exec .tblRead s = .next t ∧ Succeeded t ∧ Holds t .stageBuf (wtEntry s.wt s.lookupIdx.toNat) ∧
        t.stageLen.toNat = (wtEntry s.wt s.lookupIdx.toNat).length)

/-- R196, with RIDX of R69: TBL_FIND answers the lowest index whose entry equals the staged bytes. -/
def Obligations.TblFindReturnsLowestIndex : Prop :=
  ∀ s : State, TableInv s →
    (s.tableValid = false → exec .tblFind s = .next (failedWith s 2 0xFFFF)) ∧
    (s.tableValid = true →
      (∀ i, s.stageLen.toNat ≤ 64 → IsRidx s (stagedOf s) i →
        exec .tblFind s = .next (failedWith { s with lookupIdx := BitVec.ofNat 16 i } 0 0xFFFF)) ∧
      ((s.stageLen.toNat = 0 ∨ 64 < s.stageLen.toNat ∨ NoRidx s (stagedOf s)) →
        exec .tblFind s = .next (failedWith s 4 0)))

/-! ### Slicer and packer -/

/-- R162, R161: CKSUM. -/
def Obligations.CksumSlicesDigest : Prop :=
  ∀ s : State,
    (LegalEntLen s.entLen.toNat → ∃ t : State, exec .cksum s = .next t ∧ Succeeded t ∧
      t.ck.toNat = specCk (entropyOf s) (s.entLen.toNat / 4) ∧ t.csn.toNat = s.entLen.toNat / 4 ∧
      (readReg t .cksum).toNat = (s.entLen.toNat / 4) <<< 8 ||| specCk (entropyOf s) (s.entLen.toNat / 4)) ∧
    (¬LegalEntLen s.entLen.toNat → exec .cksum s = .next (failedWith s 1 0xFFFF))

/-- R174, R170-R172: PACK. -/
def Obligations.PackWritesIndices : Prop :=
  ∀ s : State,
    (LegalEntLen s.entLen.toNat → ∃ t : State, exec .pack s = .next t ∧ Succeeded t ∧
      t.wordCount.toNat = 3 * s.entLen.toNat / 4 ∧ t.csn.toNat = s.entLen.toNat / 4 ∧
      t.ck.toNat = specCk (entropyOf s) (s.entLen.toNat / 4) ∧
      HoldsIdx t (3 * s.entLen.toNat / 4) (specIdx (entropyOf s) t.ck) ∧ (∀ j < 24, half t j ≤ 2047)) ∧
    (¬LegalEntLen s.entLen.toNat → exec .pack s = .next (failedWith s 1 0xFFFF))

/-- R175, R173: UNPACK. -/
def Obligations.UnpackRestoresEntropy : Prop :=
  ∀ s : State,
    (¬LegalCount s.wordCount.toNat → exec .unpack s = .next (failedWith s 3 0xFFFF)) ∧
    (LegalCount s.wordCount.toNat →
      (∀ j < s.wordCount.toNat, 2047 < half s j → (∀ i < j, half s i ≤ 2047) →
        exec .unpack s = .next (failedWith s 4 (BitVec.ofNat 16 j))) ∧
      ((∀ j < s.wordCount.toNat, half s j ≤ 2047) →
        (specCk (specEntropy (half s) s.wordCount.toNat) (s.wordCount.toNat / 3) >>> (8 - s.wordCount.toNat / 3) ≠
            specCsv (half s) s.wordCount.toNat → exec .unpack s = .next (failedWith s 5 0xFFFF)) ∧
        (specCk (specEntropy (half s) s.wordCount.toNat) (s.wordCount.toNat / 3) >>> (8 - s.wordCount.toNat / 3) =
            specCsv (half s) s.wordCount.toNat →
          ∃ t : State, exec .unpack s = .next t ∧ Succeeded t ∧
            Holds t .entBuf (specEntropy (half s) s.wordCount.toNat) ∧ t.entLen.toNat = 4 * s.wordCount.toNat / 3 ∧
            t.csn.toNat = s.wordCount.toNat / 3 ∧
            t.ck.toNat = specCk (specEntropy (half s) s.wordCount.toNat) (s.wordCount.toNat / 3))))

/-- R176: PACK then UNPACK gives the entropy back. -/
def Obligations.PackThenUnpackRestoresEntropy : Prop :=
  ∀ s : State, LegalEntLen s.entLen.toNat →
    ∃ t u : State, exec .pack s = .next t ∧ exec .unpack t = .next u ∧ Succeeded u ∧
      Holds u .entBuf (entropyOf s) ∧ u.entLen = s.entLen

/-- R176, conversely: where UNPACK succeeds, PACK of the result writes the same N indices. -/
def Obligations.UnpackThenPackRestoresIndices : Prop :=
  ∀ s t : State, exec .unpack s = .next t → t.err = 0 →
    ∃ u : State, exec .pack t = .next u ∧ Succeeded u ∧ u.wordCount = s.wordCount ∧
      HoldsIdx u s.wordCount.toNat (half s)

/-- R177: flipping one of bits [CS-1:0] of the last of N indices that UNPACK accepts makes UNPACK fail with ChecksumMismatch. -/
def Obligations.ChecksumBitFlipIsDetected : Prop :=
  ∀ (s t s' : State) (k : Nat), exec .unpack s = .next t → t.err = 0 → k < s.wordCount.toNat / 3 →
    s'.wordCount = s.wordCount → (∀ j < s.wordCount.toNat - 1, half s' j = half s j) →
    half s' (s.wordCount.toNat - 1) = half s (s.wordCount.toNat - 1) ^^^ 2 ^ k →
    exec .unpack s' = .next (failedWith s' 5 0xFFFF)

/-- R161, R174 (corner cases): bytes of ENT_BUF at L and above reach neither the indices nor the checksum. -/
def Obligations.PackIgnoresBytesBeyondLength : Prop :=
  ∀ s s' t t' : State, s'.entLen = s.entLen →
    (∀ i < s.entLen.toNat, readByte s' (Buf.entBuf.base + i) = readByte s (Buf.entBuf.base + i)) →
    exec .pack s = .next t → exec .pack s' = .next t' → t.err = 0 →
    t'.err = 0 ∧ t'.ck = t.ck ∧ t'.csn = t.csn ∧ t'.wordCount = t.wordCount ∧ ∀ j < 24, half t' j = half t j

/-! ### Sequence lookups -/

/-- R198: W2I. `tok j` is token j of NORM_BUF as TOK_TABLE describes it. -/
def Obligations.W2iLooksUpEveryToken : Prop :=
  ∀ (s : State) (tok : Nat → Bytes), TableInv s →
    (∀ j, tok j = bytesAt s (0x8000 + tokOff s j) (tokLen s j)) →
    (s.tableValid = false → exec .w2i s = .next (failedWith s 2 0xFFFF)) ∧
    (s.tableValid = true → ¬LegalCount s.wordCount.toNat → exec .w2i s = .next (failedWith s 3 0xFFFF)) ∧
    (s.tableValid = true → LegalCount s.wordCount.toNat →
      (∀ j < s.wordCount.toNat, NoRidx s (tok j) → (∀ i < j, ∃ k, IsRidx s (tok i) k) →
        exec .w2i s = .next (failedWith s 4 (BitVec.ofNat 16 j))) ∧
      (∀ v : Nat → Nat, (∀ j < s.wordCount.toNat, IsRidx s (tok j) (v j)) →
        ∃ t : State, exec .w2i s = .next t ∧ Succeeded t ∧ HoldsIdx t s.wordCount.toNat v))

/-- R199, R200: I2W: the phrase is the entries joined by single 0x20 bytes, and it always fits. -/
def Obligations.I2wWritesPhrase : Prop :=
  ∀ s : State, Inv s →
    (s.tableValid = false → exec .i2w s = .next (failedWith s 2 0xFFFF)) ∧
    (s.tableValid = true → ¬LegalCount s.wordCount.toNat → exec .i2w s = .next (failedWith s 3 0xFFFF)) ∧
    (s.tableValid = true → LegalCount s.wordCount.toNat →
      (∀ j < s.wordCount.toNat, 2047 < half s j → (∀ i < j, half s i ≤ 2047) →
        exec .i2w s = .next (failedWith s 4 (BitVec.ofNat 16 j))) ∧
      ((∀ j < s.wordCount.toNat, half s j ≤ 2047) →
        ∀ p : Bytes, p = joinSp ((List.range s.wordCount.toNat).map (fun j => wtEntry s.wt (half s j))) →
          p.length ≤ 1559 ∧ ∃ t : State, exec .i2w s = .next t ∧ Succeeded t ∧ Holds t .textOut p ∧
            t.outLen.toNat = p.length))

/-! ### Normalizer -/

/-- R222, R220, R221: NORMALIZE, for whatever NFKD gives (`n`); the empty text is one empty token, so it fails. -/
def Obligations.NormalizeWritesTokens : Prop :=
  ∀ (s : State) (n : Bytes), n = nfkd (textOf s) →
    (s.textLen = 0 → exec .normalize s = .next (failedWith s 3 0xFFFF)) ∧
    (2048 < s.textLen.toNat → exec .normalize s = .next (failedWith s 8 0xFFFF)) ∧
    (s.textLen.toNat ≤ 2048 → utf8Wf (textOf s) = false → exec .normalize s = .next (failedWith s 7 0xFFFF)) ∧
    (s.textLen.toNat ≤ 2048 → utf8Wf (textOf s) = true →
      (4096 < n.length → exec .normalize s = .next (failedWith s 8 0xFFFF)) ∧
      (n.length ≤ 4096 → ¬LegalCount (splitSp n).length → exec .normalize s = .next (failedWith s 3 0xFFFF)) ∧
      (n.length ≤ 4096 → LegalCount (splitSp n).length →
        ∃ t : State, exec .normalize s = .next t ∧ Succeeded t ∧ HoldsNorm t n))

/-- R224, R220, R223: SALT, for whatever NFKD gives (`p`); the empty passphrase gives the salt "mnemonic". -/
def Obligations.SaltIsPrefixAndPassphrase : Prop :=
  ∀ (s : State) (p : Bytes), p = [0x6D, 0x6E, 0x65, 0x6D, 0x6F, 0x6E, 0x69, 0x63] ++ nfkd (passOf s) →
    (s.passLen = 0 → ∃ t : State, exec .salt s = .next t ∧ Succeeded t ∧
      Holds t .saltBuf [0x6D, 0x6E, 0x65, 0x6D, 0x6F, 0x6E, 0x69, 0x63] ∧ t.saltLen = 8) ∧
    (1024 < s.passLen.toNat → exec .salt s = .next (failedWith s 8 0xFFFF)) ∧
    (s.passLen.toNat ≤ 1024 → utf8Wf (passOf s) = false → exec .salt s = .next (failedWith s 7 0xFFFF)) ∧
    (s.passLen.toNat ≤ 1024 → utf8Wf (passOf s) = true →
      (2048 < p.length → exec .salt s = .next (failedWith s 8 0xFFFF)) ∧
      (p.length ≤ 2048 → ∃ t : State, exec .salt s = .next t ∧ Succeeded t ∧ Holds t .saltBuf p ∧
        t.saltLen.toNat = p.length ∧ 8 ≤ t.saltLen.toNat))

/-! ### Composite commands -/

/-- R240: E2M. -/
def Obligations.E2mEncodesEntropy : Prop :=
  ∀ s : State, Inv s →
    (s.tableValid = false → exec .e2m s = .next (failedWith s 2 0xFFFF)) ∧
    (s.tableValid = true → ¬LegalEntLen s.entLen.toNat → exec .e2m s = .next (failedWith s 1 0xFFFF)) ∧
    (s.tableValid = true → LegalEntLen s.entLen.toNat → ∃ (t : State) (p : Bytes), exec .e2m s = .next t ∧ Succeeded t ∧
      t.csn.toNat = s.entLen.toNat / 4 ∧ t.ck.toNat = specCk (entropyOf s) (s.entLen.toNat / 4) ∧
      t.wordCount.toNat = 3 * s.entLen.toNat / 4 ∧
      HoldsIdx t (3 * s.entLen.toNat / 4) (specIdx (entropyOf s) t.ck) ∧
      p = joinSp ((List.range (3 * s.entLen.toNat / 4)).map (fun j => wtEntry s.wt (specIdx (entropyOf s) t.ck j))) ∧
      Holds t .textOut p ∧ t.outLen.toNat = p.length)

/-- R241: M2E_TXT, for whatever NFKD gives (`n`): its failures in the order checked, and its success. -/
def Obligations.M2eTxtDecodesPhrase : Prop :=
  ∀ (s : State) (n : Bytes) (toks : List Bytes), TableInv s → n = nfkd (textOf s) → toks = splitSp n →
    (s.tableValid = false → exec .m2eTxt s = .next (failedWith s 2 0xFFFF)) ∧
    (s.tableValid = true → 2048 < s.textLen.toNat → exec .m2eTxt s = .next (failedWith s 8 0xFFFF)) ∧
    (s.tableValid = true → s.textLen.toNat ≤ 2048 → utf8Wf (textOf s) = false →
      exec .m2eTxt s = .next (failedWith s 7 0xFFFF)) ∧
    (s.tableValid = true → s.textLen.toNat ≤ 2048 → utf8Wf (textOf s) = true →
      (4096 < n.length → exec .m2eTxt s = .next (failedWith s 8 0xFFFF)) ∧
      (n.length ≤ 4096 → ¬LegalCount toks.length → exec .m2eTxt s = .next (failedWith s 3 0xFFFF)) ∧
      (n.length ≤ 4096 → LegalCount toks.length →
        (∀ j < toks.length, NoRidx s (toks.getD j []) → (∀ i < j, ∃ k, IsRidx s (toks.getD i []) k) →
          exec .m2eTxt s = .next (failedWith s 4 (BitVec.ofNat 16 j))) ∧
        (∀ v : Nat → Nat, (∀ j < toks.length, IsRidx s (toks.getD j []) (v j)) →
          (specCk (specEntropy v toks.length) (toks.length / 3) >>> (8 - toks.length / 3) ≠ specCsv v toks.length →
            exec .m2eTxt s = .next (failedWith s 5 0xFFFF)) ∧
          (specCk (specEntropy v toks.length) (toks.length / 3) >>> (8 - toks.length / 3) = specCsv v toks.length →
            ∃ t : State, exec .m2eTxt s = .next t ∧ Succeeded t ∧ HoldsNorm t n ∧ HoldsIdx t toks.length v ∧
              Holds t .entBuf (specEntropy v toks.length) ∧ t.entLen.toNat = 4 * toks.length / 3 ∧
              t.csn.toNat = toks.length / 3 ∧ t.ck.toNat = specCk (specEntropy v toks.length) (toks.length / 3)))))

/-- R242: M2E_BIN: the gate; then it ends exactly as UNPACK does, and where the checksum agrees it gives the entropy. -/
def Obligations.M2eBinEqualsUnpack : Prop :=
  ∀ s : State,
    (s.tableValid = false → exec .m2eBin s = .next (failedWith s 2 0xFFFF)) ∧
    (s.tableValid = true → ∃ t : State, exec .m2eBin s = .next t ∧ exec .unpack s = .next t ∧
      (LegalCount s.wordCount.toNat → (∀ j < s.wordCount.toNat, half s j ≤ 2047) →
        specCk (specEntropy (half s) s.wordCount.toNat) (s.wordCount.toNat / 3) >>> (8 - s.wordCount.toNat / 3) =
          specCsv (half s) s.wordCount.toNat →
        Succeeded t ∧ Holds t .entBuf (specEntropy (half s) s.wordCount.toNat) ∧
          t.entLen.toNat = 4 * s.wordCount.toNat / 3))

/-- R243: VAL_TXT reports what the checks of M2E_TXT met, in RESULT and ERR_INDEX, as the fields and as the words that a read of
the two registers returns, and changes nothing else. -/
def Obligations.ValTxtReportsTheChecks : Prop :=
  ∀ s : State, ∃ u t : State, exec .m2eTxt s = .next u ∧ exec .valTxt s = .next t ∧
    t = failedWith { s with resValid := u.err == 0, resReason := u.err } 0 u.errIndex ∧
    (readReg t .result).getLsbD 0 = (u.err == 0) ∧ (readReg t .result).extractLsb' 1 3 = 0 ∧
    (readReg t .result).extractLsb' 4 4 = u.err ∧ (readReg t .result).extractLsb' 8 24 = 0 ∧
    readReg t .errIndex = u.errIndex.setWidth 32

/-- R244: VAL_BIN reports what the checks of M2E_BIN met, in RESULT and ERR_INDEX, as the fields and as the words that a read of
the two registers returns, and changes nothing else. -/
def Obligations.ValBinReportsTheChecks : Prop :=
  ∀ s : State, ∃ u t : State, exec .m2eBin s = .next u ∧ exec .valBin s = .next t ∧
    t = failedWith { s with resValid := u.err == 0, resReason := u.err } 0 u.errIndex ∧
    (readReg t .result).getLsbD 0 = (u.err == 0) ∧ (readReg t .result).extractLsb' 1 3 = 0 ∧
    (readReg t .result).extractLsb' 4 4 = u.err ∧ (readReg t .result).extractLsb' 8 24 = 0 ∧
    readReg t .errIndex = u.errIndex.setWidth 32

/-- R245: SEEDPREP_TXT: the mnemonic's checks, then the passphrase's, for whatever NFKD gives (`n`, `p`). -/
def Obligations.SeedprepTxtPreparesBuffers : Prop :=
  ∀ (s : State) (n p : Bytes), n = nfkd (textOf s) →
    p = [0x6D, 0x6E, 0x65, 0x6D, 0x6F, 0x6E, 0x69, 0x63] ++ nfkd (passOf s) →
    (2048 < s.textLen.toNat → exec .seedprepTxt s = .next (failedWith s 8 0xFFFF)) ∧
    (s.textLen.toNat ≤ 2048 → utf8Wf (textOf s) = false → exec .seedprepTxt s = .next (failedWith s 7 0xFFFF)) ∧
    (s.textLen.toNat ≤ 2048 → utf8Wf (textOf s) = true →
      (4096 < n.length → exec .seedprepTxt s = .next (failedWith s 8 0xFFFF)) ∧
      (n.length ≤ 4096 → ¬LegalCount (splitSp n).length → exec .seedprepTxt s = .next (failedWith s 3 0xFFFF)) ∧
      (n.length ≤ 4096 → LegalCount (splitSp n).length →
        (1024 < s.passLen.toNat → exec .seedprepTxt s = .next (failedWith s 8 0xFFFF)) ∧
        (s.passLen.toNat ≤ 1024 → utf8Wf (passOf s) = false → exec .seedprepTxt s = .next (failedWith s 7 0xFFFF)) ∧
        (s.passLen.toNat ≤ 1024 → utf8Wf (passOf s) = true → 2048 < p.length →
          exec .seedprepTxt s = .next (failedWith s 8 0xFFFF)) ∧
        (s.passLen.toNat ≤ 1024 → utf8Wf (passOf s) = true → p.length ≤ 2048 →
          ∃ t : State, exec .seedprepTxt s = .next t ∧ Succeeded t ∧ HoldsNorm t n ∧ Holds t .saltBuf p ∧
            t.saltLen.toNat = p.length)))

/-- R246: SEEDPREP_BIN: the gate, the indices' checks, then the passphrase's, for whatever NFKD gives (`p`). -/
def Obligations.SeedprepBinPreparesBuffers : Prop :=
  ∀ (s : State) (q p : Bytes), Inv s →
    q = joinSp ((List.range s.wordCount.toNat).map (fun j => wtEntry s.wt (half s j))) →
    p = [0x6D, 0x6E, 0x65, 0x6D, 0x6F, 0x6E, 0x69, 0x63] ++ nfkd (passOf s) →
    (s.tableValid = false → exec .seedprepBin s = .next (failedWith s 2 0xFFFF)) ∧
    (s.tableValid = true → ¬LegalCount s.wordCount.toNat → exec .seedprepBin s = .next (failedWith s 3 0xFFFF)) ∧
    (s.tableValid = true → LegalCount s.wordCount.toNat →
      (∀ j < s.wordCount.toNat, 2047 < half s j → (∀ i < j, half s i ≤ 2047) →
        exec .seedprepBin s = .next (failedWith s 4 (BitVec.ofNat 16 j))) ∧
      ((∀ j < s.wordCount.toNat, half s j ≤ 2047) →
        (1024 < s.passLen.toNat → exec .seedprepBin s = .next (failedWith s 8 0xFFFF)) ∧
        (s.passLen.toNat ≤ 1024 → utf8Wf (passOf s) = false → exec .seedprepBin s = .next (failedWith s 7 0xFFFF)) ∧
        (s.passLen.toNat ≤ 1024 → utf8Wf (passOf s) = true → 2048 < p.length →
          exec .seedprepBin s = .next (failedWith s 8 0xFFFF)) ∧
        (s.passLen.toNat ≤ 1024 → utf8Wf (passOf s) = true → p.length ≤ 2048 →
          ∃ t : State, exec .seedprepBin s = .next t ∧ Succeeded t ∧ Holds t .textOut q ∧ t.outLen.toNat = q.length ∧
            Holds t .saltBuf p ∧ t.saltLen.toNat = p.length)))

/-- R247: a composite that succeeds ends in the very state its primitives, run in sequence, end in, each succeeding. -/
def Obligations.CompositesEqualTheirPrimitives : Prop :=
  ∀ s t : State, TableInv s → t.err = 0 →
    (exec .e2m s = .next t → ∃ a, exec .pack s = .next a ∧ a.err = 0 ∧ exec .i2w a = .next t) ∧
    (exec .m2eTxt s = .next t →
      ∃ a b, exec .normalize s = .next a ∧ a.err = 0 ∧ exec .w2i a = .next b ∧ b.err = 0 ∧ exec .unpack b = .next t) ∧
    (exec .m2eBin s = .next t → exec .unpack s = .next t) ∧
    (exec .seedprepTxt s = .next t → ∃ a, exec .normalize s = .next a ∧ a.err = 0 ∧ exec .salt a = .next t) ∧
    (exec .seedprepBin s = .next t → ∃ a, exec .i2w s = .next a ∧ a.err = 0 ∧ exec .salt a = .next t)

/-- R248: after M2E_TXT succeeds, I2W writes TEXT_OUT equal to NORM_BUF[0..NORM_LEN). -/
def Obligations.TextSurvivesBinaryForm : Prop :=
  ∀ s t : State, Inv s → exec .m2eTxt s = .next t → t.err = 0 →
    ∃ u : State, exec .i2w t = .next u ∧ Succeeded u ∧ u.outLen = t.normLen ∧
      Holds u .textOut (bufBytes t .normBuf t.normLen.toNat)

/-- R248, the other way, for a table without repeated entries whose entries hold no 0x20 byte: I2W, the host copying TEXT_OUT to
TEXT_IN, and a NORMALIZE whose NFKD leaves that text alone give W2I the same indices. Stated on the phrase itself. -/
def Obligations.BinarySurvivesTextForm : Prop :=
  ∀ (s : State) (v : List Nat), TableInv s → s.tableValid = true → v ≠ [] →
    (∀ i < 2048, ∀ j < 2048, wtEntry s.wt i = wtEntry s.wt j → i = j) →
    (∀ i < 2048, (0x20 : Byte) ∉ wtEntry s.wt i) → (∀ x ∈ v, x ≤ 2047) →
    (splitSp (phraseOf s.wt v)).map (ridx s.wt) = v.map some
end

