-- ==== Sys2Proof/Laws/Bits.lean ====
section
/-! SUPPORT. The bits of the packing stream (spec/42_radix.md R170-R173): a value read from bits has those bits, and packing and
unpacking read the same stream. -/

namespace Sys2Proof.Machine

@[simp] theorem bitsVal_nil : bitsVal [] = 0 := rfl

theorem bitsVal_append_singleton (bs : List Bool) (b : Bool) : bitsVal (bs ++ [b]) = 2 * bitsVal bs + b.toNat := by
  simp [bitsVal]

theorem bitsVal_lt (bs : List Bool) : bitsVal bs < 2 ^ bs.length := by
  induction bs using List.reverseRecOn with
  | nil => simp
  | append_singleton bs b ih =>
    rw [bitsVal_append_singleton, List.length_append, List.length_singleton, Nat.pow_succ]
    have := Bool.toNat_lt b
    omega

/-- Bit k of the value of n bits is the (n-1-k)-th of them. -/
theorem bitsVal_testBit (bs : List Bool) (k : Nat) (hk : k < bs.length) :
    (bitsVal bs).testBit k = bs.getD (bs.length - 1 - k) false := by
  induction bs using List.reverseRecOn generalizing k with
  | nil => simp at hk
  | append_singleton bs b ih =>
    rw [bitsVal_append_singleton]
    cases k with
    | zero =>
      rw [Nat.testBit_zero]
      cases b <;> simp
    | succ k =>
      have hk' : k < bs.length := by simpa using hk
      rw [Nat.testBit_succ, show (2 * bitsVal bs + b.toNat) / 2 = bitsVal bs by have := Bool.toNat_lt b; omega, ih k hk']
      simp only [List.length_append, List.length_singleton, List.getD_eq_getElem?_getD]
      rw [List.getElem?_append_left (by omega)]
      congr 2
      omega

theorem bitsVal_range_testBit (n : Nat) (f : Nat → Bool) (k : Nat) (hk : k < n) :
    (bitsVal ((List.range n).map f)).testBit k = f (n - 1 - k) := by
  rw [bitsVal_testBit _ _ (by simpa using hk)]
  simp [List.getD_eq_getElem?_getD, show n - 1 - k < n by omega]

/-- A group of 11 bits is a word index (R171). -/
theorem packIdx_lt (e : Bytes) (ck : Byte) (j : Nat) : packIdx e ck j < 2048 := by
  have := bitsVal_lt ((List.range 11).map (fun t => bitAt (e ++ [ck]) (11 * j + t)))
  simpa [packIdx] using this

@[simp] theorem packIndices_length (e : Bytes) : (packIndices e).length = 3 * e.length / 4 := by simp [packIndices]

theorem packIndices_lt (e : Bytes) : ∀ v ∈ packIndices e, v < 2048 := by
  intro v hv
  obtain ⟨j, -, rfl⟩ := List.mem_map.1 hv
  exact packIdx_lt _ _ _

@[simp] theorem ungroupEntropy_length (v : List Nat) : (ungroupEntropy v).length = 4 * v.length / 3 := by
  simp [ungroupEntropy]

/-- The indices of packing hold the bits of the stream (R170, R173). -/
theorem idxBit_packIndices (e : Bytes) (k : Nat) (hk : k < 11 * (3 * e.length / 4)) :
    idxBit (packIndices e) k = bitAt (e ++ [ckOf e]) k := by
  have hj : k / 11 < 3 * e.length / 4 := by omega
  simp only [idxBit, packIndices, List.getD_eq_getElem?_getD, List.getElem?_map, List.getElem?_range hj, Option.map_some,
    Option.getD_some, packIdx]
  rw [bitsVal_range_testBit 11 _ _ (by omega)]
  congr 1
  omega

theorem bitAt_append_left (e f : Bytes) (k : Nat) (h : k < 8 * e.length) : bitAt (e ++ f) k = bitAt e k := by
  simp only [bitAt, List.getD_eq_getElem?_getD]
  rw [List.getElem?_append_left (by omega)]

theorem bitAt_append_right (e : Bytes) (b : Byte) (t : Nat) (h : t < 8) :
    bitAt (e ++ [b]) (8 * e.length + t) = b.getLsbD (7 - t) := by
  simp only [bitAt, List.getD_eq_getElem?_getD]
  rw [show (8 * e.length + t) / 8 = e.length by omega, show (8 * e.length + t) % 8 = t by omega]
  simp

/-- Two values of n bits with the same bits are equal. -/
theorem eq_of_testBit_lt {x y n : Nat} (hx : x < 2 ^ n) (hy : y < 2 ^ n) (h : ∀ k < n, x.testBit k = y.testBit k) : x = y := by
  apply Nat.eq_of_testBit_eq
  intro k
  rcases Nat.lt_or_ge k n with hk | hk
  · exact h k hk
  · rw [Nat.testBit_lt_two_pow (Nat.lt_of_lt_of_le hx (Nat.pow_le_pow_right (by omega) hk)),
      Nat.testBit_lt_two_pow (Nat.lt_of_lt_of_le hy (Nat.pow_le_pow_right (by omega) hk))]

/-- A byte read from eight bits of a stream has those bits. -/
theorem byte_of_bits (f : Nat → Bool) (k : Nat) (hk : k < 8) :
    (BitVec.ofNat 8 (bitsVal ((List.range 8).map f))).getLsbD (7 - k) = f k := by
  rw [BitVec.getLsbD_ofNat, bitsVal_range_testBit 8 f (7 - k) (by omega)]
  simp [show 7 - k < 8 by omega, show 8 - 1 - (7 - k) = k by omega]

end Sys2Proof.Machine
end

