-- ==== Sys2Proof/Laws/State.lean ====
section
/-! SUPPORT. One lemma per field per update of the state, true by unfolding, for simp. -/

namespace Sys2Proof.Machine

variable (s : State)


/-! ### Memory -/

@[simp] theorem storeBytes_seq (a n : Nat) (vs : Bytes) : (storeBytes s a n vs).seq = s.seq := rfl
@[simp] theorem storeBytes_cmd (a n : Nat) (vs : Bytes) : (storeBytes s a n vs).cmd = s.cmd := rfl
@[simp] theorem storeBytes_irqEn (a n : Nat) (vs : Bytes) : (storeBytes s a n vs).irqEn = s.irqEn := rfl
@[simp] theorem storeBytes_irqEnHeld (a n : Nat) (vs : Bytes) : (storeBytes s a n vs).irqEnHeld = s.irqEnHeld := rfl
@[simp] theorem storeBytes_done (a n : Nat) (vs : Bytes) : (storeBytes s a n vs).done = s.done := rfl
@[simp] theorem storeBytes_err (a n : Nat) (vs : Bytes) : (storeBytes s a n vs).err = s.err := rfl
@[simp] theorem storeBytes_tableValid (a n : Nat) (vs : Bytes) : (storeBytes s a n vs).tableValid = s.tableValid := rfl
@[simp] theorem storeBytes_tblOver (a n : Nat) (vs : Bytes) : (storeBytes s a n vs).tblOver = s.tblOver := rfl
@[simp] theorem storeBytes_tblBad (a n : Nat) (vs : Bytes) : (storeBytes s a n vs).tblBad = s.tblBad := rfl
@[simp] theorem storeBytes_overrun (a n : Nat) (vs : Bytes) : (storeBytes s a n vs).overrun = s.overrun := rfl
@[simp] theorem storeBytes_busyWr (a n : Nat) (vs : Bytes) : (storeBytes s a n vs).busyWr = s.busyWr := rfl
@[simp] theorem storeBytes_doneIrq (a n : Nat) (vs : Bytes) : (storeBytes s a n vs).doneIrq = s.doneIrq := rfl
@[simp] theorem storeBytes_entLen (a n : Nat) (vs : Bytes) : (storeBytes s a n vs).entLen = s.entLen := rfl
@[simp] theorem storeBytes_wordCount (a n : Nat) (vs : Bytes) : (storeBytes s a n vs).wordCount = s.wordCount := rfl
@[simp] theorem storeBytes_textLen (a n : Nat) (vs : Bytes) : (storeBytes s a n vs).textLen = s.textLen := rfl
@[simp] theorem storeBytes_passLen (a n : Nat) (vs : Bytes) : (storeBytes s a n vs).passLen = s.passLen := rfl
@[simp] theorem storeBytes_normLen (a n : Nat) (vs : Bytes) : (storeBytes s a n vs).normLen = s.normLen := rfl
@[simp] theorem storeBytes_outLen (a n : Nat) (vs : Bytes) : (storeBytes s a n vs).outLen = s.outLen := rfl
@[simp] theorem storeBytes_saltLen (a n : Nat) (vs : Bytes) : (storeBytes s a n vs).saltLen = s.saltLen := rfl
@[simp] theorem storeBytes_ck (a n : Nat) (vs : Bytes) : (storeBytes s a n vs).ck = s.ck := rfl
@[simp] theorem storeBytes_csn (a n : Nat) (vs : Bytes) : (storeBytes s a n vs).csn = s.csn := rfl
@[simp] theorem storeBytes_tblCount (a n : Nat) (vs : Bytes) : (storeBytes s a n vs).tblCount = s.tblCount := rfl
@[simp] theorem storeBytes_stageLen (a n : Nat) (vs : Bytes) : (storeBytes s a n vs).stageLen = s.stageLen := rfl
@[simp] theorem storeBytes_lookupIdx (a n : Nat) (vs : Bytes) : (storeBytes s a n vs).lookupIdx = s.lookupIdx := rfl
@[simp] theorem storeBytes_errIndex (a n : Nat) (vs : Bytes) : (storeBytes s a n vs).errIndex = s.errIndex := rfl
@[simp] theorem storeBytes_resValid (a n : Nat) (vs : Bytes) : (storeBytes s a n vs).resValid = s.resValid := rfl
@[simp] theorem storeBytes_resReason (a n : Nat) (vs : Bytes) : (storeBytes s a n vs).resReason = s.resReason := rfl
@[simp] theorem storeBytes_mem (a n : Nat) (vs : Bytes) : (storeBytes s a n vs).mem = Sparse.store 0 s.mem a n vs := rfl
@[simp] theorem storeBytes_wt (a n : Nat) (vs : Bytes) : (storeBytes s a n vs).wt = s.wt := rfl
@[simp] theorem storeBytes_host (a n : Nat) (vs : Bytes) : (storeBytes s a n vs).host = s.host := rfl
@[simp] theorem storeBytes_resp (a n : Nat) (vs : Bytes) : (storeBytes s a n vs).resp = s.resp := rfl
@[simp] theorem storeBytes_freeCount (a n : Nat) (vs : Bytes) : (storeBytes s a n vs).freeCount = s.freeCount := rfl

/-! ### Buffers -/

@[simp] theorem commitBuf_seq (b : Buf) (vs : Bytes) : (commitBuf s b vs).seq = s.seq := rfl
@[simp] theorem commitBuf_cmd (b : Buf) (vs : Bytes) : (commitBuf s b vs).cmd = s.cmd := rfl
@[simp] theorem commitBuf_irqEn (b : Buf) (vs : Bytes) : (commitBuf s b vs).irqEn = s.irqEn := rfl
@[simp] theorem commitBuf_irqEnHeld (b : Buf) (vs : Bytes) : (commitBuf s b vs).irqEnHeld = s.irqEnHeld := rfl
@[simp] theorem commitBuf_done (b : Buf) (vs : Bytes) : (commitBuf s b vs).done = s.done := rfl
@[simp] theorem commitBuf_err (b : Buf) (vs : Bytes) : (commitBuf s b vs).err = s.err := rfl
@[simp] theorem commitBuf_tableValid (b : Buf) (vs : Bytes) : (commitBuf s b vs).tableValid = s.tableValid := rfl
@[simp] theorem commitBuf_tblOver (b : Buf) (vs : Bytes) : (commitBuf s b vs).tblOver = s.tblOver := rfl
@[simp] theorem commitBuf_tblBad (b : Buf) (vs : Bytes) : (commitBuf s b vs).tblBad = s.tblBad := rfl
@[simp] theorem commitBuf_overrun (b : Buf) (vs : Bytes) : (commitBuf s b vs).overrun = s.overrun := rfl
@[simp] theorem commitBuf_busyWr (b : Buf) (vs : Bytes) : (commitBuf s b vs).busyWr = s.busyWr := rfl
@[simp] theorem commitBuf_doneIrq (b : Buf) (vs : Bytes) : (commitBuf s b vs).doneIrq = s.doneIrq := rfl
@[simp] theorem commitBuf_entLen (b : Buf) (vs : Bytes) : (commitBuf s b vs).entLen = s.entLen := rfl
@[simp] theorem commitBuf_wordCount (b : Buf) (vs : Bytes) : (commitBuf s b vs).wordCount = s.wordCount := rfl
@[simp] theorem commitBuf_textLen (b : Buf) (vs : Bytes) : (commitBuf s b vs).textLen = s.textLen := rfl
@[simp] theorem commitBuf_passLen (b : Buf) (vs : Bytes) : (commitBuf s b vs).passLen = s.passLen := rfl
@[simp] theorem commitBuf_normLen (b : Buf) (vs : Bytes) : (commitBuf s b vs).normLen = s.normLen := rfl
@[simp] theorem commitBuf_outLen (b : Buf) (vs : Bytes) : (commitBuf s b vs).outLen = s.outLen := rfl
@[simp] theorem commitBuf_saltLen (b : Buf) (vs : Bytes) : (commitBuf s b vs).saltLen = s.saltLen := rfl
@[simp] theorem commitBuf_ck (b : Buf) (vs : Bytes) : (commitBuf s b vs).ck = s.ck := rfl
@[simp] theorem commitBuf_csn (b : Buf) (vs : Bytes) : (commitBuf s b vs).csn = s.csn := rfl
@[simp] theorem commitBuf_tblCount (b : Buf) (vs : Bytes) : (commitBuf s b vs).tblCount = s.tblCount := rfl
@[simp] theorem commitBuf_stageLen (b : Buf) (vs : Bytes) : (commitBuf s b vs).stageLen = s.stageLen := rfl
@[simp] theorem commitBuf_lookupIdx (b : Buf) (vs : Bytes) : (commitBuf s b vs).lookupIdx = s.lookupIdx := rfl
@[simp] theorem commitBuf_errIndex (b : Buf) (vs : Bytes) : (commitBuf s b vs).errIndex = s.errIndex := rfl
@[simp] theorem commitBuf_resValid (b : Buf) (vs : Bytes) : (commitBuf s b vs).resValid = s.resValid := rfl
@[simp] theorem commitBuf_resReason (b : Buf) (vs : Bytes) : (commitBuf s b vs).resReason = s.resReason := rfl
@[simp] theorem commitBuf_mem (b : Buf) (vs : Bytes) : (commitBuf s b vs).mem = Sparse.store 0 s.mem b.base b.size vs := rfl
@[simp] theorem commitBuf_wt (b : Buf) (vs : Bytes) : (commitBuf s b vs).wt = s.wt := rfl
@[simp] theorem commitBuf_host (b : Buf) (vs : Bytes) : (commitBuf s b vs).host = s.host := rfl
@[simp] theorem commitBuf_resp (b : Buf) (vs : Bytes) : (commitBuf s b vs).resp = s.resp := rfl
@[simp] theorem commitBuf_freeCount (b : Buf) (vs : Bytes) : (commitBuf s b vs).freeCount = s.freeCount := rfl

/-! ### Completion -/

@[simp] theorem finish_seq (e : BitVec 4) (i : Half) : (finish s e i).seq = .idle := rfl
@[simp] theorem finish_cmd (e : BitVec 4) (i : Half) : (finish s e i).cmd = s.cmd := rfl
@[simp] theorem finish_irqEn (e : BitVec 4) (i : Half) : (finish s e i).irqEn = s.irqEn := rfl
@[simp] theorem finish_irqEnHeld (e : BitVec 4) (i : Half) : (finish s e i).irqEnHeld = s.irqEnHeld := rfl
@[simp] theorem finish_done (e : BitVec 4) (i : Half) : (finish s e i).done = true := rfl
@[simp] theorem finish_err (e : BitVec 4) (i : Half) : (finish s e i).err = e := rfl
@[simp] theorem finish_tableValid (e : BitVec 4) (i : Half) : (finish s e i).tableValid = s.tableValid := rfl
@[simp] theorem finish_tblOver (e : BitVec 4) (i : Half) : (finish s e i).tblOver = s.tblOver := rfl
@[simp] theorem finish_tblBad (e : BitVec 4) (i : Half) : (finish s e i).tblBad = s.tblBad := rfl
@[simp] theorem finish_overrun (e : BitVec 4) (i : Half) : (finish s e i).overrun = s.overrun := rfl
@[simp] theorem finish_busyWr (e : BitVec 4) (i : Half) : (finish s e i).busyWr = s.busyWr := rfl
@[simp] theorem finish_doneIrq (e : BitVec 4) (i : Half) : (finish s e i).doneIrq = true := rfl
@[simp] theorem finish_entLen (e : BitVec 4) (i : Half) : (finish s e i).entLen = s.entLen := rfl
@[simp] theorem finish_wordCount (e : BitVec 4) (i : Half) : (finish s e i).wordCount = s.wordCount := rfl
@[simp] theorem finish_textLen (e : BitVec 4) (i : Half) : (finish s e i).textLen = s.textLen := rfl
@[simp] theorem finish_passLen (e : BitVec 4) (i : Half) : (finish s e i).passLen = s.passLen := rfl
@[simp] theorem finish_normLen (e : BitVec 4) (i : Half) : (finish s e i).normLen = s.normLen := rfl
@[simp] theorem finish_outLen (e : BitVec 4) (i : Half) : (finish s e i).outLen = s.outLen := rfl
@[simp] theorem finish_saltLen (e : BitVec 4) (i : Half) : (finish s e i).saltLen = s.saltLen := rfl
@[simp] theorem finish_ck (e : BitVec 4) (i : Half) : (finish s e i).ck = s.ck := rfl
@[simp] theorem finish_csn (e : BitVec 4) (i : Half) : (finish s e i).csn = s.csn := rfl
@[simp] theorem finish_tblCount (e : BitVec 4) (i : Half) : (finish s e i).tblCount = s.tblCount := rfl
@[simp] theorem finish_stageLen (e : BitVec 4) (i : Half) : (finish s e i).stageLen = s.stageLen := rfl
@[simp] theorem finish_lookupIdx (e : BitVec 4) (i : Half) : (finish s e i).lookupIdx = s.lookupIdx := rfl
@[simp] theorem finish_errIndex (e : BitVec 4) (i : Half) : (finish s e i).errIndex = i := rfl
@[simp] theorem finish_resValid (e : BitVec 4) (i : Half) : (finish s e i).resValid = s.resValid := rfl
@[simp] theorem finish_resReason (e : BitVec 4) (i : Half) : (finish s e i).resReason = s.resReason := rfl
@[simp] theorem finish_mem (e : BitVec 4) (i : Half) : (finish s e i).mem = s.mem := rfl
@[simp] theorem finish_wt (e : BitVec 4) (i : Half) : (finish s e i).wt = s.wt := rfl
@[simp] theorem finish_host (e : BitVec 4) (i : Half) : (finish s e i).host = s.host := rfl
@[simp] theorem finish_resp (e : BitVec 4) (i : Half) : (finish s e i).resp = s.resp := rfl
@[simp] theorem finish_freeCount (e : BitVec 4) (i : Half) : (finish s e i).freeCount = s.freeCount := rfl

/-! ### Acceptance -/

@[simp] theorem issue_seq (w : Word) (left : Nat) : (issue s w left).seq = .busy left := rfl
@[simp] theorem issue_cmd (w : Word) (left : Nat) : (issue s w left).cmd = w := rfl
@[simp] theorem issue_irqEn (w : Word) (left : Nat) : (issue s w left).irqEn = s.irqEn := rfl
@[simp] theorem issue_irqEnHeld (w : Word) (left : Nat) : (issue s w left).irqEnHeld = s.irqEn := rfl
@[simp] theorem issue_done (w : Word) (left : Nat) : (issue s w left).done = false := rfl
@[simp] theorem issue_err (w : Word) (left : Nat) : (issue s w left).err = 0 := rfl
@[simp] theorem issue_tableValid (w : Word) (left : Nat) : (issue s w left).tableValid = s.tableValid := rfl
@[simp] theorem issue_tblOver (w : Word) (left : Nat) : (issue s w left).tblOver = s.tblOver := rfl
@[simp] theorem issue_tblBad (w : Word) (left : Nat) : (issue s w left).tblBad = s.tblBad := rfl
@[simp] theorem issue_overrun (w : Word) (left : Nat) : (issue s w left).overrun = s.overrun := rfl
@[simp] theorem issue_busyWr (w : Word) (left : Nat) : (issue s w left).busyWr = s.busyWr := rfl
@[simp] theorem issue_doneIrq (w : Word) (left : Nat) : (issue s w left).doneIrq = s.doneIrq := rfl
@[simp] theorem issue_entLen (w : Word) (left : Nat) : (issue s w left).entLen = s.entLen := rfl
@[simp] theorem issue_wordCount (w : Word) (left : Nat) : (issue s w left).wordCount = s.wordCount := rfl
@[simp] theorem issue_textLen (w : Word) (left : Nat) : (issue s w left).textLen = s.textLen := rfl
@[simp] theorem issue_passLen (w : Word) (left : Nat) : (issue s w left).passLen = s.passLen := rfl
@[simp] theorem issue_normLen (w : Word) (left : Nat) : (issue s w left).normLen = s.normLen := rfl
@[simp] theorem issue_outLen (w : Word) (left : Nat) : (issue s w left).outLen = s.outLen := rfl
@[simp] theorem issue_saltLen (w : Word) (left : Nat) : (issue s w left).saltLen = s.saltLen := rfl
@[simp] theorem issue_ck (w : Word) (left : Nat) : (issue s w left).ck = s.ck := rfl
@[simp] theorem issue_csn (w : Word) (left : Nat) : (issue s w left).csn = s.csn := rfl
@[simp] theorem issue_tblCount (w : Word) (left : Nat) : (issue s w left).tblCount = s.tblCount := rfl
@[simp] theorem issue_stageLen (w : Word) (left : Nat) : (issue s w left).stageLen = s.stageLen := rfl
@[simp] theorem issue_lookupIdx (w : Word) (left : Nat) : (issue s w left).lookupIdx = s.lookupIdx := rfl
@[simp] theorem issue_errIndex (w : Word) (left : Nat) : (issue s w left).errIndex = s.errIndex := rfl
@[simp] theorem issue_resValid (w : Word) (left : Nat) : (issue s w left).resValid = s.resValid := rfl
@[simp] theorem issue_resReason (w : Word) (left : Nat) : (issue s w left).resReason = s.resReason := rfl
@[simp] theorem issue_mem (w : Word) (left : Nat) : (issue s w left).mem = s.mem := rfl
@[simp] theorem issue_wt (w : Word) (left : Nat) : (issue s w left).wt = s.wt := rfl
@[simp] theorem issue_host (w : Word) (left : Nat) : (issue s w left).host = s.host := rfl
@[simp] theorem issue_resp (w : Word) (left : Nat) : (issue s w left).resp = s.resp := rfl
@[simp] theorem issue_freeCount (w : Word) (left : Nat) : (issue s w left).freeCount = s.freeCount := rfl

/-! ### Reset -/

@[simp] theorem resetBlock_seq : (resetBlock s).seq = State.reset.seq := rfl
@[simp] theorem resetBlock_cmd : (resetBlock s).cmd = State.reset.cmd := rfl
@[simp] theorem resetBlock_irqEn : (resetBlock s).irqEn = State.reset.irqEn := rfl
@[simp] theorem resetBlock_irqEnHeld : (resetBlock s).irqEnHeld = State.reset.irqEnHeld := rfl
@[simp] theorem resetBlock_done : (resetBlock s).done = State.reset.done := rfl
@[simp] theorem resetBlock_err : (resetBlock s).err = State.reset.err := rfl
@[simp] theorem resetBlock_tableValid : (resetBlock s).tableValid = State.reset.tableValid := rfl
@[simp] theorem resetBlock_tblOver : (resetBlock s).tblOver = State.reset.tblOver := rfl
@[simp] theorem resetBlock_tblBad : (resetBlock s).tblBad = State.reset.tblBad := rfl
@[simp] theorem resetBlock_overrun : (resetBlock s).overrun = State.reset.overrun := rfl
@[simp] theorem resetBlock_busyWr : (resetBlock s).busyWr = State.reset.busyWr := rfl
@[simp] theorem resetBlock_doneIrq : (resetBlock s).doneIrq = State.reset.doneIrq := rfl
@[simp] theorem resetBlock_entLen : (resetBlock s).entLen = State.reset.entLen := rfl
@[simp] theorem resetBlock_wordCount : (resetBlock s).wordCount = State.reset.wordCount := rfl
@[simp] theorem resetBlock_textLen : (resetBlock s).textLen = State.reset.textLen := rfl
@[simp] theorem resetBlock_passLen : (resetBlock s).passLen = State.reset.passLen := rfl
@[simp] theorem resetBlock_normLen : (resetBlock s).normLen = State.reset.normLen := rfl
@[simp] theorem resetBlock_outLen : (resetBlock s).outLen = State.reset.outLen := rfl
@[simp] theorem resetBlock_saltLen : (resetBlock s).saltLen = State.reset.saltLen := rfl
@[simp] theorem resetBlock_ck : (resetBlock s).ck = State.reset.ck := rfl
@[simp] theorem resetBlock_csn : (resetBlock s).csn = State.reset.csn := rfl
@[simp] theorem resetBlock_tblCount : (resetBlock s).tblCount = State.reset.tblCount := rfl
@[simp] theorem resetBlock_stageLen : (resetBlock s).stageLen = State.reset.stageLen := rfl
@[simp] theorem resetBlock_lookupIdx : (resetBlock s).lookupIdx = State.reset.lookupIdx := rfl
@[simp] theorem resetBlock_errIndex : (resetBlock s).errIndex = State.reset.errIndex := rfl
@[simp] theorem resetBlock_resValid : (resetBlock s).resValid = State.reset.resValid := rfl
@[simp] theorem resetBlock_resReason : (resetBlock s).resReason = State.reset.resReason := rfl
@[simp] theorem resetBlock_mem : (resetBlock s).mem = State.reset.mem := rfl
@[simp] theorem resetBlock_wt : (resetBlock s).wt = State.reset.wt := rfl
@[simp] theorem resetBlock_host : (resetBlock s).host = s.host := rfl
@[simp] theorem resetBlock_resp : (resetBlock s).resp = s.resp := rfl
@[simp] theorem resetBlock_freeCount : (resetBlock s).freeCount = s.freeCount := rfl

/-! ### Word table -/

@[simp] theorem setEntry_seq (n : Nat) (w : Bytes) : (setEntry s n w).seq = s.seq := rfl
@[simp] theorem setEntry_cmd (n : Nat) (w : Bytes) : (setEntry s n w).cmd = s.cmd := rfl
@[simp] theorem setEntry_irqEn (n : Nat) (w : Bytes) : (setEntry s n w).irqEn = s.irqEn := rfl
@[simp] theorem setEntry_irqEnHeld (n : Nat) (w : Bytes) : (setEntry s n w).irqEnHeld = s.irqEnHeld := rfl
@[simp] theorem setEntry_done (n : Nat) (w : Bytes) : (setEntry s n w).done = s.done := rfl
@[simp] theorem setEntry_err (n : Nat) (w : Bytes) : (setEntry s n w).err = s.err := rfl
@[simp] theorem setEntry_tableValid (n : Nat) (w : Bytes) : (setEntry s n w).tableValid = s.tableValid := rfl
@[simp] theorem setEntry_tblOver (n : Nat) (w : Bytes) : (setEntry s n w).tblOver = s.tblOver := rfl
@[simp] theorem setEntry_tblBad (n : Nat) (w : Bytes) : (setEntry s n w).tblBad = s.tblBad := rfl
@[simp] theorem setEntry_overrun (n : Nat) (w : Bytes) : (setEntry s n w).overrun = s.overrun := rfl
@[simp] theorem setEntry_busyWr (n : Nat) (w : Bytes) : (setEntry s n w).busyWr = s.busyWr := rfl
@[simp] theorem setEntry_doneIrq (n : Nat) (w : Bytes) : (setEntry s n w).doneIrq = s.doneIrq := rfl
@[simp] theorem setEntry_entLen (n : Nat) (w : Bytes) : (setEntry s n w).entLen = s.entLen := rfl
@[simp] theorem setEntry_wordCount (n : Nat) (w : Bytes) : (setEntry s n w).wordCount = s.wordCount := rfl
@[simp] theorem setEntry_textLen (n : Nat) (w : Bytes) : (setEntry s n w).textLen = s.textLen := rfl
@[simp] theorem setEntry_passLen (n : Nat) (w : Bytes) : (setEntry s n w).passLen = s.passLen := rfl
@[simp] theorem setEntry_normLen (n : Nat) (w : Bytes) : (setEntry s n w).normLen = s.normLen := rfl
@[simp] theorem setEntry_outLen (n : Nat) (w : Bytes) : (setEntry s n w).outLen = s.outLen := rfl
@[simp] theorem setEntry_saltLen (n : Nat) (w : Bytes) : (setEntry s n w).saltLen = s.saltLen := rfl
@[simp] theorem setEntry_ck (n : Nat) (w : Bytes) : (setEntry s n w).ck = s.ck := rfl
@[simp] theorem setEntry_csn (n : Nat) (w : Bytes) : (setEntry s n w).csn = s.csn := rfl
@[simp] theorem setEntry_tblCount (n : Nat) (w : Bytes) : (setEntry s n w).tblCount = s.tblCount := rfl
@[simp] theorem setEntry_stageLen (n : Nat) (w : Bytes) : (setEntry s n w).stageLen = s.stageLen := rfl
@[simp] theorem setEntry_lookupIdx (n : Nat) (w : Bytes) : (setEntry s n w).lookupIdx = s.lookupIdx := rfl
@[simp] theorem setEntry_errIndex (n : Nat) (w : Bytes) : (setEntry s n w).errIndex = s.errIndex := rfl
@[simp] theorem setEntry_resValid (n : Nat) (w : Bytes) : (setEntry s n w).resValid = s.resValid := rfl
@[simp] theorem setEntry_resReason (n : Nat) (w : Bytes) : (setEntry s n w).resReason = s.resReason := rfl
@[simp] theorem setEntry_mem (n : Nat) (w : Bytes) : (setEntry s n w).mem = s.mem := rfl
@[simp] theorem setEntry_wt (n : Nat) (w : Bytes) : (setEntry s n w).wt = Sparse.store [] s.wt n 1 [w] := rfl
@[simp] theorem setEntry_host (n : Nat) (w : Bytes) : (setEntry s n w).host = s.host := rfl
@[simp] theorem setEntry_resp (n : Nat) (w : Bytes) : (setEntry s n w).resp = s.resp := rfl
@[simp] theorem setEntry_freeCount (n : Nat) (w : Bytes) : (setEntry s n w).freeCount = s.freeCount := rfl

/-! ### Commit sets -/

@[simp] theorem commitIdx_seq (vs : List Nat) : (commitIdx s vs).seq = s.seq := rfl
@[simp] theorem commitIdx_cmd (vs : List Nat) : (commitIdx s vs).cmd = s.cmd := rfl
@[simp] theorem commitIdx_irqEn (vs : List Nat) : (commitIdx s vs).irqEn = s.irqEn := rfl
@[simp] theorem commitIdx_irqEnHeld (vs : List Nat) : (commitIdx s vs).irqEnHeld = s.irqEnHeld := rfl
@[simp] theorem commitIdx_done (vs : List Nat) : (commitIdx s vs).done = s.done := rfl
@[simp] theorem commitIdx_err (vs : List Nat) : (commitIdx s vs).err = s.err := rfl
@[simp] theorem commitIdx_tableValid (vs : List Nat) : (commitIdx s vs).tableValid = s.tableValid := rfl
@[simp] theorem commitIdx_tblOver (vs : List Nat) : (commitIdx s vs).tblOver = s.tblOver := rfl
@[simp] theorem commitIdx_tblBad (vs : List Nat) : (commitIdx s vs).tblBad = s.tblBad := rfl
@[simp] theorem commitIdx_overrun (vs : List Nat) : (commitIdx s vs).overrun = s.overrun := rfl
@[simp] theorem commitIdx_busyWr (vs : List Nat) : (commitIdx s vs).busyWr = s.busyWr := rfl
@[simp] theorem commitIdx_doneIrq (vs : List Nat) : (commitIdx s vs).doneIrq = s.doneIrq := rfl
@[simp] theorem commitIdx_entLen (vs : List Nat) : (commitIdx s vs).entLen = s.entLen := rfl
@[simp] theorem commitIdx_wordCount (vs : List Nat) : (commitIdx s vs).wordCount = s.wordCount := rfl
@[simp] theorem commitIdx_textLen (vs : List Nat) : (commitIdx s vs).textLen = s.textLen := rfl
@[simp] theorem commitIdx_passLen (vs : List Nat) : (commitIdx s vs).passLen = s.passLen := rfl
@[simp] theorem commitIdx_normLen (vs : List Nat) : (commitIdx s vs).normLen = s.normLen := rfl
@[simp] theorem commitIdx_outLen (vs : List Nat) : (commitIdx s vs).outLen = s.outLen := rfl
@[simp] theorem commitIdx_saltLen (vs : List Nat) : (commitIdx s vs).saltLen = s.saltLen := rfl
@[simp] theorem commitIdx_ck (vs : List Nat) : (commitIdx s vs).ck = s.ck := rfl
@[simp] theorem commitIdx_csn (vs : List Nat) : (commitIdx s vs).csn = s.csn := rfl
@[simp] theorem commitIdx_tblCount (vs : List Nat) : (commitIdx s vs).tblCount = s.tblCount := rfl
@[simp] theorem commitIdx_stageLen (vs : List Nat) : (commitIdx s vs).stageLen = s.stageLen := rfl
@[simp] theorem commitIdx_lookupIdx (vs : List Nat) : (commitIdx s vs).lookupIdx = s.lookupIdx := rfl
@[simp] theorem commitIdx_errIndex (vs : List Nat) : (commitIdx s vs).errIndex = s.errIndex := rfl
@[simp] theorem commitIdx_resValid (vs : List Nat) : (commitIdx s vs).resValid = s.resValid := rfl
@[simp] theorem commitIdx_resReason (vs : List Nat) : (commitIdx s vs).resReason = s.resReason := rfl
@[simp] theorem commitIdx_wt (vs : List Nat) : (commitIdx s vs).wt = s.wt := rfl
@[simp] theorem commitIdx_host (vs : List Nat) : (commitIdx s vs).host = s.host := rfl
@[simp] theorem commitIdx_resp (vs : List Nat) : (commitIdx s vs).resp = s.resp := rfl
@[simp] theorem commitIdx_freeCount (vs : List Nat) : (commitIdx s vs).freeCount = s.freeCount := rfl
@[simp] theorem commitTok_seq (ds : List (Nat × Nat)) : (commitTok s ds).seq = s.seq := rfl
@[simp] theorem commitTok_cmd (ds : List (Nat × Nat)) : (commitTok s ds).cmd = s.cmd := rfl
@[simp] theorem commitTok_irqEn (ds : List (Nat × Nat)) : (commitTok s ds).irqEn = s.irqEn := rfl
@[simp] theorem commitTok_irqEnHeld (ds : List (Nat × Nat)) : (commitTok s ds).irqEnHeld = s.irqEnHeld := rfl
@[simp] theorem commitTok_done (ds : List (Nat × Nat)) : (commitTok s ds).done = s.done := rfl
@[simp] theorem commitTok_err (ds : List (Nat × Nat)) : (commitTok s ds).err = s.err := rfl
@[simp] theorem commitTok_tableValid (ds : List (Nat × Nat)) : (commitTok s ds).tableValid = s.tableValid := rfl
@[simp] theorem commitTok_tblOver (ds : List (Nat × Nat)) : (commitTok s ds).tblOver = s.tblOver := rfl
@[simp] theorem commitTok_tblBad (ds : List (Nat × Nat)) : (commitTok s ds).tblBad = s.tblBad := rfl
@[simp] theorem commitTok_overrun (ds : List (Nat × Nat)) : (commitTok s ds).overrun = s.overrun := rfl
@[simp] theorem commitTok_busyWr (ds : List (Nat × Nat)) : (commitTok s ds).busyWr = s.busyWr := rfl
@[simp] theorem commitTok_doneIrq (ds : List (Nat × Nat)) : (commitTok s ds).doneIrq = s.doneIrq := rfl
@[simp] theorem commitTok_entLen (ds : List (Nat × Nat)) : (commitTok s ds).entLen = s.entLen := rfl
@[simp] theorem commitTok_wordCount (ds : List (Nat × Nat)) : (commitTok s ds).wordCount = s.wordCount := rfl
@[simp] theorem commitTok_textLen (ds : List (Nat × Nat)) : (commitTok s ds).textLen = s.textLen := rfl
@[simp] theorem commitTok_passLen (ds : List (Nat × Nat)) : (commitTok s ds).passLen = s.passLen := rfl
@[simp] theorem commitTok_normLen (ds : List (Nat × Nat)) : (commitTok s ds).normLen = s.normLen := rfl
@[simp] theorem commitTok_outLen (ds : List (Nat × Nat)) : (commitTok s ds).outLen = s.outLen := rfl
@[simp] theorem commitTok_saltLen (ds : List (Nat × Nat)) : (commitTok s ds).saltLen = s.saltLen := rfl
@[simp] theorem commitTok_ck (ds : List (Nat × Nat)) : (commitTok s ds).ck = s.ck := rfl
@[simp] theorem commitTok_csn (ds : List (Nat × Nat)) : (commitTok s ds).csn = s.csn := rfl
@[simp] theorem commitTok_tblCount (ds : List (Nat × Nat)) : (commitTok s ds).tblCount = s.tblCount := rfl
@[simp] theorem commitTok_stageLen (ds : List (Nat × Nat)) : (commitTok s ds).stageLen = s.stageLen := rfl
@[simp] theorem commitTok_lookupIdx (ds : List (Nat × Nat)) : (commitTok s ds).lookupIdx = s.lookupIdx := rfl
@[simp] theorem commitTok_errIndex (ds : List (Nat × Nat)) : (commitTok s ds).errIndex = s.errIndex := rfl
@[simp] theorem commitTok_resValid (ds : List (Nat × Nat)) : (commitTok s ds).resValid = s.resValid := rfl
@[simp] theorem commitTok_resReason (ds : List (Nat × Nat)) : (commitTok s ds).resReason = s.resReason := rfl
@[simp] theorem commitTok_wt (ds : List (Nat × Nat)) : (commitTok s ds).wt = s.wt := rfl
@[simp] theorem commitTok_host (ds : List (Nat × Nat)) : (commitTok s ds).host = s.host := rfl
@[simp] theorem commitTok_resp (ds : List (Nat × Nat)) : (commitTok s ds).resp = s.resp := rfl
@[simp] theorem commitTok_freeCount (ds : List (Nat × Nat)) : (commitTok s ds).freeCount = s.freeCount := rfl
@[simp] theorem commitCksum_seq (e : Bytes) : (commitCksum s e).seq = s.seq := rfl
@[simp] theorem commitCksum_cmd (e : Bytes) : (commitCksum s e).cmd = s.cmd := rfl
@[simp] theorem commitCksum_irqEn (e : Bytes) : (commitCksum s e).irqEn = s.irqEn := rfl
@[simp] theorem commitCksum_irqEnHeld (e : Bytes) : (commitCksum s e).irqEnHeld = s.irqEnHeld := rfl
@[simp] theorem commitCksum_done (e : Bytes) : (commitCksum s e).done = s.done := rfl
@[simp] theorem commitCksum_err (e : Bytes) : (commitCksum s e).err = s.err := rfl
@[simp] theorem commitCksum_tableValid (e : Bytes) : (commitCksum s e).tableValid = s.tableValid := rfl
@[simp] theorem commitCksum_tblOver (e : Bytes) : (commitCksum s e).tblOver = s.tblOver := rfl
@[simp] theorem commitCksum_tblBad (e : Bytes) : (commitCksum s e).tblBad = s.tblBad := rfl
@[simp] theorem commitCksum_overrun (e : Bytes) : (commitCksum s e).overrun = s.overrun := rfl
@[simp] theorem commitCksum_busyWr (e : Bytes) : (commitCksum s e).busyWr = s.busyWr := rfl
@[simp] theorem commitCksum_doneIrq (e : Bytes) : (commitCksum s e).doneIrq = s.doneIrq := rfl
@[simp] theorem commitCksum_entLen (e : Bytes) : (commitCksum s e).entLen = s.entLen := rfl
@[simp] theorem commitCksum_wordCount (e : Bytes) : (commitCksum s e).wordCount = s.wordCount := rfl
@[simp] theorem commitCksum_textLen (e : Bytes) : (commitCksum s e).textLen = s.textLen := rfl
@[simp] theorem commitCksum_passLen (e : Bytes) : (commitCksum s e).passLen = s.passLen := rfl
@[simp] theorem commitCksum_normLen (e : Bytes) : (commitCksum s e).normLen = s.normLen := rfl
@[simp] theorem commitCksum_outLen (e : Bytes) : (commitCksum s e).outLen = s.outLen := rfl
@[simp] theorem commitCksum_saltLen (e : Bytes) : (commitCksum s e).saltLen = s.saltLen := rfl
@[simp] theorem commitCksum_ck (e : Bytes) : (commitCksum s e).ck = ckOf e := rfl
@[simp] theorem commitCksum_csn (e : Bytes) : (commitCksum s e).csn = BitVec.ofNat 4 (e.length / 4) := rfl
@[simp] theorem commitCksum_tblCount (e : Bytes) : (commitCksum s e).tblCount = s.tblCount := rfl
@[simp] theorem commitCksum_stageLen (e : Bytes) : (commitCksum s e).stageLen = s.stageLen := rfl
@[simp] theorem commitCksum_lookupIdx (e : Bytes) : (commitCksum s e).lookupIdx = s.lookupIdx := rfl
@[simp] theorem commitCksum_errIndex (e : Bytes) : (commitCksum s e).errIndex = s.errIndex := rfl
@[simp] theorem commitCksum_resValid (e : Bytes) : (commitCksum s e).resValid = s.resValid := rfl
@[simp] theorem commitCksum_resReason (e : Bytes) : (commitCksum s e).resReason = s.resReason := rfl
@[simp] theorem commitCksum_mem (e : Bytes) : (commitCksum s e).mem = s.mem := rfl
@[simp] theorem commitCksum_wt (e : Bytes) : (commitCksum s e).wt = s.wt := rfl
@[simp] theorem commitCksum_host (e : Bytes) : (commitCksum s e).host = s.host := rfl
@[simp] theorem commitCksum_resp (e : Bytes) : (commitCksum s e).resp = s.resp := rfl
@[simp] theorem commitCksum_freeCount (e : Bytes) : (commitCksum s e).freeCount = s.freeCount := rfl
@[simp] theorem commitPack_seq (e : Bytes) : (commitPack s e).seq = s.seq := rfl
@[simp] theorem commitPack_cmd (e : Bytes) : (commitPack s e).cmd = s.cmd := rfl
@[simp] theorem commitPack_irqEn (e : Bytes) : (commitPack s e).irqEn = s.irqEn := rfl
@[simp] theorem commitPack_irqEnHeld (e : Bytes) : (commitPack s e).irqEnHeld = s.irqEnHeld := rfl
@[simp] theorem commitPack_done (e : Bytes) : (commitPack s e).done = s.done := rfl
@[simp] theorem commitPack_err (e : Bytes) : (commitPack s e).err = s.err := rfl
@[simp] theorem commitPack_tableValid (e : Bytes) : (commitPack s e).tableValid = s.tableValid := rfl
@[simp] theorem commitPack_tblOver (e : Bytes) : (commitPack s e).tblOver = s.tblOver := rfl
@[simp] theorem commitPack_tblBad (e : Bytes) : (commitPack s e).tblBad = s.tblBad := rfl
@[simp] theorem commitPack_overrun (e : Bytes) : (commitPack s e).overrun = s.overrun := rfl
@[simp] theorem commitPack_busyWr (e : Bytes) : (commitPack s e).busyWr = s.busyWr := rfl
@[simp] theorem commitPack_doneIrq (e : Bytes) : (commitPack s e).doneIrq = s.doneIrq := rfl
@[simp] theorem commitPack_entLen (e : Bytes) : (commitPack s e).entLen = s.entLen := rfl
@[simp] theorem commitPack_wordCount (e : Bytes) : (commitPack s e).wordCount = BitVec.ofNat 16 (3 * e.length / 4) := rfl
@[simp] theorem commitPack_textLen (e : Bytes) : (commitPack s e).textLen = s.textLen := rfl
@[simp] theorem commitPack_passLen (e : Bytes) : (commitPack s e).passLen = s.passLen := rfl
@[simp] theorem commitPack_normLen (e : Bytes) : (commitPack s e).normLen = s.normLen := rfl
@[simp] theorem commitPack_outLen (e : Bytes) : (commitPack s e).outLen = s.outLen := rfl
@[simp] theorem commitPack_saltLen (e : Bytes) : (commitPack s e).saltLen = s.saltLen := rfl
@[simp] theorem commitPack_ck (e : Bytes) : (commitPack s e).ck = ckOf e := rfl
@[simp] theorem commitPack_csn (e : Bytes) : (commitPack s e).csn = BitVec.ofNat 4 (e.length / 4) := rfl
@[simp] theorem commitPack_tblCount (e : Bytes) : (commitPack s e).tblCount = s.tblCount := rfl
@[simp] theorem commitPack_stageLen (e : Bytes) : (commitPack s e).stageLen = s.stageLen := rfl
@[simp] theorem commitPack_lookupIdx (e : Bytes) : (commitPack s e).lookupIdx = s.lookupIdx := rfl
@[simp] theorem commitPack_errIndex (e : Bytes) : (commitPack s e).errIndex = s.errIndex := rfl
@[simp] theorem commitPack_resValid (e : Bytes) : (commitPack s e).resValid = s.resValid := rfl
@[simp] theorem commitPack_resReason (e : Bytes) : (commitPack s e).resReason = s.resReason := rfl
@[simp] theorem commitPack_mem (e : Bytes) : (commitPack s e).mem = (commitIdx s (packIndices e)).mem := rfl
@[simp] theorem commitPack_wt (e : Bytes) : (commitPack s e).wt = s.wt := rfl
@[simp] theorem commitPack_host (e : Bytes) : (commitPack s e).host = s.host := rfl
@[simp] theorem commitPack_resp (e : Bytes) : (commitPack s e).resp = s.resp := rfl
@[simp] theorem commitPack_freeCount (e : Bytes) : (commitPack s e).freeCount = s.freeCount := rfl
@[simp] theorem commitEntropy_seq (e : Bytes) : (commitEntropy s e).seq = s.seq := rfl
@[simp] theorem commitEntropy_cmd (e : Bytes) : (commitEntropy s e).cmd = s.cmd := rfl
@[simp] theorem commitEntropy_irqEn (e : Bytes) : (commitEntropy s e).irqEn = s.irqEn := rfl
@[simp] theorem commitEntropy_irqEnHeld (e : Bytes) : (commitEntropy s e).irqEnHeld = s.irqEnHeld := rfl
@[simp] theorem commitEntropy_done (e : Bytes) : (commitEntropy s e).done = s.done := rfl
@[simp] theorem commitEntropy_err (e : Bytes) : (commitEntropy s e).err = s.err := rfl
@[simp] theorem commitEntropy_tableValid (e : Bytes) : (commitEntropy s e).tableValid = s.tableValid := rfl
@[simp] theorem commitEntropy_tblOver (e : Bytes) : (commitEntropy s e).tblOver = s.tblOver := rfl
@[simp] theorem commitEntropy_tblBad (e : Bytes) : (commitEntropy s e).tblBad = s.tblBad := rfl
@[simp] theorem commitEntropy_overrun (e : Bytes) : (commitEntropy s e).overrun = s.overrun := rfl
@[simp] theorem commitEntropy_busyWr (e : Bytes) : (commitEntropy s e).busyWr = s.busyWr := rfl
@[simp] theorem commitEntropy_doneIrq (e : Bytes) : (commitEntropy s e).doneIrq = s.doneIrq := rfl
@[simp] theorem commitEntropy_entLen (e : Bytes) : (commitEntropy s e).entLen = BitVec.ofNat 8 e.length := rfl
@[simp] theorem commitEntropy_wordCount (e : Bytes) : (commitEntropy s e).wordCount = s.wordCount := rfl
@[simp] theorem commitEntropy_textLen (e : Bytes) : (commitEntropy s e).textLen = s.textLen := rfl
@[simp] theorem commitEntropy_passLen (e : Bytes) : (commitEntropy s e).passLen = s.passLen := rfl
@[simp] theorem commitEntropy_normLen (e : Bytes) : (commitEntropy s e).normLen = s.normLen := rfl
@[simp] theorem commitEntropy_outLen (e : Bytes) : (commitEntropy s e).outLen = s.outLen := rfl
@[simp] theorem commitEntropy_saltLen (e : Bytes) : (commitEntropy s e).saltLen = s.saltLen := rfl
@[simp] theorem commitEntropy_ck (e : Bytes) : (commitEntropy s e).ck = ckOf e := rfl
@[simp] theorem commitEntropy_csn (e : Bytes) : (commitEntropy s e).csn = BitVec.ofNat 4 (e.length / 4) := rfl
@[simp] theorem commitEntropy_tblCount (e : Bytes) : (commitEntropy s e).tblCount = s.tblCount := rfl
@[simp] theorem commitEntropy_stageLen (e : Bytes) : (commitEntropy s e).stageLen = s.stageLen := rfl
@[simp] theorem commitEntropy_lookupIdx (e : Bytes) : (commitEntropy s e).lookupIdx = s.lookupIdx := rfl
@[simp] theorem commitEntropy_errIndex (e : Bytes) : (commitEntropy s e).errIndex = s.errIndex := rfl
@[simp] theorem commitEntropy_resValid (e : Bytes) : (commitEntropy s e).resValid = s.resValid := rfl
@[simp] theorem commitEntropy_resReason (e : Bytes) : (commitEntropy s e).resReason = s.resReason := rfl
@[simp] theorem commitEntropy_mem (e : Bytes) : (commitEntropy s e).mem = (commitBuf s .entBuf e).mem := rfl
@[simp] theorem commitEntropy_wt (e : Bytes) : (commitEntropy s e).wt = s.wt := rfl
@[simp] theorem commitEntropy_host (e : Bytes) : (commitEntropy s e).host = s.host := rfl
@[simp] theorem commitEntropy_resp (e : Bytes) : (commitEntropy s e).resp = s.resp := rfl
@[simp] theorem commitEntropy_freeCount (e : Bytes) : (commitEntropy s e).freeCount = s.freeCount := rfl
@[simp] theorem commitPhrase_seq (t : Bytes) : (commitPhrase s t).seq = s.seq := rfl
@[simp] theorem commitPhrase_cmd (t : Bytes) : (commitPhrase s t).cmd = s.cmd := rfl
@[simp] theorem commitPhrase_irqEn (t : Bytes) : (commitPhrase s t).irqEn = s.irqEn := rfl
@[simp] theorem commitPhrase_irqEnHeld (t : Bytes) : (commitPhrase s t).irqEnHeld = s.irqEnHeld := rfl
@[simp] theorem commitPhrase_done (t : Bytes) : (commitPhrase s t).done = s.done := rfl
@[simp] theorem commitPhrase_err (t : Bytes) : (commitPhrase s t).err = s.err := rfl
@[simp] theorem commitPhrase_tableValid (t : Bytes) : (commitPhrase s t).tableValid = s.tableValid := rfl
@[simp] theorem commitPhrase_tblOver (t : Bytes) : (commitPhrase s t).tblOver = s.tblOver := rfl
@[simp] theorem commitPhrase_tblBad (t : Bytes) : (commitPhrase s t).tblBad = s.tblBad := rfl
@[simp] theorem commitPhrase_overrun (t : Bytes) : (commitPhrase s t).overrun = s.overrun := rfl
@[simp] theorem commitPhrase_busyWr (t : Bytes) : (commitPhrase s t).busyWr = s.busyWr := rfl
@[simp] theorem commitPhrase_doneIrq (t : Bytes) : (commitPhrase s t).doneIrq = s.doneIrq := rfl
@[simp] theorem commitPhrase_entLen (t : Bytes) : (commitPhrase s t).entLen = s.entLen := rfl
@[simp] theorem commitPhrase_wordCount (t : Bytes) : (commitPhrase s t).wordCount = s.wordCount := rfl
@[simp] theorem commitPhrase_textLen (t : Bytes) : (commitPhrase s t).textLen = s.textLen := rfl
@[simp] theorem commitPhrase_passLen (t : Bytes) : (commitPhrase s t).passLen = s.passLen := rfl
@[simp] theorem commitPhrase_normLen (t : Bytes) : (commitPhrase s t).normLen = s.normLen := rfl
@[simp] theorem commitPhrase_outLen (t : Bytes) : (commitPhrase s t).outLen = BitVec.ofNat 16 t.length := rfl
@[simp] theorem commitPhrase_saltLen (t : Bytes) : (commitPhrase s t).saltLen = s.saltLen := rfl
@[simp] theorem commitPhrase_ck (t : Bytes) : (commitPhrase s t).ck = s.ck := rfl
@[simp] theorem commitPhrase_csn (t : Bytes) : (commitPhrase s t).csn = s.csn := rfl
@[simp] theorem commitPhrase_tblCount (t : Bytes) : (commitPhrase s t).tblCount = s.tblCount := rfl
@[simp] theorem commitPhrase_stageLen (t : Bytes) : (commitPhrase s t).stageLen = s.stageLen := rfl
@[simp] theorem commitPhrase_lookupIdx (t : Bytes) : (commitPhrase s t).lookupIdx = s.lookupIdx := rfl
@[simp] theorem commitPhrase_errIndex (t : Bytes) : (commitPhrase s t).errIndex = s.errIndex := rfl
@[simp] theorem commitPhrase_resValid (t : Bytes) : (commitPhrase s t).resValid = s.resValid := rfl
@[simp] theorem commitPhrase_resReason (t : Bytes) : (commitPhrase s t).resReason = s.resReason := rfl
@[simp] theorem commitPhrase_mem (t : Bytes) : (commitPhrase s t).mem = (commitBuf s .textOut t).mem := rfl
@[simp] theorem commitPhrase_wt (t : Bytes) : (commitPhrase s t).wt = s.wt := rfl
@[simp] theorem commitPhrase_host (t : Bytes) : (commitPhrase s t).host = s.host := rfl
@[simp] theorem commitPhrase_resp (t : Bytes) : (commitPhrase s t).resp = s.resp := rfl
@[simp] theorem commitPhrase_freeCount (t : Bytes) : (commitPhrase s t).freeCount = s.freeCount := rfl
@[simp] theorem commitNorm_seq (m : NormText) : (commitNorm s m).seq = s.seq := rfl
@[simp] theorem commitNorm_cmd (m : NormText) : (commitNorm s m).cmd = s.cmd := rfl
@[simp] theorem commitNorm_irqEn (m : NormText) : (commitNorm s m).irqEn = s.irqEn := rfl
@[simp] theorem commitNorm_irqEnHeld (m : NormText) : (commitNorm s m).irqEnHeld = s.irqEnHeld := rfl
@[simp] theorem commitNorm_done (m : NormText) : (commitNorm s m).done = s.done := rfl
@[simp] theorem commitNorm_err (m : NormText) : (commitNorm s m).err = s.err := rfl
@[simp] theorem commitNorm_tableValid (m : NormText) : (commitNorm s m).tableValid = s.tableValid := rfl
@[simp] theorem commitNorm_tblOver (m : NormText) : (commitNorm s m).tblOver = s.tblOver := rfl
@[simp] theorem commitNorm_tblBad (m : NormText) : (commitNorm s m).tblBad = s.tblBad := rfl
@[simp] theorem commitNorm_overrun (m : NormText) : (commitNorm s m).overrun = s.overrun := rfl
@[simp] theorem commitNorm_busyWr (m : NormText) : (commitNorm s m).busyWr = s.busyWr := rfl
@[simp] theorem commitNorm_doneIrq (m : NormText) : (commitNorm s m).doneIrq = s.doneIrq := rfl
@[simp] theorem commitNorm_entLen (m : NormText) : (commitNorm s m).entLen = s.entLen := rfl
@[simp] theorem commitNorm_wordCount (m : NormText) : (commitNorm s m).wordCount = BitVec.ofNat 16 m.toks.length := rfl
@[simp] theorem commitNorm_textLen (m : NormText) : (commitNorm s m).textLen = s.textLen := rfl
@[simp] theorem commitNorm_passLen (m : NormText) : (commitNorm s m).passLen = s.passLen := rfl
@[simp] theorem commitNorm_normLen (m : NormText) : (commitNorm s m).normLen = BitVec.ofNat 16 m.text.length := rfl
@[simp] theorem commitNorm_outLen (m : NormText) : (commitNorm s m).outLen = s.outLen := rfl
@[simp] theorem commitNorm_saltLen (m : NormText) : (commitNorm s m).saltLen = s.saltLen := rfl
@[simp] theorem commitNorm_ck (m : NormText) : (commitNorm s m).ck = s.ck := rfl
@[simp] theorem commitNorm_csn (m : NormText) : (commitNorm s m).csn = s.csn := rfl
@[simp] theorem commitNorm_tblCount (m : NormText) : (commitNorm s m).tblCount = s.tblCount := rfl
@[simp] theorem commitNorm_stageLen (m : NormText) : (commitNorm s m).stageLen = s.stageLen := rfl
@[simp] theorem commitNorm_lookupIdx (m : NormText) : (commitNorm s m).lookupIdx = s.lookupIdx := rfl
@[simp] theorem commitNorm_errIndex (m : NormText) : (commitNorm s m).errIndex = s.errIndex := rfl
@[simp] theorem commitNorm_resValid (m : NormText) : (commitNorm s m).resValid = s.resValid := rfl
@[simp] theorem commitNorm_resReason (m : NormText) : (commitNorm s m).resReason = s.resReason := rfl
@[simp] theorem commitNorm_mem (m : NormText) : (commitNorm s m).mem = (commitTok (commitBuf s .normBuf m.text) (descriptors 0 m.toks)).mem := rfl
@[simp] theorem commitNorm_wt (m : NormText) : (commitNorm s m).wt = s.wt := rfl
@[simp] theorem commitNorm_host (m : NormText) : (commitNorm s m).host = s.host := rfl
@[simp] theorem commitNorm_resp (m : NormText) : (commitNorm s m).resp = s.resp := rfl
@[simp] theorem commitNorm_freeCount (m : NormText) : (commitNorm s m).freeCount = s.freeCount := rfl
@[simp] theorem commitSalt_seq (v : Bytes) : (commitSalt s v).seq = s.seq := rfl
@[simp] theorem commitSalt_cmd (v : Bytes) : (commitSalt s v).cmd = s.cmd := rfl
@[simp] theorem commitSalt_irqEn (v : Bytes) : (commitSalt s v).irqEn = s.irqEn := rfl
@[simp] theorem commitSalt_irqEnHeld (v : Bytes) : (commitSalt s v).irqEnHeld = s.irqEnHeld := rfl
@[simp] theorem commitSalt_done (v : Bytes) : (commitSalt s v).done = s.done := rfl
@[simp] theorem commitSalt_err (v : Bytes) : (commitSalt s v).err = s.err := rfl
@[simp] theorem commitSalt_tableValid (v : Bytes) : (commitSalt s v).tableValid = s.tableValid := rfl
@[simp] theorem commitSalt_tblOver (v : Bytes) : (commitSalt s v).tblOver = s.tblOver := rfl
@[simp] theorem commitSalt_tblBad (v : Bytes) : (commitSalt s v).tblBad = s.tblBad := rfl
@[simp] theorem commitSalt_overrun (v : Bytes) : (commitSalt s v).overrun = s.overrun := rfl
@[simp] theorem commitSalt_busyWr (v : Bytes) : (commitSalt s v).busyWr = s.busyWr := rfl
@[simp] theorem commitSalt_doneIrq (v : Bytes) : (commitSalt s v).doneIrq = s.doneIrq := rfl
@[simp] theorem commitSalt_entLen (v : Bytes) : (commitSalt s v).entLen = s.entLen := rfl
@[simp] theorem commitSalt_wordCount (v : Bytes) : (commitSalt s v).wordCount = s.wordCount := rfl
@[simp] theorem commitSalt_textLen (v : Bytes) : (commitSalt s v).textLen = s.textLen := rfl
@[simp] theorem commitSalt_passLen (v : Bytes) : (commitSalt s v).passLen = s.passLen := rfl
@[simp] theorem commitSalt_normLen (v : Bytes) : (commitSalt s v).normLen = s.normLen := rfl
@[simp] theorem commitSalt_outLen (v : Bytes) : (commitSalt s v).outLen = s.outLen := rfl
@[simp] theorem commitSalt_saltLen (v : Bytes) : (commitSalt s v).saltLen = BitVec.ofNat 16 v.length := rfl
@[simp] theorem commitSalt_ck (v : Bytes) : (commitSalt s v).ck = s.ck := rfl
@[simp] theorem commitSalt_csn (v : Bytes) : (commitSalt s v).csn = s.csn := rfl
@[simp] theorem commitSalt_tblCount (v : Bytes) : (commitSalt s v).tblCount = s.tblCount := rfl
@[simp] theorem commitSalt_stageLen (v : Bytes) : (commitSalt s v).stageLen = s.stageLen := rfl
@[simp] theorem commitSalt_lookupIdx (v : Bytes) : (commitSalt s v).lookupIdx = s.lookupIdx := rfl
@[simp] theorem commitSalt_errIndex (v : Bytes) : (commitSalt s v).errIndex = s.errIndex := rfl
@[simp] theorem commitSalt_resValid (v : Bytes) : (commitSalt s v).resValid = s.resValid := rfl
@[simp] theorem commitSalt_resReason (v : Bytes) : (commitSalt s v).resReason = s.resReason := rfl
@[simp] theorem commitSalt_mem (v : Bytes) : (commitSalt s v).mem = (commitBuf s .saltBuf v).mem := rfl
@[simp] theorem commitSalt_wt (v : Bytes) : (commitSalt s v).wt = s.wt := rfl
@[simp] theorem commitSalt_host (v : Bytes) : (commitSalt s v).host = s.host := rfl
@[simp] theorem commitSalt_resp (v : Bytes) : (commitSalt s v).resp = s.resp := rfl
@[simp] theorem commitSalt_freeCount (v : Bytes) : (commitSalt s v).freeCount = s.freeCount := rfl

/-! ### CTRL and RESULT as read -/

/-- While IDLE, CTRL shows IRQ_EN (spec/10_state.md R34). -/
@[simp] theorem irqEnShown_idle (h : isBusy s = false) : irqEnShown s = s.irqEn := by simp [irqEnShown, h]

/-- While BUSY, CTRL shows IRQ_EN from before the command (spec/20_memory.md R91). -/
@[simp] theorem irqEnShown_busy (h : isBusy s = true) : irqEnShown s = s.irqEnHeld := by simp [irqEnShown, h]

/-- The fields of RESULT as read, reserved bits 0 (spec/10_state.md R51). -/
theorem resultWord_fields :
    (resultWord s).getLsbD 0 = s.resValid ∧ (resultWord s).extractLsb' 1 3 = 0 ∧
      (resultWord s).extractLsb' 4 4 = s.resReason ∧ (resultWord s).extractLsb' 8 24 = 0 := by
  have key : ∀ (v : Bool) (r : BitVec 4),
      (0#24 ++ r ++ 0#3 ++ BitVec.ofBool v).getLsbD 0 = v ∧ (0#24 ++ r ++ 0#3 ++ BitVec.ofBool v).extractLsb' 1 3 = 0 ∧
        (0#24 ++ r ++ 0#3 ++ BitVec.ofBool v).extractLsb' 4 4 = r ∧
        (0#24 ++ r ++ 0#3 ++ BitVec.ofBool v).extractLsb' 8 24 = 0 := by decide
  exact key s.resValid s.resReason

end Sys2Proof.Machine
end

