-- ==== Sys2Proof/Laws/Memory.lean ====
section
/-! SUPPORT. The laws of canonical sparse storage and of buffer reads and writes: what a read after a store gives, that every
store keeps the canonical form, and that equal contents are equal data. -/

namespace Sys2Proof.Machine

section Sparse
variable {α : Type} (d : α)

@[simp] theorem Sparse.get_nil (k : Nat) : Sparse.get d [] k = d := rfl

theorem Sparse.get_cons (c : Nat × α) (m : List (Nat × α)) (k : Nat) :
    Sparse.get d (c :: m) k = if c.1 = k then c.2 else Sparse.get d m k := rfl

theorem Sparse.get_of_absent {m : List (Nat × α)} {k : Nat} (h : ∀ c ∈ m, c.1 ≠ k) : Sparse.get d m k = d := by
  induction m with
  | nil => rfl
  | cons c m ih => simp [Sparse.get_cons, h c (by simp), ih (fun x hx => h x (by simp [hx]))]

theorem Sparse.get_append_absent {m m' : List (Nat × α)} {k : Nat} (h : ∀ c ∈ m, c.1 ≠ k) :
    Sparse.get d (m ++ m') k = Sparse.get d m' k := by
  induction m with
  | nil => rfl
  | cons c m ih => simp [Sparse.get_cons, h c (by simp), ih (fun x hx => h x (by simp [hx]))]

theorem Sparse.get_append_right_absent {m m' : List (Nat × α)} {k : Nat} (h : ∀ c ∈ m', c.1 ≠ k) :
    Sparse.get d (m ++ m') k = Sparse.get d m k := by
  induction m with
  | nil => exact Sparse.get_of_absent d h
  | cons c m ih => simp [Sparse.get_cons, ih]

theorem Sparse.get_filter {m : List (Nat × α)} {k : Nat} (p : Nat → Bool) (hp : p k = true) :
    Sparse.get d (m.filter (fun c => p c.1)) k = Sparse.get d m k := by
  induction m with
  | nil => rfl
  | cons c m ih =>
    by_cases hc : p c.1 = true
    · simp [hc, Sparse.get_cons, ih]
    · have : c.1 ≠ k := fun e => hc (e ▸ hp)
      simp [hc, Sparse.get_cons, ih, this]

variable [DecidableEq α]

theorem Sparse.mem_cells {a : Nat} {vs : List α} {c : Nat × α} (h : c ∈ Sparse.cells d a vs) :
    a ≤ c.1 ∧ c.1 < a + vs.length ∧ c.2 ∈ vs ∧ c.2 ≠ d := by
  induction vs generalizing a with
  | nil => simp [Sparse.cells] at h
  | cons v vs ih =>
    simp only [Sparse.cells] at h
    split at h
    · have hc := ih h
      exact ⟨by omega, by simp only [List.length_cons]; omega, List.mem_cons_of_mem _ hc.2.2.1, hc.2.2.2⟩
    · rcases List.mem_cons.1 h with rfl | h
      · simp_all
      · have hc := ih h
        exact ⟨by omega, by simp only [List.length_cons]; omega, List.mem_cons_of_mem _ hc.2.2.1, hc.2.2.2⟩

theorem Sparse.get_cells (a : Nat) (vs : List α) (k : Nat) :
    Sparse.get d (Sparse.cells d a vs) k = if a ≤ k then vs.getD (k - a) d else d := by
  induction vs generalizing a with
  | nil => simp [Sparse.cells]
  | cons v vs ih =>
    rcases Nat.lt_trichotomy k a with h | rfl | h
    · rw [if_neg (by omega)]
      exact Sparse.get_of_absent d (fun c hc => by have := Sparse.mem_cells d hc; omega)
    · by_cases hv : v = d <;> simp [Sparse.cells, hv, Sparse.get_cons, ih]
    · obtain ⟨j, rfl⟩ : ∃ j, k = a + 1 + j := ⟨k - a - 1, by omega⟩
      have e : a + 1 + j - a = j + 1 := by omega
      by_cases hv : v = d
      · simp [Sparse.cells, hv, ih, e, show a ≤ a + 1 + j by omega]
      · simp [Sparse.cells, hv, Sparse.get_cons, ih, e, show a ≤ a + 1 + j by omega, show a ≠ a + 1 + j by omega]

/-- A read after a store: inside the stored keys the values, elsewhere what was there. -/
theorem Sparse.get_store (m : List (Nat × α)) (a n : Nat) (vs : List α) (k : Nat) :
    Sparse.get d (Sparse.store d m a n vs) k =
      if a ≤ k ∧ k < a + n then vs.getD (k - a) d else Sparse.get d m k := by
  have hcells : ∀ c ∈ Sparse.cells d a (vs.take n), a ≤ c.1 ∧ c.1 < a + n := fun c hc => by
    have h := Sparse.mem_cells d hc
    have := List.length_take_le n vs
    omega
  unfold Sparse.store
  rcases Nat.lt_or_ge k a with h | h
  · rw [if_neg (by omega), Sparse.get_append_right_absent, Sparse.get_append_right_absent]
    · exact Sparse.get_filter d (fun x => decide (x < a)) (by simpa using h)
    · intro c hc; have := hcells c hc; omega
    · intro c hc; simp at hc; omega
  · rw [List.append_assoc, Sparse.get_append_absent]
    · rcases Nat.lt_or_ge k (a + n) with h' | h'
      · rw [if_pos ⟨h, h'⟩, Sparse.get_append_right_absent, Sparse.get_cells, if_pos h]
        · simp [List.getD_eq_getElem?_getD, show k - a < n by omega]
        · intro c hc; simp at hc; omega
      · rw [if_neg (by omega), Sparse.get_append_absent]
        · exact Sparse.get_filter d (fun x => decide (a + n ≤ x)) (by simpa using h')
        · intro c hc; have := hcells c hc; omega
    · intro c hc; simp at hc; omega

theorem Sparse.cells_wf (a : Nat) (vs : List α) : Sparse.wf d (Sparse.cells d a vs) := by
  refine ⟨?_, fun c hc => (Sparse.mem_cells d hc).2.2.2⟩
  induction vs generalizing a with
  | nil => simp [Sparse.cells]
  | cons v vs ih =>
    simp only [Sparse.cells]
    split
    · exact ih _
    · refine List.pairwise_cons.2 ⟨fun c hc => ?_, ih _⟩
      have := Sparse.mem_cells d hc
      simp only; omega

/-- What a store lists: a stored value under a stored key, or what was listed outside the stored keys. -/
theorem Sparse.mem_store {m : List (Nat × α)} {a n : Nat} {vs : List α} {c : Nat × α} (h : c ∈ Sparse.store d m a n vs) :
    (a ≤ c.1 ∧ c.1 < a + n ∧ c.2 ∈ vs ∧ c.2 ≠ d) ∨ (c ∈ m ∧ ¬(a ≤ c.1 ∧ c.1 < a + n)) := by
  simp only [Sparse.store, List.mem_append, List.mem_filter, decide_eq_true_eq] at h
  rcases h with (⟨h, h'⟩ | h) | ⟨h, h'⟩
  · exact .inr ⟨h, by omega⟩
  · have := Sparse.mem_cells d h
    have hl := List.length_take_le n vs
    exact .inl ⟨this.1, by omega, List.mem_of_mem_take this.2.2.1, this.2.2.2⟩
  · exact .inr ⟨h, by omega⟩

/-- Every store keeps the canonical form. -/
theorem Sparse.store_wf {m : List (Nat × α)} (h : Sparse.wf d m) (a n : Nat) (vs : List α) :
    Sparse.wf d (Sparse.store d m a n vs) := by
  have hc := Sparse.cells_wf d a (vs.take n)
  have key : ∀ c ∈ Sparse.cells d a (vs.take n), a ≤ c.1 ∧ c.1 < a + n := fun c hc => by
    have := Sparse.mem_cells d hc
    have := List.length_take_le n vs
    omega
  refine ⟨?_, fun c hc => ?_⟩
  · simp only [Sparse.store, List.pairwise_append, List.mem_append, List.mem_filter, decide_eq_true_eq]
    refine ⟨⟨h.1.filter _, hc.1, fun x hx y hy => ?_⟩, h.1.filter _, fun x hx y hy => ?_⟩
    · have := key y hy; omega
    · rcases hx with hx | hx
      · omega
      · have := key x hx; omega
  · rcases Sparse.mem_store d hc with h' | h'
    · exact h'.2.2.2
    · exact h.2 c h'.1

theorem Sparse.get_of_mem {m : List (Nat × α)} (h : Sparse.wf d m) {c : Nat × α} (hc : c ∈ m) :
    Sparse.get d m c.1 = c.2 := by
  induction m with
  | nil => simp at hc
  | cons x m ih =>
    have hp := List.pairwise_cons.1 h.1
    rcases List.mem_cons.1 hc with rfl | hc
    · simp [Sparse.get_cons]
    · have hlt := hp.1 c hc
      rw [Sparse.get_cons, if_neg (by omega)]
      exact ih ⟨hp.2, fun y hy => h.2 y (by simp [hy])⟩ hc

omit [DecidableEq α] in
theorem Sparse.mem_of_get {m : List (Nat × α)} {k : Nat} (h : Sparse.get d m k ≠ d) : (k, Sparse.get d m k) ∈ m := by
  induction m with
  | nil => simp at h
  | cons x m ih =>
    rw [Sparse.get_cons] at h ⊢
    split at h
    · rename_i e; subst e; simp
    · rename_i e
      simp [e, ih h]

/-- Equal contents are equal data: two canonical lists that read the same at every key are the same list. -/
theorem Sparse.ext {m m' : List (Nat × α)} (h : Sparse.wf d m) (h' : Sparse.wf d m')
    (e : ∀ k, Sparse.get d m k = Sparse.get d m' k) : m = m' := by
  have mem : ∀ c, c ∈ m ↔ c ∈ m' := by
    intro c
    constructor <;> intro hc
    · have g := Sparse.get_of_mem d h hc
      have := Sparse.mem_of_get d (m := m') (k := c.1) (by rw [← e, g]; exact h.2 c hc)
      rwa [← e, g] at this
    · have g := Sparse.get_of_mem d h' hc
      have := Sparse.mem_of_get d (m := m) (k := c.1) (by rw [e, g]; exact h'.2 c hc)
      rwa [e, g] at this
  have nd : ∀ {l : List (Nat × α)}, l.Pairwise (fun x y => x.1 < y.1) → l.Nodup := fun hl =>
    hl.imp (fun hxy heq => by subst heq; omega)
  have perm : m.Perm m' := (List.perm_ext_iff_of_nodup (nd h.1) (nd h'.1)).2 mem
  exact perm.eq_of_pairwise (fun x y _ _ h1 h2 => by omega) h.1 h'.1

end Sparse

variable (s : State)

/-! ### Bytes -/

/-- A byte after a store of bytes. -/
theorem readByte_storeBytes (a n : Nat) (vs : Bytes) (k : Nat) :
    readByte (storeBytes s a n vs) k = if a ≤ k ∧ k < a + n then vs.getD (k - a) 0 else readByte s k :=
  Sparse.get_store 0 s.mem a n vs k

/-- A byte after a buffer commit. -/
theorem readByte_commitBuf (b : Buf) (vs : Bytes) (k : Nat) :
    readByte (commitBuf s b vs) k = if b.holds k then vs.getD (k - b.base) 0 else readByte s k :=
  readByte_storeBytes s b.base b.size vs k

/-- Reads depend on the memory alone. -/
theorem readByte_congr {s t : State} (h : s.mem = t.mem) (k : Nat) : readByte s k = readByte t k := by
  simp [readByte, h]

theorem bytesAt_congr {s t : State} (h : s.mem = t.mem) (a n : Nat) : bytesAt s a n = bytesAt t a n := by
  simp [bytesAt, readByte, h]

@[simp] theorem bytesAt_length (a n : Nat) : (bytesAt s a n).length = n := by simp [bytesAt]

@[simp] theorem bufBytes_length (b : Buf) (n : Nat) : (bufBytes s b n).length = n := bytesAt_length s _ n

theorem bytesAt_getD (a n i : Nat) : (bytesAt s a n).getD i 0 = if i < n then readByte s (a + i) else 0 := by
  by_cases h : i < n <;> simp [bytesAt, List.getD_eq_getElem?_getD, h]

theorem bytesAt_eq {s t : State} {a n : Nat} (h : ∀ i < n, readByte s (a + i) = readByte t (a + i)) :
    bytesAt s a n = bytesAt t a n :=
  List.map_congr_left (fun i hi => h i (by simpa using hi))

/-- What a store wrote is read back. -/
theorem bytesAt_storeBytes (a n : Nat) (vs : Bytes) (h : vs.length ≤ n) :
    bytesAt (storeBytes s a n vs) a vs.length = vs := by
  apply List.ext_getElem
  · simp
  · intro i h1 h2
    have hi : i < vs.length := h2
    simp [bytesAt, readByte_storeBytes, show i < n by omega, List.getElem?_eq_getElem hi]

/-- What a commit wrote is read back. -/
theorem bufBytes_commitBuf (b : Buf) (vs : Bytes) (h : vs.length ≤ b.size) :
    bufBytes (commitBuf s b vs) b vs.length = vs :=
  bytesAt_storeBytes s b.base b.size vs h

/-- Two buffers share no offset (R55). -/
theorem Buf.disjoint {b b' : Buf} (h : b ≠ b') (a : Nat) : ¬(b.holds a ∧ b'.holds a) := by
  revert h
  cases b <;> cases b' <;>
    simp [Buf.holds, Buf.base, Buf.size, Config.wordMax, Config.tokMax, Config.textMax, Config.outMax, Config.passMax,
      Config.saltMax, Config.normMax] <;> omega

theorem readByte_commitBuf_other {b b' : Buf} (h : b ≠ b') (vs : Bytes) {a : Nat} (ha : b'.holds a) :
    readByte (commitBuf s b vs) a = readByte s a := by
  rw [readByte_commitBuf, if_neg (fun hb => Buf.disjoint h a ⟨hb, ha⟩)]

/-- A commit to one buffer leaves the others alone. -/
theorem bytesAt_commitBuf_other {b b' : Buf} (h : b ≠ b') (vs : Bytes) {a n : Nat} (h1 : b'.base ≤ a)
    (h2 : a + n ≤ b'.base + b'.size) : bytesAt (commitBuf s b vs) a n = bytesAt s a n :=
  bytesAt_eq (fun i hi => readByte_commitBuf_other s h vs ⟨by omega, by omega⟩)

theorem bufBytes_commitBuf_other {b b' : Buf} (h : b ≠ b') (vs : Bytes) {n : Nat} (hn : n ≤ b'.size) :
    bufBytes (commitBuf s b vs) b' n = bufBytes s b' n :=
  bytesAt_commitBuf_other s h vs (Nat.le_refl _) (by omega)

/-- Every store of bytes keeps the canonical form of memory. -/
theorem storeBytes_wf (h : Memory.wf s.mem) (a n : Nat) (vs : Bytes) : Memory.wf (storeBytes s a n vs).mem :=
  Sparse.store_wf 0 h a n vs

/-- Every commit keeps the canonical form of memory. -/
theorem commitBuf_wf (h : Memory.wf s.mem) (b : Buf) (vs : Bytes) : Memory.wf (commitBuf s b vs).mem :=
  storeBytes_wf s h _ _ vs

/-- Reset memory is in canonical form. -/
theorem reset_memory_wf : Memory.wf State.reset.mem := by decide

/-! ### Byte order -/

@[simp] theorem leBytes_length (n v : Nat) : (leBytes n v).length = n := by
  induction n generalizing v with
  | zero => rfl
  | succ n ih => simp [leBytes, ih]

/-- Little-endian bytes carry the value, cut to their width. -/
@[simp] theorem leVal_leBytes (n v : Nat) : leVal (leBytes n v) = v % 256 ^ n := by
  induction n generalizing v with
  | zero => simp [leBytes, leVal, Nat.mod_one]
  | succ n ih =>
    rw [leBytes, leVal, ih, BitVec.toNat_ofNat]
    have e : v % 256 ^ (n + 1) = v % 256 + 256 * (v / 256 % 256 ^ n) := by
      rw [Nat.pow_succ', Nat.mod_mul]
    rw [e]

theorem leVal_lt (bs : Bytes) : leVal bs < 256 ^ bs.length := by
  induction bs with
  | nil => simp [leVal]
  | cons b bs ih =>
    simp only [leVal, List.length_cons, Nat.pow_succ]
    have := b.isLt
    omega

theorem half_lt (j : Nat) : half s j < 65536 := by
  have := leVal_lt (bytesAt s (Buf.idxBuf.base + 2 * j) 2)
  simpa [half] using this

/-- The halfwords of IDX_BUF after the indices `vs` are committed (R56). -/
theorem half_commitIdx (vs : List Nat) (j : Nat) (hj : j < 24) :
    half (commitIdx s vs) j = vs.getD j 0 % 65536 := by
  have key : ∀ k, (vs.flatMap (leBytes 2)).getD (2 * k) 0 = BitVec.ofNat 8 (vs.getD k 0) ∧
      (vs.flatMap (leBytes 2)).getD (2 * k + 1) 0 = BitVec.ofNat 8 (vs.getD k 0 / 256) := by
    induction vs with
    | nil => intro k; simp
    | cons v vs ih =>
      intro k
      cases k with
      | zero => simp [leBytes]
      | succ k =>
        have := ih k
        simpa [leBytes, show 2 * (k + 1) = 2 * k + 1 + 1 by omega, List.getD_eq_getElem?_getD] using this
  have r : ∀ i, i < 48 → readByte (commitIdx s vs) (Buf.idxBuf.base + i) = (vs.flatMap (leBytes 2)).getD i 0 := fun i hi => by
    rw [commitIdx, readByte_commitBuf, if_pos]
    · simp
    · constructor
      · omega
      · simp only [Buf.size]; omega
  have e1 := r (2 * j) (by omega)
  have e2 := r (2 * j + 1) (by omega)
  rw [(key j).1] at e1
  rw [(key j).2] at e2
  simp only [half, bytesAt, List.range_succ, List.range_zero, List.nil_append, List.map_cons, List.map_nil,
    Nat.add_zero, List.cons_append, leVal, Nat.add_assoc] at *
  rw [e1, e2]
  simp only [BitVec.toNat_ofNat]
  omega

end Sys2Proof.Machine
end

