-- ==== Sys2Proof/Laws/Port.lean ====
section
/-! SUPPORT. The host port, said once: where an access lands, what a write can do, what a cycle of the outside world can do. -/

namespace Sys2Proof.Machine

/-! ### Where an access lands (spec/20_memory.md R85-R87) -/

/-- A buffer that holds all n bytes is the one found: buffers share no offset. -/
theorem bufAt_some {off n : Nat} (hn : 0 < n) {b : Buf} :
    bufAt off n = some b ↔ b.base ≤ off ∧ off + n ≤ b.base + b.size := by
  constructor
  · intro h
    simpa using List.find?_some h
  · intro h
    cases hf : bufAt off n with
    | none =>
      have := List.find?_eq_none.1 hf b (by cases b <;> decide)
      simp at this
      omega
    | some b' =>
      have h' : b'.base ≤ off ∧ off + n ≤ b'.base + b'.size := by simpa using List.find?_some hf
      by_cases e : b = b'
      · rw [e]
      · exact absurd ⟨⟨h.1, by omega⟩, ⟨h'.1, by omega⟩⟩ (Buf.disjoint e off)

theorem bufAt_none {off n : Nat} : bufAt off n = none ↔ ∀ b : Buf, ¬(b.base ≤ off ∧ off + n ≤ b.base + b.size) := by
  constructor
  · intro h b hb
    have := List.find?_eq_none.1 h b (by cases b <;> decide)
    simp at this
    omega
  · intro h
    exact List.find?_eq_none.2 (fun b _ => by simpa using h b)

/-- Every buffer starts above the register block. -/
theorem Buf.base_ge (b : Buf) : regBlockEnd ≤ b.base := by cases b <;> decide

/-- Every buffer starts and ends at a multiple of 4, so aligned accesses that start in it stay in it. -/
theorem Buf.aligned (b : Buf) : b.base % 4 = 0 ∧ b.size % 4 = 0 := by cases b <;> decide

/-- The offset of a register finds that register (spec/10_state.md R32). -/
theorem regAt_offset (r : Reg) : regAt r.offset = some r := by cases r <;> decide

theorem target_reg (r : Reg) : target r.offset 4 = some (.inl (some r)) := by cases r <;> decide

theorem target_buf {b : Buf} {off n : Nat} (hn : 0 < n) (ha : off % n = 0) (h1 : b.base ≤ off)
    (h2 : off + n ≤ b.base + b.size) : target off n = some (.inr b) := by
  have := b.base_ge
  rw [target, if_neg (by omega), if_pos ha, (bufAt_some hn).2 ⟨h1, h2⟩]
  rfl

/-! ### Writes -/

@[simp] theorem whenIdle_idle {s t : State} (h : isBusy s = false) : whenIdle s t = t := by simp [whenIdle, h]

@[simp] theorem whenIdle_busy {s t : State} (h : isBusy s = true) : whenIdle s t = { s with busyWr := true } := by
  simp [whenIdle, h]

/-- What a write can do, said once: nothing, a register's write, or a buffer's write inside the buffer. -/
theorem memWrite_cases (s : State) (off n : Nat) (hn : 0 < n) (v : Word) :
    (memWrite s off n v).1 = s ∨
    (∃ r : Reg, off = r.offset ∧ n = 4 ∧ (memWrite s off n v).1 = writeReg s r v) ∨
    (∃ b : Buf, b.isRw = true ∧ b.base ≤ off ∧ off + n ≤ b.base + b.size ∧
      (memWrite s off n v).1 = whenIdle s (storeBytes s off n (leBytes n v.toNat))) := by
  unfold memWrite
  split
  · exact .inl rfl
  · exact .inl rfl
  · rename_i r h
    refine .inr (.inl ⟨r, ?_, ?_, rfl⟩)
    · unfold target at h
      split at h
      · split at h
        · have := List.find?_some (by simpa using h : regAt off = some r)
          exact (beq_iff_eq.1 this).symm
        · cases h
      · split at h
        · cases hb : bufAt off n <;> rw [hb] at h <;> cases h
        · cases h
    · unfold target at h
      split at h
      · split at h
        · rename_i h4; exact h4.1
        · cases h
      · split at h
        · cases hb : bufAt off n <;> rw [hb] at h <;> cases h
        · cases h
  · rename_i b h
    unfold target at h
    split at h
    · split at h <;> cases h
    · split at h
      · cases hb : bufAt off n with
        | none => rw [hb] at h; cases h
        | some b' =>
          rw [hb] at h
          cases h
          have hin := (bufAt_some hn).1 hb
          unfold writeBuf
          cases hrw : b.isRw with
          | false => exact .inl (by simp)
          | true => exact .inr (.inr ⟨b, hrw, hin.1, hin.2, by simp⟩)
      · cases h

theorem Width.bytes_pos (n : Width) : 0 < n.bytes := by cases n <;> decide

/-- What a register write can do, said once: reset the block, accept a command, or change control bits and operand fields
only. -/
theorem writeReg_cases (s : State) (r : Reg) (v : Word) :
    (r = .ctrl ∧ v.getLsbD 1 = true ∧ writeReg s r v = resetBlock s) ∨
    (r = .cmd ∧ isBusy s = false ∧ writeReg s r v = accept s v) ∨
    (∃ ie ov bw di el wc tl pl sl li, writeReg s r v =
      { s with irqEn := ie, overrun := ov, busyWr := bw, doneIrq := di, entLen := el, wordCount := wc, textLen := tl,
               passLen := pl, stageLen := sl, lookupIdx := li }) := by
  cases r <;> simp only [writeReg]
  case ctrl =>
    by_cases h : v.getLsbD 1 = true
    · exact .inl ⟨trivial, h, by simp [h]⟩
    · exact .inr (.inr ⟨v.getLsbD 0, _, _, _, _, _, _, _, _, _, by rw [if_neg h]⟩)
  case cmd =>
    cases h : isBusy s
    · exact .inr (.inl ⟨trivial, rfl, by simp⟩)
    · exact .inr (.inr ⟨s.irqEn, true, s.busyWr, s.doneIrq, s.entLen, s.wordCount, s.textLen, s.passLen, s.stageLen, s.lookupIdx, rfl⟩)
  case errflags => exact .inr (.inr ⟨_, _, _, _, _, _, _, _, _, _, rfl⟩)
  case irqStatus => exact .inr (.inr ⟨_, _, _, _, _, _, _, _, _, _, rfl⟩)
  all_goals first
    | exact .inr (.inr ⟨_, _, _, _, _, _, _, _, _, _, rfl⟩)
    | (cases h : isBusy s
       · simp only [whenIdle_idle h]; exact .inr (.inr ⟨_, _, _, _, _, _, _, _, _, _, rfl⟩)
       · simp only [whenIdle_busy h]; exact .inr (.inr ⟨_, _, _, _, _, _, _, _, _, _, rfl⟩))

/-! ### One cycle of the outside world -/

/-- RST is sampled asserted exactly where an edge of RST stands at the head of the queue. -/
theorem rstSampled_iff {s : State} : rstSampled s = true ↔ ∃ a es, s.host = .rst a :: es := by
  unfold rstSampled
  split
  · rename_i h; simp [h]
  · rename_i e es h
    cases e <;> simp [h, HostEvent.isRst]

theorem rstSampled_eq_false {s : State} : rstSampled s = false ↔ ∀ a es, s.host ≠ .rst a :: es := by
  rw [← Bool.not_eq_true, rstSampled_iff]
  simp

/-- An edge of RST resets the block (spec/70_reset_and_hazards.md R300). -/
theorem hostCycle_rst {s : State} {a : Option Access} {es : List HostEvent} (h : s.host = .rst a :: es) :
    ∃ r k, hostCycle s = { State.reset with host := es, resp := r, freeCount := k } ∧ (a = none → r = s.resp) := by
  unfold hostCycle
  rw [h]
  cases a with
  | none => exact ⟨_, _, rfl, fun _ => rfl⟩
  | some a => exact ⟨_, _, rfl, fun h => by cases h⟩

/-- What a cycle can do, said once: only the host's queue and the port's answer change; or a write is performed; or the block is
reset. -/
theorem hostCycle_cases (s : State) :
    (∃ h r, hostCycle s = { s with host := h, resp := r }) ∨
    (∃ off n v es r, s.host = .access (.write off n v) :: es ∧
      hostCycle s = { (memWrite { s with host := es } off.toNat n.bytes v).1 with resp := r }) ∨
    (∃ a es r k, s.host = .rst a :: es ∧ hostCycle s = { State.reset with host := es, resp := r, freeCount := k }) := by
  unfold hostCycle
  split
  · exact .inl ⟨_, _, rfl⟩
  · exact .inl ⟨_, _, rfl⟩
  · rename_i a es hs
    cases a with
    | read off n => exact .inl ⟨_, _, rfl⟩
    | write off n v => exact .inr (.inl ⟨off, n, v, es, _, hs, rfl⟩)
  · rename_i es hs
    unfold pollStatus
    simp only
    split
    · exact .inl ⟨_, _, rfl⟩
    · exact .inl ⟨_, _, rfl⟩
  · split
    · exact .inl ⟨_, _, rfl⟩
    · exact .inl ⟨_, _, rfl⟩
  · rename_i a es hs
    cases a with
    | none => exact .inr (.inr ⟨none, es, _, _, hs, rfl⟩)
    | some a => exact .inr (.inr ⟨some a, es, _, _, hs, rfl⟩)

end Sys2Proof.Machine
end

