-- ==== Sys2Proof/Laws/Table.lean ====
section
/-! SUPPORT. The word table: the reverse index is the lowest matching index (spec/10_state.md R69), and what the lookups of a
phrase answer (spec/43_wordtable.md R197, R198). -/

namespace Sys2Proof.Machine

/-- The table's canonical form: rising indices below 2048, no empty entry listed. -/
abbrev Table.wf (wt : List (Nat × Bytes)) : Prop := Sparse.wf [] wt ∧ ∀ e ∈ wt, e.1 < Config.tableSize

theorem reset_table_wf : Table.wf State.reset.wt := by decide

/-- Writing one entry keeps the canonical form. -/
theorem setEntry_wf {s : State} (h : Table.wf s.wt) (n : Nat) (hn : n < Config.tableSize) (w : Bytes) :
    Table.wf (setEntry s n w).wt := by
  refine ⟨Sparse.store_wf [] h.1 n 1 [w], fun e he => ?_⟩
  rcases Sparse.mem_store [] he with h' | h'
  · omega
  · exact h.2 e h'.1

/-- The entries after one is written. -/
theorem wtEntry_setEntry (s : State) (n : Nat) (w : Bytes) (i : Nat) :
    wtEntry (setEntry s n w).wt i = if i = n then w else wtEntry s.wt i := by
  simp only [wtEntry, setEntry_wt, Sparse.get_store]
  by_cases h : i = n
  · subst h; simp
  · rw [if_neg (by omega), if_neg h]

theorem firstEmpty_spec (wt : List (Nat × Bytes)) (i : Nat) (hs : wt.Pairwise (fun x y => x.1 < y.1))
    (hb : ∀ e ∈ wt, e.1 < Config.tableSize ∧ e.2 ≠ []) (hi : ∀ e ∈ wt, i ≤ e.1) :
    match firstEmpty wt i with
    | some k => i ≤ k ∧ k < Config.tableSize ∧ wtEntry wt k = [] ∧ ∀ j, i ≤ j → j < k → wtEntry wt j ≠ []
    | none => ∀ j, i ≤ j → j < Config.tableSize → wtEntry wt j ≠ [] := by
  induction wt generalizing i with
  | nil =>
    simp only [firstEmpty]
    split
    · rename_i k hk
      split at hk
      · cases hk
        rename_i h
        exact ⟨by omega, h, rfl, fun j h1 h2 => by omega⟩
      · cases hk
    · rename_i hk
      split at hk
      · cases hk
      · intro j h1 h2; omega
  | cons e wt ih =>
    have hp := List.pairwise_cons.1 hs
    have he := hb e (by simp)
    have hie := hi e (by simp)
    simp only [firstEmpty]
    split
    · rename_i k hk
      split at hk
      · cases hk
        rename_i h
        refine ⟨by omega, by omega, ?_, fun j h1 h2 => by omega⟩
        apply Sparse.get_of_absent
        intro c hc
        rcases List.mem_cons.1 hc with rfl | hc
        · omega
        · have := hp.1 c hc; omega
      · rename_i h
        have hei : e.1 = i := by omega
        have := ih (i + 1) hp.2 (fun c hc => hb c (by simp [hc])) (fun c hc => by have := hp.1 c hc; omega)
        rw [hk] at this
        obtain ⟨a, b, c, d⟩ := this
        refine ⟨by omega, b, ?_, fun j h1 h2 => ?_⟩
        · rw [wtEntry, Sparse.get_cons, if_neg (by omega)]; exact c
        · rw [wtEntry, Sparse.get_cons]
          split
          · exact he.2
          · exact d j (by omega) h2
    · rename_i hk
      split at hk
      · cases hk
      · rename_i h
        have hei : e.1 = i := by omega
        have := ih (i + 1) hp.2 (fun c hc => hb c (by simp [hc])) (fun c hc => by have := hp.1 c hc; omega)
        rw [hk] at this
        intro j h1 h2
        rw [wtEntry, Sparse.get_cons]
        split
        · exact he.2
        · exact this j (by omega) h2

/-- `RIDX(w)` answers the lowest index below 2048 whose entry is w (R69). -/
theorem ridx_some {wt : List (Nat × Bytes)} (h : Table.wf wt) {w : Bytes} {i : Nat} (hr : ridx wt w = some i) :
    i < Config.tableSize ∧ wtEntry wt i = w ∧ ∀ j < i, wtEntry wt j ≠ w := by
  unfold ridx at hr
  split at hr
  · rename_i hw
    have := firstEmpty_spec wt 0 h.1.1 (fun e he => ⟨h.2 e he, h.1.2 e he⟩) (by simp)
    rw [hr] at this
    subst hw
    exact ⟨this.2.1, this.2.2.1, fun j hj => this.2.2.2 j (by omega) hj⟩
  · rename_i hw
    obtain ⟨e, he, rfl⟩ := Option.map_eq_some_iff.1 hr
    have hm := List.mem_of_find?_eq_some he
    have hv : e.2 = w := by simpa using List.find?_some he
    refine ⟨h.2 e hm, by rw [wtEntry, Sparse.get_of_mem [] h.1 hm, hv], fun j hj hjw => ?_⟩
    have hjm := Sparse.mem_of_get [] (m := wt) (k := j) (by rw [wtEntry] at hjw; rw [hjw]; exact hw)
    rw [wtEntry] at hjw
    rw [hjw] at hjm
    obtain ⟨hp, pre, post, hl, hpre⟩ := List.find?_eq_some_iff_append.1 he
    rw [hl] at hjm
    rcases List.mem_append.1 hjm with hx | hx
    · have := hpre _ hx; simp at this
    · rcases List.mem_cons.1 hx with hx | hx
      · rw [← hx] at hj; simp at hj
      · have hs := h.1.1
        rw [hl] at hs
        have := (List.pairwise_cons.1 (List.pairwise_append.1 hs).2.1).1 _ hx
        simp only at this
        omega

/-- `RIDX(w) = ⊥` exactly where no entry equals w (R69). -/
theorem ridx_none {wt : List (Nat × Bytes)} (h : Table.wf wt) {w : Bytes} (hr : ridx wt w = none) :
    ∀ j < Config.tableSize, wtEntry wt j ≠ w := by
  unfold ridx at hr
  split at hr
  · rename_i hw
    have := firstEmpty_spec wt 0 h.1.1 (fun e he => ⟨h.2 e he, h.1.2 e he⟩) (by simp)
    rw [hr] at this
    subst hw
    exact fun j hj => this j (by omega) hj
  · rename_i hw
    intro j hj hjw
    have hjm := Sparse.mem_of_get [] (m := wt) (k := j) (by rw [wtEntry] at hjw; rw [hjw]; exact hw)
    rw [wtEntry] at hjw
    rw [hjw] at hjm
    have := List.find?_eq_none.1 (Option.map_eq_none_iff.1 hr) _ hjm
    simp at this

/-- The converse of `ridx_some` (R69). -/
theorem ridx_eq_some {wt : List (Nat × Bytes)} (h : Table.wf wt) {w : Bytes} {i : Nat} (hi : i < Config.tableSize)
    (he : wtEntry wt i = w) (hl : ∀ j < i, wtEntry wt j ≠ w) : ridx wt w = some i := by
  cases hr : ridx wt w with
  | none => exact absurd he (ridx_none h hr i hi)
  | some k =>
    obtain ⟨-, h2, h3⟩ := ridx_some h hr
    have h4 : ¬k < i := fun hk => hl k hk h2
    have h5 : ¬i < k := fun hk => h3 i hk he
    rw [show k = i by omega]

/-- The converse of `ridx_none` (R69). -/
theorem ridx_eq_none {wt : List (Nat × Bytes)} (h : Table.wf wt) {w : Bytes}
    (hn : ∀ j < Config.tableSize, wtEntry wt j ≠ w) : ridx wt w = none := by
  cases hr : ridx wt w with
  | none => rfl
  | some k => exact absurd (ridx_some h hr).2.1 (hn k (ridx_some h hr).1)

/-! ### Lookups of a sequence -/

/-- Positions, from `j` on, of a list of indices that are all in range: the check passes (R197). -/
theorem checkRange_ok {v : List Nat} {j : Nat} {u : Unit} : checkRange v j = .ok u ↔ ∀ x ∈ v, x ≤ 2047 := by
  induction v generalizing j with
  | nil => simp [checkRange]
  | cons x v ih =>
    simp only [checkRange]
    split
    · rename_i h
      constructor
      · intro e; cases e
      · intro e; have := e x (by simp); omega
    · rename_i h
      rw [ih]
      simp only [List.mem_cons, forall_eq_or_imp]
      exact ⟨fun e => ⟨by omega, e⟩, fun e => e.2⟩

/-- The check fails at the first index above 2047 (R197). -/
theorem checkRange_error {v : List Nat} {j : Nat} {r : Raise} :
    checkRange v j = .error r ↔
      ∃ k, ∃ hk : k < v.length, 2047 < v[k] ∧ (∀ i, ∀ hi : i < k, v[i] ≤ 2047) ∧ r = ⟨.unknownWord, BitVec.ofNat 16 (j + k)⟩ := by
  induction v generalizing j with
  | nil => simp [checkRange]
  | cons x v ih =>
    simp only [checkRange]
    split
    · rename_i h
      constructor
      · intro e
        cases e
        exact ⟨0, by simp, h, fun i hi => by omega, rfl⟩
      · rintro ⟨k, hk, h1, h2, rfl⟩
        cases k with
        | zero => rfl
        | succ k => have := h2 0 (by omega); simp only [List.getElem_cons_zero] at this; omega
    · rename_i h
      rw [ih]
      constructor
      · rintro ⟨k, hk, h1, h2, rfl⟩
        refine ⟨k + 1, by simpa using hk, h1, fun i hi => ?_, by rw [show j + 1 + k = j + (k + 1) by omega]⟩
        cases i with
        | zero => simp only [List.getElem_cons_zero]; omega
        | succ i => exact h2 i (by omega)
      · rintro ⟨k, hk, h1, h2, rfl⟩
        cases k with
        | zero => simp only [List.getElem_cons_zero] at h1; omega
        | succ k =>
          exact ⟨k, by simpa using hk, h1, fun i hi => h2 (i + 1) (by omega), by rw [show j + 1 + k = j + (k + 1) by omega]⟩

/-- The lookups of a phrase answer one index per token, each the RIDX of its token (R198). -/
theorem lookupAll_ok {wt : List (Nat × Bytes)} {ws : List Bytes} {j : Nat} {v : List Nat} :
    lookupAll wt ws j = .ok v ↔ ws.map (ridx wt) = v.map some := by
  induction ws generalizing j v with
  | nil => cases v <;> simp [lookupAll]
  | cons w ws ih =>
    simp only [lookupAll]
    cases hr : ridx wt w with
    | none => cases v <;> simp [failAt, hr]
    | some i =>
      simp only [List.map_cons, hr]
      cases hl : lookupAll wt ws (j + 1) with
      | error e =>
        cases v with
        | nil => simp [Except.map]
        | cons x v =>
          have := @ih (j + 1) v
          simp_all [Except.map]
      | ok u =>
        have := @ih (j + 1) u
        cases v with
        | nil => simp [Except.map]
        | cons x v =>
          have h2 := @ih (j + 1) v
          simp only [hl, Except.ok.injEq] at this h2
          simp only [Except.map, Except.ok.injEq, List.cons.injEq, List.map_cons, Option.some.injEq, h2]

/-- The lookups fail at the first token that matches no entry (R198). -/
theorem lookupAll_error {wt : List (Nat × Bytes)} {ws : List Bytes} {j : Nat} {r : Raise} :
    lookupAll wt ws j = .error r ↔
      ∃ k, ∃ hk : k < ws.length, ridx wt ws[k] = none ∧ (∀ i, ∀ hi : i < k, ridx wt ws[i] ≠ none) ∧
        r = ⟨.unknownWord, BitVec.ofNat 16 (j + k)⟩ := by
  induction ws generalizing j with
  | nil => simp [lookupAll]
  | cons w ws ih =>
    simp only [lookupAll]
    cases hr : ridx wt w with
    | none =>
      constructor
      · intro e
        cases e
        exact ⟨0, by simp, hr, fun i hi => by omega, rfl⟩
      · rintro ⟨k, hk, h1, h2, rfl⟩
        cases k with
        | zero => rfl
        | succ k => exact absurd hr (h2 0 (by omega))
    | some i =>
      have key : (lookupAll wt ws (j + 1)).map (i :: ·) = .error r ↔ lookupAll wt ws (j + 1) = .error r := by
        cases lookupAll wt ws (j + 1) <;> simp [Except.map]
      simp only [key, ih]
      constructor
      · rintro ⟨k, hk, h1, h2, rfl⟩
        refine ⟨k + 1, by simpa using hk, h1, fun x hx => ?_, by rw [show j + 1 + k = j + (k + 1) by omega]⟩
        cases x with
        | zero => simp [hr]
        | succ x => exact h2 x (by omega)
      · rintro ⟨k, hk, h1, h2, rfl⟩
        cases k with
        | zero => simp [hr] at h1
        | succ k =>
          exact ⟨k, by simpa using hk, h1, fun x hx => h2 (x + 1) (by omega), by rw [show j + 1 + k = j + (k + 1) by omega]⟩

end Sys2Proof.Machine
end

