-- ==== Sys2Proof/Laws/Text.lean ====
section
/-! SUPPORT. Splitting and joining at 0x20, token descriptors, and normalization (spec/00_scope.md R19, R13,
spec/44_normalizer.md R221). -/

namespace Sys2Proof.Machine

theorem splitSp_ne_nil (t : Bytes) : splitSp t ≠ [] := by
  cases t with
  | nil => simp [splitSp]
  | cons b bs =>
    simp only [splitSp]
    split
    · simp
    · split <;> simp

/-- Joining what was split gives the text back (R19). -/
theorem joinSp_splitSp (t : Bytes) : joinSp (splitSp t) = t := by
  induction t with
  | nil => rfl
  | cons b bs ih =>
    simp only [splitSp]
    split
    · rename_i hb
      subst hb
      cases hs : splitSp bs with
      | nil => exact absurd hs (splitSp_ne_nil bs)
      | cons w ws => rw [hs] at ih; simp [joinSp, ih]
    · cases hs : splitSp bs with
      | nil => exact absurd hs (splitSp_ne_nil bs)
      | cons w ws =>
        rw [hs] at ih
        cases ws with
        | nil => simpa [joinSp] using ih
        | cons w' ws => simpa [joinSp] using ih

/-- No token holds a 0x20 byte. -/
theorem splitSp_no_space (t : Bytes) : ∀ w ∈ splitSp t, Config.space ∉ w := by
  induction t with
  | nil => simp [splitSp]
  | cons b bs ih =>
    simp only [splitSp]
    split
    · simpa using ih
    · rename_i hb
      cases hs : splitSp bs with
      | nil => exact absurd hs (splitSp_ne_nil bs)
      | cons w ws =>
        rw [hs] at ih
        intro x hx
        rcases List.mem_cons.1 hx with rfl | hx
        · have := ih w (by simp)
          simp only [List.mem_cons, not_or]
          exact ⟨fun h => hb h.symm, this⟩
        · exact ih x (by simp [hx])

/-- One element more than the number of 0x20 bytes (R19). -/
theorem splitSp_length (t : Bytes) : (splitSp t).length = t.count Config.space + 1 := by
  induction t with
  | nil => rfl
  | cons b bs ih =>
    simp only [splitSp]
    split
    · rename_i hb; simp [hb, ih]
    · rename_i hb
      cases hs : splitSp bs with
      | nil => exact absurd hs (splitSp_ne_nil bs)
      | cons w ws =>
        rw [hs] at ih
        simp only [List.length_cons] at ih ⊢
        rw [List.count_cons_of_ne (by simpa using hb)]
        exact ih

/-- The length of joined words: their bytes and one separator between each two. -/
theorem joinSp_length (ws : List Bytes) (h : ws ≠ []) :
    (joinSp ws).length + 1 = (ws.map (fun w => w.length + 1)).sum := by
  induction ws with
  | nil => exact absurd rfl h
  | cons w ws ih =>
    cases ws with
    | nil => simp [joinSp]
    | cons w' ws =>
      have := ih (by simp)
      simp only [joinSp, List.length_append, List.length_cons, List.map_cons, List.sum_cons] at this ⊢
      omega

@[simp] theorem descriptors_length (off : Nat) (ws : List Bytes) : (descriptors off ws).length = ws.length := by
  induction ws generalizing off with
  | nil => rfl
  | cons w ws ih => simp [descriptors, ih]

/-- Descriptor j: `off_j` is the sum of the lengths before it, one more for each separator (R221). -/
theorem descriptors_getElem? (off : Nat) (ws : List Bytes) (j : Nat) :
    (descriptors off ws)[j]? =
      ws[j]?.map (fun w => (off + ((ws.take j).map (fun x => x.length + 1)).sum, w.length)) := by
  induction ws generalizing off j with
  | nil => simp [descriptors]
  | cons w ws ih =>
    cases j with
    | zero => simp [descriptors]
    | succ j =>
      simp only [descriptors, List.getElem?_cons_succ, ih, List.take_succ_cons, List.map_cons, List.sum_cons]
      congr 1
      funext x
      simp only [Prod.mk.injEq, and_true]
      omega

/-- Token j stands in the text where its descriptor says. -/
theorem joinSp_slice (ws : List Bytes) (j : Nat) (hj : j < ws.length) :
    ((joinSp ws).drop ((ws.take j).map (fun x => x.length + 1)).sum).take ws[j].length = ws[j] := by
  induction ws generalizing j with
  | nil => simp at hj
  | cons w ws ih =>
    cases ws with
    | nil =>
      have : j = 0 := by simpa using hj
      subst this
      simp [joinSp]
    | cons w' ws =>
      cases j with
      | zero => simp [joinSp]
      | succ j =>
        have := ih j (by simpa using hj)
        simp only [joinSp, List.take_succ_cons, List.map_cons, List.sum_cons, List.getElem_cons_succ] at this ⊢
        have e : (w ++ Config.space :: joinSp (w' :: ws)).drop (w.length + 1) = joinSp (w' :: ws) := by
          rw [List.drop_append]
          simp
        rw [← List.drop_drop, e]
        exact this

/-- NFKD of the empty text is empty (spec/44_normalizer.md R222, R224: the corner cases TEXT_LEN = 0 and PASS_LEN = 0). -/
@[simp] theorem nfkd_nil : nfkd [] = [] := rfl

/-- NFKD gives well-formed UTF-8 for well-formed UTF-8 (R13). -/
theorem nfkd_wf (t : Bytes) (h : utf8Wf t = true) : utf8Wf (nfkd t) = true := by
  unfold nfkd
  split
  · rfl
  · split <;> assumption

/-- ASCII bytes are well-formed UTF-8. -/
theorem utf8Wf_ascii (t : Bytes) (h : ∀ b ∈ t, b ≤ 0x7F) : utf8Wf t = true := by
  unfold utf8Wf
  induction t with
  | nil => rfl
  | cons b t ih =>
    have hb : utf8Lead b = some (0, 0x80, 0xBF) := if_pos (h b List.mem_cons_self)
    simp only [utf8Rest, hb]
    exact ih (fun c hc => h c (List.mem_cons_of_mem b hc))

end Sys2Proof.Machine
end

