-- ==== Sys2Proof/Laws/Exec.lean ====
section
/-! SUPPORT. What each command's pseudocode answers, said once: its operand checks, its success, and how `exec` ends. -/

namespace Sys2Proof.Machine

/-! ### The Except monad -/

theorem bind_ok_iff {α β : Type} {x : Except Raise α} {f : α → Except Raise β} {b : β} :
    (x >>= f) = .ok b ↔ ∃ a, x = .ok a ∧ f a = .ok b := by
  cases x <;> simp [bind, Except.bind]

theorem bind_error_iff {α β : Type} {x : Except Raise α} {f : α → Except Raise β} {r : Raise} :
    (x >>= f) = .error r ↔ x = .error r ∨ ∃ a, x = .ok a ∧ f a = .error r := by
  cases x <;> simp [bind, Except.bind]

@[simp] theorem ok_bind {α β : Type} (a : α) (f : α → Except Raise β) : ((.ok a : Except Raise α) >>= f) = f a := rfl

@[simp] theorem error_bind {α β : Type} (r : Raise) (f : α → Except Raise β) :
    ((.error r : Except Raise α) >>= f) = .error r := rfl

@[simp] theorem pure_ok {α : Type} (a : α) : (pure a : Except Raise α) = .ok a := rfl

@[simp] theorem complete_ok (s t : State) : complete s (.ok t) = finish t 0 noIndex := rfl

@[simp] theorem complete_error (s : State) (r : Raise) : complete s (.error r) = finish s r.kind.code r.info := rfl

theorem ok_eq_iff {α : Type} {a b : α} : (.ok a : Except Raise α) = .ok b ↔ b = a := by
  simp only [Except.ok.injEq]; exact eq_comm

theorem error_eq_iff {α : Type} {r r' : Raise} : (.error r : Except Raise α) = .error r' ↔ r' = r := by
  simp only [Except.error.injEq]; exact eq_comm

/-- A check passes where its condition holds. -/
theorem check_ok_iff {α : Type} {c : Prop} [Decidable c] {a b : α} {r : Raise} :
    (if c then (.ok a : Except Raise α) else .error r) = .ok b ↔ c ∧ b = a := by
  split
  · simp_all only [ok_eq_iff, true_and]
  · simp_all

/-- A check raises where its condition fails. -/
theorem check_error_iff {α : Type} {c : Prop} [Decidable c] {a : α} {r r' : Raise} :
    (if c then (.ok a : Except Raise α) else .error r) = .error r' ↔ ¬c ∧ r' = r := by
  split
  · simp_all
  · simp_all only [error_eq_iff, not_false_eq_true, true_and]

/-- A limit check passes into what follows where the limit is kept. -/
theorem limit_ok_iff {α : Type} {c : Prop} [Decidable c] {x : Except Raise α} {b : α} {r : Raise} :
    (if c then (.error r : Except Raise α) else x) = .ok b ↔ ¬c ∧ x = .ok b := by
  split <;> simp_all

/-- A limit check raises where the limit is broken, or what follows raises. -/
theorem limit_error_iff {α : Type} {c : Prop} [Decidable c] {x : Except Raise α} {r r' : Raise} :
    (if c then (.error r : Except Raise α) else x) = .error r' ↔ (c ∧ r' = r) ∨ (¬c ∧ x = .error r') := by
  split
  · simp_all only [error_eq_iff, true_and, not_true_eq_false, false_and, or_false]
  · simp_all

/-! ### Operand checks -/

theorem needTable_ok {s : State} {u : Unit} : needTable s = .ok u ↔ s.tableValid = true := by
  simp only [needTable, fail, check_ok_iff, and_true]

theorem needTable_error {s : State} {r : Raise} :
    needTable s = .error r ↔ s.tableValid = false ∧ r = ⟨.invalidWordlist, noIndex⟩ := by
  simp only [needTable, fail, check_error_iff, Bool.not_eq_true]

theorem entropyIn_ok {s : State} {e : Bytes} :
    entropyIn s = .ok e ↔ entOk s.entLen.toNat = true ∧ e = bufBytes s .entBuf s.entLen.toNat := by
  simp only [entropyIn, fail, check_ok_iff]

theorem entropyIn_error {s : State} {r : Raise} :
    entropyIn s = .error r ↔ entOk s.entLen.toNat = false ∧ r = ⟨.invalidEntropyLength, noIndex⟩ := by
  simp only [entropyIn, fail, check_error_iff, Bool.not_eq_true]

theorem countIn_ok {s : State} {n : Nat} : countIn s = .ok n ↔ countOk s.wordCount.toNat = true ∧ n = s.wordCount.toNat := by
  simp only [countIn, fail, check_ok_iff]

theorem countIn_error {s : State} {r : Raise} :
    countIn s = .error r ↔ countOk s.wordCount.toNat = false ∧ r = ⟨.invalidMnemonicWordCount, noIndex⟩ := by
  simp only [countIn, fail, check_error_iff, Bool.not_eq_true]

theorem indicesIn_ok {s : State} {v : List Nat} :
    indicesIn s = .ok v ↔
      countOk s.wordCount.toNat = true ∧ (∀ j < s.wordCount.toNat, half s j ≤ 2047) ∧
        v = (List.range s.wordCount.toNat).map (half s) := by
  simp only [indicesIn, bind_ok_iff, countIn_ok, checkRange_ok, pure_ok, ok_eq_iff]
  constructor
  · rintro ⟨n, ⟨h, rfl⟩, u, hu, rfl⟩
    exact ⟨h, fun j hj => hu _ (List.mem_map.2 ⟨j, by simpa using hj, rfl⟩), rfl⟩
  · rintro ⟨h, hu, rfl⟩
    refine ⟨_, ⟨h, rfl⟩, (), fun x hx => ?_, rfl⟩
    obtain ⟨j, hj, rfl⟩ := List.mem_map.1 hx
    exact hu j (by simpa using hj)

/-- The index checks fail on the count, or at the first halfword above 2047 (R175, R197). -/
theorem indicesIn_error {s : State} {r : Raise} :
    indicesIn s = .error r ↔
      (countOk s.wordCount.toNat = false ∧ r = ⟨.invalidMnemonicWordCount, noIndex⟩) ∨
        (countOk s.wordCount.toNat = true ∧
          ∃ k < s.wordCount.toNat, 2047 < half s k ∧ (∀ i < k, half s i ≤ 2047) ∧ r = ⟨.unknownWord, BitVec.ofNat 16 k⟩) := by
  simp only [indicesIn, bind_error_iff, countIn_error, countIn_ok, checkRange_error, pure_ok, reduceCtorEq, and_false,
    exists_false, or_false, List.length_map, List.length_range, List.getElem_map, List.getElem_range, Nat.zero_add]
  refine or_congr_right ?_
  constructor
  · rintro ⟨n, ⟨h, rfl⟩, k, hk, h1, h2, rfl⟩; exact ⟨h, k, hk, h1, h2, rfl⟩
  · rintro ⟨h, k, hk, h1, h2, rfl⟩; exact ⟨_, ⟨h, rfl⟩, k, hk, h1, h2, rfl⟩

theorem textIn_ok {s : State} {b : Buf} {n cap : Nat} {t : Bytes} :
    textIn s b n cap = .ok t ↔ n ≤ cap ∧ utf8Wf (bufBytes s b n) = true ∧ t = bufBytes s b n := by
  simp only [textIn, fail, limit_ok_iff, check_ok_iff, Nat.not_lt]

theorem textIn_error {s : State} {b : Buf} {n cap : Nat} {r : Raise} :
    textIn s b n cap = .error r ↔
      (cap < n ∧ r = ⟨.capacityExceeded, noIndex⟩) ∨
        (n ≤ cap ∧ utf8Wf (bufBytes s b n) = false ∧ r = ⟨.invalidText, noIndex⟩) := by
  simp only [textIn, fail, limit_error_iff, check_error_iff, Nat.not_lt, gt_iff_lt, Bool.not_eq_true]

theorem normTok_ok {t : Bytes} {m : NormText} :
    normTok t = .ok m ↔
      (nfkd t).length ≤ Config.normMax ∧ countOk (splitSp (nfkd t)).length = true ∧ m = ⟨nfkd t, splitSp (nfkd t)⟩ := by
  simp only [normTok, fail, limit_ok_iff, check_ok_iff, Nat.not_lt, gt_iff_lt]

theorem normTok_error {t : Bytes} {r : Raise} :
    normTok t = .error r ↔
      (Config.normMax < (nfkd t).length ∧ r = ⟨.capacityExceeded, noIndex⟩) ∨
        ((nfkd t).length ≤ Config.normMax ∧ countOk (splitSp (nfkd t)).length = false ∧
          r = ⟨.invalidMnemonicWordCount, noIndex⟩) := by
  simp only [normTok, fail, limit_error_iff, check_error_iff, Nat.not_lt, gt_iff_lt, Bool.not_eq_true]

theorem mnemonicIn_ok {s : State} {m : NormText} :
    mnemonicIn s = .ok m ↔
      s.textLen.toNat ≤ Config.textMax ∧ utf8Wf (bufBytes s .textIn s.textLen.toNat) = true ∧
        normTok (bufBytes s .textIn s.textLen.toNat) = .ok m := by
  simp only [mnemonicIn, bind_ok_iff, textIn_ok]
  constructor
  · rintro ⟨t, ⟨h1, h2, rfl⟩, h⟩; exact ⟨h1, h2, h⟩
  · rintro ⟨h1, h2, h⟩; exact ⟨_, ⟨h1, h2, rfl⟩, h⟩

theorem mnemonicIn_error {s : State} {r : Raise} :
    mnemonicIn s = .error r ↔
      textIn s .textIn s.textLen.toNat Config.textMax = .error r ∨
        (s.textLen.toNat ≤ Config.textMax ∧ utf8Wf (bufBytes s .textIn s.textLen.toNat) = true ∧
          normTok (bufBytes s .textIn s.textLen.toNat) = .error r) := by
  simp only [mnemonicIn, bind_error_iff, textIn_ok]
  refine or_congr_right ⟨?_, ?_⟩
  · rintro ⟨t, ⟨h1, h2, rfl⟩, h⟩; exact ⟨h1, h2, h⟩
  · rintro ⟨h1, h2, h⟩; exact ⟨_, ⟨h1, h2, rfl⟩, h⟩

theorem saltOf_ok {p v : Bytes} :
    saltOf p = .ok v ↔ (Config.saltPrefix ++ nfkd p).length ≤ Config.saltMax ∧ v = Config.saltPrefix ++ nfkd p := by
  simp only [saltOf, fail, limit_ok_iff, ok_eq_iff, Nat.not_lt, gt_iff_lt]

theorem saltOf_error {p : Bytes} {r : Raise} :
    saltOf p = .error r ↔ Config.saltMax < (Config.saltPrefix ++ nfkd p).length ∧ r = ⟨.capacityExceeded, noIndex⟩ := by
  simp only [saltOf, fail, limit_error_iff, reduceCtorEq, and_false, or_false, gt_iff_lt]

theorem saltIn_ok {s : State} {v : Bytes} :
    saltIn s = .ok v ↔
      s.passLen.toNat ≤ Config.passMax ∧ utf8Wf (bufBytes s .passIn s.passLen.toNat) = true ∧
        saltOf (bufBytes s .passIn s.passLen.toNat) = .ok v := by
  simp only [saltIn, bind_ok_iff, textIn_ok]
  constructor
  · rintro ⟨t, ⟨h1, h2, rfl⟩, h⟩; exact ⟨h1, h2, h⟩
  · rintro ⟨h1, h2, h⟩; exact ⟨_, ⟨h1, h2, rfl⟩, h⟩

theorem saltIn_error {s : State} {r : Raise} :
    saltIn s = .error r ↔
      textIn s .passIn s.passLen.toNat Config.passMax = .error r ∨
        (s.passLen.toNat ≤ Config.passMax ∧ utf8Wf (bufBytes s .passIn s.passLen.toNat) = true ∧
          saltOf (bufBytes s .passIn s.passLen.toNat) = .error r) := by
  simp only [saltIn, bind_error_iff, textIn_ok]
  refine or_congr_right ⟨?_, ?_⟩
  · rintro ⟨t, ⟨h1, h2, rfl⟩, h⟩; exact ⟨h1, h2, h⟩
  · rintro ⟨h1, h2, h⟩; exact ⟨_, ⟨h1, h2, rfl⟩, h⟩

theorem decodeIndices_ok {v : List Nat} {e : Bytes} :
    decodeIndices v = .ok e ↔
      (ckOf (ungroupEntropy v) >>> (8 - v.length / 3)).toNat = ungroupCsv v ∧ e = ungroupEntropy v := by
  simp only [decodeIndices, fail, check_ok_iff]

theorem decodeIndices_error {v : List Nat} {r : Raise} :
    decodeIndices v = .error r ↔
      (ckOf (ungroupEntropy v) >>> (8 - v.length / 3)).toNat ≠ ungroupCsv v ∧ r = ⟨.checksumMismatch, noIndex⟩ := by
  simp only [decodeIndices, fail, check_error_iff, ne_eq]

/-! ### Success of each command -/

theorem runCksum_ok {s u : State} : runCksum s = .ok u ↔ ∃ e, entropyIn s = .ok e ∧ u = commitCksum s e := by
  simp only [runCksum, bind_ok_iff, pure_ok, ok_eq_iff]

theorem runPack_ok {s u : State} : runPack s = .ok u ↔ ∃ e, entropyIn s = .ok e ∧ u = commitPack s e := by
  simp only [runPack, bind_ok_iff, pure_ok, ok_eq_iff]

theorem runUnpack_ok {s u : State} :
    runUnpack s = .ok u ↔ ∃ v, indicesIn s = .ok v ∧ ∃ e, decodeIndices v = .ok e ∧ u = commitEntropy s e := by
  simp only [runUnpack, bind_ok_iff, pure_ok, ok_eq_iff]

theorem runNormalize_ok {s u : State} : runNormalize s = .ok u ↔ ∃ m, mnemonicIn s = .ok m ∧ u = commitNorm s m := by
  simp only [runNormalize, bind_ok_iff, pure_ok, ok_eq_iff]

theorem runSalt_ok {s u : State} : runSalt s = .ok u ↔ ∃ v, saltIn s = .ok v ∧ u = commitSalt s v := by
  simp only [runSalt, bind_ok_iff, pure_ok, ok_eq_iff]

theorem runTblPush_ok {s u : State} :
    runTblPush s = .ok u ↔
      s.tableValid = false ∧
        u = { pushEntry s s.tblCount.toNat s.stageLen.toNat (stagedWord s) with
              tblCount := BitVec.ofNat 16 (min (s.tblCount.toNat + 1) 0xFFFF) } := by
  simp only [runTblPush, fail, limit_ok_iff, ok_eq_iff, Bool.not_eq_true]

theorem runTblSeal_ok {s u : State} :
    runTblSeal s = .ok u ↔
      (s.tableValid = true ∧ u = s) ∨
        (s.tableValid = false ∧ s.tblCount.toNat = Config.tableSize ∧ s.tblOver = false ∧ s.tblBad = false ∧
          u = { s with tableValid := true }) := by
  unfold runTblSeal
  split
  · rename_i h
    simp only [ok_eq_iff, h, true_and, Bool.true_eq_false, false_and, or_false]
  · rename_i h
    simp only [fail, limit_ok_iff, ok_eq_iff, Bool.not_eq_true] at h ⊢
    simp only [h, Bool.false_eq_true, false_and, false_or, not_or, ne_eq, Decidable.not_not, true_and, and_assoc,
      Bool.not_eq_true]

theorem runTblRead_ok {s u : State} :
    runTblRead s = .ok u ↔
      s.tableValid = true ∧ s.lookupIdx.toNat ≤ 2047 ∧
        u = { commitBuf s .stageBuf (wtEntry s.wt s.lookupIdx.toNat) with
              stageLen := BitVec.ofNat 8 (wtEntry s.wt s.lookupIdx.toNat).length } := by
  simp only [runTblRead, bind_ok_iff, needTable_ok, failAt, limit_ok_iff, pure_ok, ok_eq_iff, Nat.not_lt, gt_iff_lt,
    exists_const]

theorem runTblFind_ok {s u : State} :
    runTblFind s = .ok u ↔
      s.tableValid = true ∧ s.stageLen.toNat ≤ Config.wordMax ∧
        ∃ i, ridx s.wt (bufBytes s .stageBuf s.stageLen.toNat) = some i ∧ u = { s with lookupIdx := BitVec.ofNat 16 i } := by
  simp only [runTblFind, bind_ok_iff, needTable_ok, failAt, limit_ok_iff, Nat.not_lt, gt_iff_lt, exists_const]
  refine and_congr_right (fun _ => and_congr_right (fun _ => ?_))
  cases hr : ridx s.wt (bufBytes s .stageBuf s.stageLen.toNat) with
  | none => simp
  | some i => simp only [pure_ok, ok_eq_iff, Option.some.injEq, exists_eq_left']

theorem runW2i_ok {s u : State} :
    runW2i s = .ok u ↔
      s.tableValid = true ∧ countOk s.wordCount.toNat = true ∧
        ∃ v, lookupAll s.wt ((List.range s.wordCount.toNat).map (tokenBytes s)) 0 = .ok v ∧ u = commitIdx s v := by
  simp only [runW2i, bind_ok_iff, needTable_ok, countIn_ok, pure_ok, ok_eq_iff]
  constructor
  · rintro ⟨_, h, n, ⟨h1, rfl⟩, v, hv, rfl⟩; exact ⟨h, h1, v, hv, rfl⟩
  · rintro ⟨h, h1, v, hv, rfl⟩; exact ⟨(), h, _, ⟨h1, rfl⟩, v, hv, rfl⟩

theorem runI2w_ok {s u : State} :
    runI2w s = .ok u ↔ s.tableValid = true ∧ ∃ v, indicesIn s = .ok v ∧ u = commitPhrase s (phraseOf s.wt v) := by
  simp only [runI2w, bind_ok_iff, needTable_ok, pure_ok, ok_eq_iff, exists_const]

theorem runE2m_ok {s u : State} :
    runE2m s = .ok u ↔
      s.tableValid = true ∧ ∃ e, entropyIn s = .ok e ∧ u = commitPhrase (commitPack s e) (phraseOf s.wt (packIndices e)) := by
  simp only [runE2m, bind_ok_iff, needTable_ok, pure_ok, ok_eq_iff, exists_const]

theorem decodeText_ok {s : State} {d : TextDecoding} :
    decodeText s = .ok d ↔
      s.tableValid = true ∧ mnemonicIn s = .ok d.norm ∧ lookupAll s.wt d.norm.toks 0 = .ok d.indices ∧
        decodeIndices d.indices = .ok d.entropy := by
  simp only [decodeText, bind_ok_iff, needTable_ok, pure_ok, ok_eq_iff]
  constructor
  · rintro ⟨_, h, m, hm, v, hv, e, he, rfl⟩; exact ⟨h, hm, hv, he⟩
  · rintro ⟨h, hm, hv, he⟩; exact ⟨(), h, _, hm, _, hv, _, he, rfl⟩

theorem runM2eTxt_ok {s u : State} :
    runM2eTxt s = .ok u ↔
      ∃ d, decodeText s = .ok d ∧ u = commitEntropy (commitIdx (commitNorm s d.norm) d.indices) d.entropy := by
  simp only [runM2eTxt, bind_ok_iff, pure_ok, ok_eq_iff]

theorem decodeBinary_ok {s : State} {e : Bytes} :
    decodeBinary s = .ok e ↔ s.tableValid = true ∧ ∃ v, indicesIn s = .ok v ∧ decodeIndices v = .ok e := by
  simp only [decodeBinary, bind_ok_iff, needTable_ok, exists_const]

theorem runM2eBin_ok {s u : State} : runM2eBin s = .ok u ↔ ∃ e, decodeBinary s = .ok e ∧ u = commitEntropy s e := by
  simp only [runM2eBin, bind_ok_iff, pure_ok, ok_eq_iff]

theorem runSeedprepTxt_ok {s u : State} :
    runSeedprepTxt s = .ok u ↔ ∃ m, mnemonicIn s = .ok m ∧ ∃ v, saltIn s = .ok v ∧ u = commitSalt (commitNorm s m) v := by
  simp only [runSeedprepTxt, bind_ok_iff, pure_ok, ok_eq_iff]

theorem runSeedprepBin_ok {s u : State} :
    runSeedprepBin s = .ok u ↔
      s.tableValid = true ∧
        ∃ i, indicesIn s = .ok i ∧ ∃ v, saltIn s = .ok v ∧ u = commitSalt (commitPhrase s (phraseOf s.wt i)) v := by
  simp only [runSeedprepBin, bind_ok_iff, needTable_ok, pure_ok, ok_eq_iff, exists_const]

/-! ### How a command ends -/

/-- What a running command writes on success, by its name: the state that holds the commit set of spec/30_encoding.md R123. -/
inductive Commits : Instr → State → State → Prop where
  | nop (s : State) : Commits .nop s s
  | zeroize (s : State) : Commits .zeroize s (zeroized s)
  | tblReset (s : State) :
      Commits .tblReset s { s with wt := [], tblCount := 0, tblOver := false, tblBad := false, tableValid := false }
  | tblPush {s u : State} (h : runTblPush s = .ok u) : Commits .tblPush s u
  | tblSeal {s u : State} (h : runTblSeal s = .ok u) : Commits .tblSeal s u
  | tblRead {s u : State} (h : runTblRead s = .ok u) : Commits .tblRead s u
  | tblFind {s u : State} (h : runTblFind s = .ok u) : Commits .tblFind s u
  | cksum {s u : State} (h : runCksum s = .ok u) : Commits .cksum s u
  | pack {s u : State} (h : runPack s = .ok u) : Commits .pack s u
  | unpack {s u : State} (h : runUnpack s = .ok u) : Commits .unpack s u
  | normalize {s u : State} (h : runNormalize s = .ok u) : Commits .normalize s u
  | salt {s u : State} (h : runSalt s = .ok u) : Commits .salt s u
  | w2i {s u : State} (h : runW2i s = .ok u) : Commits .w2i s u
  | i2w {s u : State} (h : runI2w s = .ok u) : Commits .i2w s u
  | e2m {s u : State} (h : runE2m s = .ok u) : Commits .e2m s u
  | m2eTxt {s u : State} (h : runM2eTxt s = .ok u) : Commits .m2eTxt s u
  | m2eBin {s u : State} (h : runM2eBin s = .ok u) : Commits .m2eBin s u
  | seedprepTxt {s u : State} (h : runSeedprepTxt s = .ok u) : Commits .seedprepTxt s u
  | seedprepBin {s u : State} (h : runSeedprepBin s = .ok u) : Commits .seedprepBin s u

/-- How `exec` ends, said once: with its commit set and ERR 0; with an error and nothing else; or, for a VAL command, with
RESULT written and ERR 0. -/
theorem exec_cases {i : Instr} {s t : State} (h : exec i s = .next t) :
    (∃ u, Commits i s u ∧ t = finish u 0 noIndex) ∨
    (∃ r : Raise, t = finish s r.kind.code r.info ∧ i ≠ .valTxt ∧ i ≠ .valBin) ∨
    ((i = .valTxt ∨ i = .valBin) ∧
      (t = finish { s with resValid := true, resReason := 0 } 0 noIndex ∨
        ∃ r : Raise, t = finish { s with resValid := false, resReason := r.kind.code } 0 r.info)) := by
  have key : ∀ x : Except Raise State, .next (complete s x) = (Host.Outcome.next t : Host.Outcome State Fault Refusal) →
      (∀ u, x = .ok u → Commits i s u) → i ≠ .valTxt → i ≠ .valBin →
      (∃ u, Commits i s u ∧ t = finish u 0 noIndex) ∨
      (∃ r : Raise, t = finish s r.kind.code r.info ∧ i ≠ .valTxt ∧ i ≠ .valBin) := by
    intro x hx hc h1 h2
    cases hx
    cases x with
    | ok u => exact .inl ⟨u, hc u rfl, rfl⟩
    | error r => exact .inr ⟨r, rfl, h1, h2⟩
  cases i
  case valTxt =>
    cases h
    right; right
    refine ⟨.inl rfl, ?_⟩
    cases decodeText s with
    | ok d => exact .inl rfl
    | error r => exact .inr ⟨r, rfl⟩
  case valBin =>
    cases h
    right; right
    refine ⟨.inr rfl, ?_⟩
    cases decodeBinary s with
    | ok d => exact .inl rfl
    | error r => exact .inr ⟨r, rfl⟩
  case nop => exact (key _ h (fun u hu => by cases hu; exact .nop s) (by simp) (by simp)).imp_right .inl
  case zeroize => exact (key _ h (fun u hu => by cases hu; exact .zeroize s) (by simp) (by simp)).imp_right .inl
  case tblReset => exact (key _ h (fun u hu => by cases hu; exact .tblReset s) (by simp) (by simp)).imp_right .inl
  case tblPush => exact (key _ h (fun u hu => .tblPush hu) (by simp) (by simp)).imp_right .inl
  case tblSeal => exact (key _ h (fun u hu => .tblSeal hu) (by simp) (by simp)).imp_right .inl
  case tblRead => exact (key _ h (fun u hu => .tblRead hu) (by simp) (by simp)).imp_right .inl
  case tblFind => exact (key _ h (fun u hu => .tblFind hu) (by simp) (by simp)).imp_right .inl
  case cksum => exact (key _ h (fun u hu => .cksum hu) (by simp) (by simp)).imp_right .inl
  case pack => exact (key _ h (fun u hu => .pack hu) (by simp) (by simp)).imp_right .inl
  case unpack => exact (key _ h (fun u hu => .unpack hu) (by simp) (by simp)).imp_right .inl
  case normalize => exact (key _ h (fun u hu => .normalize hu) (by simp) (by simp)).imp_right .inl
  case salt => exact (key _ h (fun u hu => .salt hu) (by simp) (by simp)).imp_right .inl
  case w2i => exact (key _ h (fun u hu => .w2i hu) (by simp) (by simp)).imp_right .inl
  case i2w => exact (key _ h (fun u hu => .i2w hu) (by simp) (by simp)).imp_right .inl
  case e2m => exact (key _ h (fun u hu => .e2m hu) (by simp) (by simp)).imp_right .inl
  case m2eTxt => exact (key _ h (fun u hu => .m2eTxt hu) (by simp) (by simp)).imp_right .inl
  case m2eBin => exact (key _ h (fun u hu => .m2eBin hu) (by simp) (by simp)).imp_right .inl
  case seedprepTxt => exact (key _ h (fun u hu => .seedprepTxt hu) (by simp) (by simp)).imp_right .inl
  case seedprepBin => exact (key _ h (fun u hu => .seedprepBin hu) (by simp) (by simp)).imp_right .inl

/-! ### How a step goes -/

/-- What one step does, said once. -/
theorem step_cases {s t : State} (h : step s = .next t) :
    (s.seq = .idle ∧ t = hostCycle s) ∨
    (∃ n, s.seq = .busy (n + 1) ∧ t = hostCycle { s with seq := .busy n }) ∨
    (s.seq = .busy 0 ∧ (∃ a es, s.host = .rst a :: es) ∧ t = hostCycle s) ∨
    (s.seq = .busy 0 ∧ (∀ a es, s.host ≠ .rst a :: es) ∧ ∃ i, decode s.cmd = .ok i ∧ exec i s = .next t) ∨
    (s.seq = .busy 0 ∧ (∀ a es, s.host ≠ .rst a :: es) ∧ (∃ d, decode s.cmd = .error d) ∧ t = finish s 9 noIndex) := by
  unfold step clockCycle at h
  split at h
  · rename_i hs; cases h; exact .inl ⟨hs, rfl⟩
  · rename_i hs
    split at h
    · rename_i hr; cases h; exact .inr (.inr (.inl ⟨hs, rstSampled_iff.1 hr, rfl⟩))
    · rename_i hr
      have hn := rstSampled_eq_false.1 (Bool.not_eq_true _ ▸ hr)
      unfold runCommand at h
      split at h
      · rename_i i hd; exact .inr (.inr (.inr (.inl ⟨hs, hn, i, hd, h⟩)))
      · rename_i d hd; cases h; exact .inr (.inr (.inr (.inr ⟨hs, hn, ⟨d, hd⟩, rfl⟩)))
  · rename_i n hs; cases h; exact .inr (.inl ⟨n, hs, rfl⟩)

/-- A due command runs where RST is not sampled asserted. -/
theorem step_due {s : State} (hs : s.seq = .busy 0) (hn : ∀ a es, s.host ≠ .rst a :: es) : step s = runCommand s := by
  simp only [step, clockCycle, hs, rstSampled_eq_false.2 hn, Bool.false_eq_true, if_false]

/-- No step of the block stops: there is no fault, and no command is refused (spec/60_exceptions.md R280, R287). -/
theorem exec_next (i : Instr) (s : State) : ∃ t, exec i s = .next t := by
  cases i <;> exact ⟨_, rfl⟩

end Sys2Proof.Machine
end

