-- ==== Sys2Proof/Laws/PerInstr.lean ====
section
/-! SUPPORT. Per command: it is well-formed, and its bytes decode to it with nothing left over (spec/30_encoding.md R120-R123). -/

namespace Sys2Proof.Laws.EncodedBytes

/-- The command is well-formed and the four bytes of its word decode to it. -/
def Statement (i : Instr) : Prop := i.wellFormed = true ∧ decodeBytes (encodeBytes i) = .ok (i, [])

theorem nop : Statement .nop := by unfold Statement; decide

theorem zeroize : Statement .zeroize := by unfold Statement; decide

theorem tblReset : Statement .tblReset := by unfold Statement; decide

theorem tblPush : Statement .tblPush := by unfold Statement; decide

theorem tblSeal : Statement .tblSeal := by unfold Statement; decide

theorem tblRead : Statement .tblRead := by unfold Statement; decide

theorem tblFind : Statement .tblFind := by unfold Statement; decide

theorem cksum : Statement .cksum := by unfold Statement; decide

theorem pack : Statement .pack := by unfold Statement; decide

theorem unpack : Statement .unpack := by unfold Statement; decide

theorem normalize : Statement .normalize := by unfold Statement; decide

theorem salt : Statement .salt := by unfold Statement; decide

theorem w2i : Statement .w2i := by unfold Statement; decide

theorem i2w : Statement .i2w := by unfold Statement; decide

theorem e2m : Statement .e2m := by unfold Statement; decide

theorem m2eTxt : Statement .m2eTxt := by unfold Statement; decide

theorem m2eBin : Statement .m2eBin := by unfold Statement; decide

theorem valTxt : Statement .valTxt := by unfold Statement; decide

theorem valBin : Statement .valBin := by unfold Statement; decide

theorem seedprepTxt : Statement .seedprepTxt := by unfold Statement; decide

theorem seedprepBin : Statement .seedprepBin := by unfold Statement; decide

end Sys2Proof.Laws.EncodedBytes
end

