-- ==== Sys2Proof/Laws/Spec.lean ====
section
/-! SUPPORT. The model's functions and the spec's formulas of Sys2Proof/Safety.lean are the same; what each commit leaves in a buffer,
in the terms of Safety. -/

namespace Sys2Proof.Machine

/-! ### Checks -/

theorem entOk_iff (l : Nat) : entOk l = true ↔ LegalEntLen l := by
  simp [entOk, Config.entLengths, LegalEntLen]

theorem countOk_iff (n : Nat) : countOk n = true ↔ LegalCount n := by
  simp [countOk, Config.wordCounts, LegalCount]

theorem entryOk_iff (len : Nat) (w : Bytes) : entryOk len w = true ↔ 1 ≤ len ∧ len ≤ 64 ∧ utf8Wf w = true := by
  unfold entryOk
  rw [Bool.and_eq_true, decide_eq_true_iff, and_assoc]
  rfl

/-! ### Bits and sums -/

theorem shiftRight_and_one (x k : Nat) : (x >>> k) &&& 1 = (x.testBit k).toNat := by
  rw [Nat.and_one_is_mod, Nat.testBit_eq_decide_div_mod_eq, Nat.shiftRight_eq_div_pow]
  rcases Nat.mod_two_eq_zero_or_one (x / 2 ^ k) with h | h <;> simp [h]

/-- Bits most significant first as a sum of shifted bits. -/
theorem bitsVal_eq_sum (n : Nat) (f : Nat → Bool) :
    bitsVal ((List.range n).map f) = ((List.range n).map (fun t => (f t).toNat <<< (n - 1 - t))).sum := by
  induction n with
  | zero => rfl
  | succ n ih =>
    have step : (List.range n).map (fun t => (f t).toNat <<< (n + 1 - 1 - t)) =
        (List.range n).map (fun t => 2 * ((f t).toNat <<< (n - 1 - t))) := by
      refine List.map_congr_left (fun t ht => ?_)
      have ht := List.mem_range.1 ht
      rw [show n + 1 - 1 - t = (n - 1 - t) + 1 by omega, Nat.shiftLeft_succ]
    rw [List.range_succ, List.map_append, List.map_singleton, bitsVal_append_singleton, ih, List.map_append, List.sum_append, step,
      List.sum_map_mul_left]
    simp

theorem specBit_eq (e : Bytes) (k : Nat) : specBit e k = (bitAt e k).toNat := by
  simp only [specBit, bitAt, shiftRight_and_one, BitVec.getLsbD]

/-- R171. -/
theorem specIdx_eq (e : Bytes) (ck : Byte) (j : Nat) : specIdx e ck j = packIdx e ck j := by
  rw [packIdx, bitsVal_eq_sum, specIdx]
  simp only [specBit_eq]

/-- R161. -/
theorem specCk_eq (e : Bytes) : specCk e (e.length / 4) = (ckOf e).toNat := by
  simp only [specCk, digest0, ckOf, slice, BitVec.toNat_shiftLeft, BitVec.toNat_ushiftRight]
  exact Nat.and_two_pow_sub_one_eq_mod _ 8

/-- R173: a stream bit of indices given as a function and as a list. -/
theorem specStream_eq (v : Nat → Nat) (n k : Nat) (hk : k < 11 * n) :
    specStream v k = (idxBit ((List.range n).map v) k).toNat := by
  have h : k / 11 < n := by omega
  have hg : ((List.range n).map v).getD (k / 11) 0 = v (k / 11) := by
    simp [List.getD_eq_getElem?_getD, h]
  rw [specStream, shiftRight_and_one, idxBit, hg]

/-- R173: the decoded entropy. -/
theorem specEntropy_eq (v : Nat → Nat) (n : Nat) : specEntropy v n = ungroupEntropy ((List.range n).map v) := by
  unfold specEntropy ungroupEntropy
  rw [List.length_map, List.length_range]
  refine List.map_congr_left (fun i hi => ?_)
  have hi := List.mem_range.1 hi
  rw [bitsVal_eq_sum, specEntropyByte]
  congr 2
  refine List.map_congr_left (fun t ht => ?_)
  have ht := List.mem_range.1 ht
  rw [specStream_eq v n _ (by omega)]

/-- R173: the decoded checksum. -/
theorem specCsv_eq (v : Nat → Nat) (n : Nat) : specCsv v n = ungroupCsv ((List.range n).map v) := by
  unfold specCsv ungroupCsv
  rw [List.length_map, List.length_range, bitsVal_eq_sum]
  congr 1
  refine List.map_congr_left (fun t ht => ?_)
  have ht := List.mem_range.1 ht
  rw [specStream_eq v n _ (by omega)]

/-! ### What a commit leaves -/

theorem holds_commitBuf (s : State) (b : Buf) (vs : Bytes) : Holds (commitBuf s b vs) b vs := by
  intro k hk
  rw [readByte_commitBuf, if_pos ⟨by omega, by omega⟩, Nat.add_sub_cancel_left]

/-- `Holds` tells nothing but bytes of its own buffer. -/
theorem Holds.congr {s t : State} {b : Buf} {vs : Bytes} (h : Holds s b vs)
    (e : ∀ k < b.size, readByte t (b.base + k) = readByte s (b.base + k)) : Holds t b vs := fun k hk => (e k hk).trans (h k hk)

theorem Holds.commit_other {s : State} {b b' : Buf} {vs : Bytes} (h : Holds s b vs) (hb : b' ≠ b) (ws : Bytes) :
    Holds (commitBuf s b' ws) b vs :=
  h.congr (fun k hk => readByte_commitBuf_other s hb ws ⟨by omega, by omega⟩)

/-- R56. -/
theorem holdsIdx_commitIdx (s : State) (vs : List Nat) (h : ∀ x ∈ vs, x < 65536) :
    HoldsIdx (commitIdx s vs) vs.length (fun j => vs.getD j 0) := by
  intro j hj
  rw [half_commitIdx s vs j hj]
  by_cases hl : j < vs.length
  · have hm : vs.getD j 0 ∈ vs := by
      rw [List.getD_eq_getElem?_getD, List.getElem?_eq_getElem hl]; exact List.getElem_mem hl
    rw [if_pos hl, Nat.mod_eq_of_lt (h _ hm)]
  · rw [if_neg hl, List.getD_eq_getElem?_getD, List.getElem?_eq_none (by omega)]; rfl

/-- The descriptors of TOK_TABLE after a commit (R58). -/
theorem tok_commitTok (s : State) (ds : List (Nat × Nat)) (j : Nat) (hj : j < 24) :
    tokOff (commitTok s ds) j = (ds.getD j (0, 0)).1 % 65536 ∧ tokLen (commitTok s ds) j = (ds.getD j (0, 0)).2 % 65536 := by
  have key : ∀ k, ∀ i < 4, (ds.flatMap (fun d => leBytes 2 d.1 ++ leBytes 2 d.2)).getD (4 * k + i) 0 =
      (leBytes 2 (ds.getD k (0, 0)).1 ++ leBytes 2 (ds.getD k (0, 0)).2).getD i 0 := by
    induction ds with
    | nil =>
      intro k i hi
      have h4 : i = 0 ∨ i = 1 ∨ i = 2 ∨ i = 3 := by omega
      rw [List.flatMap_nil, List.getD_nil, List.getD_nil]
      rcases h4 with rfl | rfl | rfl | rfl <;> decide
    | cons d ds ih =>
      intro k i hi
      cases k with
      | zero =>
        have h4 : i = 0 ∨ i = 1 ∨ i = 2 ∨ i = 3 := by omega
        rcases h4 with rfl | rfl | rfl | rfl <;> rfl
      | succ k =>
        have := ih k i hi
        rw [show 4 * (k + 1) + i = 4 * k + i + 1 + 1 + 1 + 1 by omega]
        simpa [leBytes, List.getD_eq_getElem?_getD] using this
  have r : ∀ i < 4, readByte (commitTok s ds) (Buf.tokTable.base + 4 * j + i) =
      (leBytes 2 (ds.getD j (0, 0)).1 ++ leBytes 2 (ds.getD j (0, 0)).2).getD i 0 := fun i hi => by
    have hs : Buf.tokTable.size = 96 := rfl
    rw [← key j i hi, commitTok, readByte_commitBuf, if_pos ⟨by omega, by omega⟩, Nat.add_assoc, Nat.add_sub_cancel_left]
  have e0 := r 0 (by omega)
  have e1 := r 1 (by omega)
  have e2 := r 2 (by omega)
  have e3 := r 3 (by omega)
  simp only [leBytes, List.cons_append, List.nil_append, List.getD_cons_zero, List.getD_cons_succ, Nat.add_zero] at e0 e1 e2 e3
  constructor
  · simp only [tokOff, bytesAt, List.range_succ, List.range_zero, List.nil_append, List.map_cons, List.map_nil, Nat.add_zero,
      List.cons_append, leVal, e0, e1, BitVec.toNat_ofNat]
    omega
  · simp only [tokLen, bytesAt, List.range_succ, List.range_zero, List.nil_append, List.map_cons, List.map_nil, Nat.add_zero,
      List.cons_append, leVal, Nat.add_assoc] at *
    rw [e2, e3]
    simp only [BitVec.toNat_ofNat]
    omega

/-! ### ZEROIZE -/

/-- Clearing buffers changes memory alone. -/
theorem clearBufs_eq (s : State) (bs : List Buf) : ∃ m, clearBufs s bs = { s with mem := m } := by
  unfold clearBufs
  induction bs generalizing s with
  | nil => exact ⟨s.mem, rfl⟩
  | cons b bs ih =>
    obtain ⟨m, h⟩ := ih (commitBuf s b [])
    exact ⟨m, h⟩

/-- Every byte of a cleared buffer is 0x00, every other byte as before. -/
theorem readByte_clearBufs (s : State) (bs : List Buf) (a : Nat) :
    readByte (clearBufs s bs) a = if bs.any (fun b => decide (b.holds a)) then 0 else readByte s a := by
  unfold clearBufs
  induction bs generalizing s with
  | nil => rfl
  | cons b bs ih =>
    rw [List.foldl_cons, ih, readByte_commitBuf, List.any_cons]
    by_cases h : b.holds a
    · simp [h]
    · simp [h]

/-- A push leaves everything but the table and its flags. -/
theorem pushEntry_eq (s : State) (n len : Nat) (w : Bytes) :
    ∃ wt o b, pushEntry s n len w = { s with wt := wt, tblOver := o, tblBad := b } := by
  unfold pushEntry setEntry
  split
  · split
    · exact ⟨_, s.tblOver, s.tblBad, rfl⟩
    · exact ⟨_, s.tblOver, true, rfl⟩
  · exact ⟨s.wt, true, s.tblBad, rfl⟩

end Sys2Proof.Machine
end

