-- ==== Sys2Proof/Tests/Slice0.lean ====
section
/-! SUPPORT. The model's own tests: ill-formed terms, words decoded bit by bit, one-step tests with results taken from the spec's
own examples and vectors (spec/95_test_vectors.md), and a witness for the hypotheses of every statement. -/

namespace Sys2Proof.Machine

/-! ### Well-formedness -/

theorem test_wf_byte_write_too_wide : Access.wellFormed (.write 0x100 .w1 0x100) = false := by decide

theorem test_wf_half_write_too_wide : Access.wellFormed (.write 0x100 .w2 0x10000) = false := by decide

theorem test_wf_write_of_three_bytes_as_two : HostEvent.wellFormed (.access (.write 0x100 .w2 0x123456)) = false := by decide

theorem test_wf_write_during_reset_too_wide : HostEvent.wellFormed (.rst (some (.write 0x100 .w1 0x100))) = false := by decide

theorem test_wf_accepts_widest_values :
    (Access.wellFormed (.write 0x100 .w1 0xFF) && Access.wellFormed (.write 0x100 .w2 0xFFFF) &&
      Access.wellFormed (.write 0x100 .w4 0xFFFFFFFF)) = true := by decide

/-! ### Decoding: words written out from the OPC column of R123, MBZ = 0 above -/

theorem test_decode_nop : decode 0b00000000000000000000000000000000 = .ok .nop := by decide
theorem test_decode_zeroize : decode 0b00000000000000000000000000000001 = .ok .zeroize := by decide
theorem test_decode_tbl_reset : decode 0b00000000000000000000000000000010 = .ok .tblReset := by decide
theorem test_decode_tbl_push : decode 0b00000000000000000000000000000011 = .ok .tblPush := by decide
theorem test_decode_tbl_seal : decode 0b00000000000000000000000000000100 = .ok .tblSeal := by decide
theorem test_decode_tbl_read : decode 0b00000000000000000000000000000101 = .ok .tblRead := by decide
theorem test_decode_tbl_find : decode 0b00000000000000000000000000000110 = .ok .tblFind := by decide
theorem test_decode_cksum : decode 0b00000000000000000000000000010000 = .ok .cksum := by decide
theorem test_decode_pack : decode 0b00000000000000000000000000010001 = .ok .pack := by decide
theorem test_decode_unpack : decode 0b00000000000000000000000000010010 = .ok .unpack := by decide
theorem test_decode_normalize : decode 0b00000000000000000000000000100000 = .ok .normalize := by decide
theorem test_decode_salt : decode 0b00000000000000000000000000100001 = .ok .salt := by decide
theorem test_decode_w2i : decode 0b00000000000000000000000000110000 = .ok .w2i := by decide
theorem test_decode_i2w : decode 0b00000000000000000000000000110001 = .ok .i2w := by decide
theorem test_decode_e2m : decode 0b00000000000000000000000001000000 = .ok .e2m := by decide
theorem test_decode_m2e_txt : decode 0b00000000000000000000000001000001 = .ok .m2eTxt := by decide
theorem test_decode_m2e_bin : decode 0b00000000000000000000000001000010 = .ok .m2eBin := by decide
theorem test_decode_val_txt : decode 0b00000000000000000000000001000011 = .ok .valTxt := by decide
theorem test_decode_val_bin : decode 0b00000000000000000000000001000100 = .ok .valBin := by decide
theorem test_decode_seedprep_txt : decode 0b00000000000000000000000001000101 = .ok .seedprepTxt := by decide
theorem test_decode_seedprep_bin : decode 0b00000000000000000000000001000110 = .ok .seedprepBin := by decide

/-- Vectors E2-E5 of spec/95_test_vectors.md §3.7. -/
theorem test_decode_illegal :
    [0x00000007, 0x000000FF, 0x00000100, 0x80000011].map decode = List.replicate 4 (.error .illegalCommand) := by decide

/-- The ends of the illegal ranges of R124. -/
theorem test_decode_illegal_ends :
    [0x0F, 0x13, 0x1F, 0x22, 0x2F, 0x32, 0x3F, 0x47].map decode = List.replicate 8 (.error .illegalCommand) := by decide

/-- The bytes of PACK's word lie little-endian, and a following byte is left over (R82). -/
theorem test_decode_bytes : decodeBytes [0x11, 0x00, 0x00, 0x00, 0xAA] = .ok (.pack, [0xAA]) := by decide

theorem test_decode_bytes_truncated : decodeBytes [0x11, 0x00, 0x00] = .error .truncated := by decide

theorem test_decode_table_word : decodeTableWord 32 0x31 = some .i2w ∧ decodeTableWord 8 0x31 = some .i2w := by decide

theorem test_encode_m2e_txt : encodeBytes .m2eTxt = [0x41, 0x00, 0x00, 0x00] := by decide

/-! ### Small states -/

/-- The state after a command. -/
def after (i : Instr) (s : State) : State :=
  match exec i s with
  | .next t => t
  | .fault _ => s
  | .refused _ => s

/-- The state after one step. -/
def stepped (s : State) : State :=
  match step s with
  | .next t => t
  | .fault _ => s
  | .refused _ => s

/-- After reset, with word `w` running and `left` cycles to go. -/
def running (w : Word) (left : Nat) : State := { State.reset with cmd := w, seq := .busy left }

/-- `s` with these events to come. -/
def hosted (s : State) (es : List HostEvent) : State := { s with host := es }

/-- The memory that holds bytes in one buffer and nothing else. -/
def oneBuf (b : Buf) (vs : Bytes) : List Host.Cell := (commitBuf State.reset b vs).mem

/-- An unsealed or sealed table of two words, 0 ↦ "a", 1 ↦ "b"; every later entry is missing (only for one-step tests). -/
def twoWords (valid : Bool) : State :=
  { State.reset with wt := [(0, [0x61]), (1, [0x62])], tblCount := 2048, tableValid := valid }

/-- "a b a a a a a a a a a a", twelve words. -/
def twelveWords : Bytes :=
  [0x61, 0x20, 0x62, 0x20, 0x61, 0x20, 0x61, 0x20, 0x61, 0x20, 0x61, 0x20] ++
  [0x61, 0x20, 0x61, 0x20, 0x61, 0x20, 0x61, 0x20, 0x61, 0x20, 0x61]

/-! ### Stepping from reset -/

/-- Example of R150 (vector E1): STATUS = 2, IRQ_STATUS = 1. -/
theorem test_step_nop_from_reset :
    statusWord (stepped (State.reset.withFetchWord 32 0x00)) = 0x002 ∧
      irqStatusWord (stepped (State.reset.withFetchWord 32 0x00)) = 0x001 ∧
      (stepped (State.reset.withFetchWord 32 0x00)).errIndex = 0xFFFF := by decide

/-- Vector E3. -/
theorem test_step_illegal_from_reset : statusWord (stepped (State.reset.withFetchWord 32 0x100)) = 0x092 := by decide

/-- Vector C1b: PACK with ENT_LEN = 0. -/
theorem test_step_pack_from_reset : statusWord (stepped (State.reset.withFetchWord 32 0x11)) = 0x012 := by decide

/-- Vector U5: UNPACK with WORD_COUNT = 0. -/
theorem test_step_unpack_from_reset : statusWord (stepped (State.reset.withFetchWord 32 0x12)) = 0x032 := by decide

/-- Vector K3: the table gate comes first. -/
theorem test_step_e2m_from_reset : statusWord (stepped (State.reset.withFetchWord 32 0x40)) = 0x022 := by decide

/-- Vector K10: RESULT = 0x20 with the table unsealed. -/
theorem test_step_val_txt_from_reset :
    statusWord (stepped (State.reset.withFetchWord 32 0x43)) = 0x002 ∧
      resultWord (stepped (State.reset.withFetchWord 32 0x43)) = 0x20 := by decide

/-- R300, also in the cycle in which the command is due: it commits nothing and raises no completion. -/
theorem test_step_rst_at_completion :
    stepped (hosted { running 0x03 0 with irqEn := true, stageLen := 1 } [.rst none]) = State.reset ∧
      irq (stepped (hosted { running 0x00 0 with irqEn := true } [.rst none])) = false := by decide

/-! ### One command -/

/-- Vector E7: a success after a failure clears ERR. -/
theorem test_nop_clears_err : (after .nop { State.reset with done := true, err := 5 }).err = 0 := by decide

/-- Vectors E6, T16. -/
theorem test_zeroize :
    readByte (after .zeroize { twoWords true with mem := oneBuf .entBuf [1, 2, 3], entLen := 16 }) 0x100 = 0 ∧
      statusWord (after .zeroize (twoWords true)) = 0x102 := by decide

theorem test_zeroize_keeps_table : wtEntry (after .zeroize (twoWords true)).wt 1 = [0x62] := by decide

/-- Vector T8, and the example of R191. -/
theorem test_tbl_reset : statusWord (after .tblReset (twoWords true)) = 0x002 ∧ (after .tblReset (twoWords true)).wt = [] := by
  decide

/-- Example of R193: STAGE_BUF = "w0000", STAGE_LEN = 5. -/
theorem test_tbl_push :
    wtEntry (after .tblPush { State.reset with mem := oneBuf .stageBuf [0x77, 0x30, 0x30, 0x30, 0x30], stageLen := 5 }).wt 0 =
        [0x77, 0x30, 0x30, 0x30, 0x30] ∧
      (after .tblPush { State.reset with mem := oneBuf .stageBuf [0x77, 0x30, 0x30, 0x30, 0x30], stageLen := 5 }).tblCount = 1 := by
  decide

/-- Vectors T3c, T3d, T6 and the 2049th push of T3b. -/
theorem test_tbl_push_bad :
    (after .tblPush State.reset).tblBad = true ∧
      (after .tblPush { State.reset with mem := oneBuf .stageBuf [0xC3], stageLen := 1 }).tblBad = true ∧
      statusWord (after .tblPush (twoWords true)) = 0x1A2 ∧
      statusWord (after .tblPush { State.reset with tblCount := 2048, stageLen := 0 }) = 0x202 := by decide

/-- Vectors T2, T3a, T7. -/
theorem test_tbl_seal :
    statusWord (after .tblSeal (twoWords false)) = 0x102 ∧
      statusWord (after .tblSeal { twoWords false with tblCount := 2047 }) = 0x022 ∧
      statusWord (after .tblSeal (twoWords true)) = 0x102 := by decide

/-- Vectors T3b, T3c. -/
theorem test_tbl_seal_flags :
    statusWord (after .tblSeal { twoWords false with tblCount := 2049, tblOver := true }) = 0x222 ∧
      statusWord (after .tblSeal { twoWords false with tblBad := true }) = 0x422 := by decide

/-- As vector T9, on the two-word table. -/
theorem test_tbl_read :
    (after .tblRead { twoWords true with lookupIdx := 1 }).stageLen = 1 ∧
      readByte (after .tblRead { twoWords true with lookupIdx := 1 }) 0x180 = 0x62 := by decide

/-- Vectors T10, T15. -/
theorem test_tbl_read_stops :
    statusWord (after .tblRead { twoWords true with lookupIdx := 2048 }) = 0x142 ∧
      (after .tblRead { twoWords true with lookupIdx := 2048 }).errIndex = 0 ∧
      statusWord (after .tblRead State.reset) = 0x022 := by decide

/-- As vectors T5 and T11: with a duplicate the lowest index wins. -/
theorem test_tbl_find :
    (after .tblFind { twoWords true with wt := [(0, [0x61]), (1, [0x62]), (2, [0x62])],
                                         mem := oneBuf .stageBuf [0x62], stageLen := 1 }).lookupIdx = 1 := by decide

/-- Vectors T12, T14: byte-exact, no word longer than 64. -/
theorem test_tbl_find_unknown :
    statusWord (after .tblFind { twoWords true with mem := oneBuf .stageBuf [0x42], stageLen := 1 }) = 0x142 ∧
      statusWord (after .tblFind { twoWords true with stageLen := 65 }) = 0x142 := by decide

/-- Vector C1c. -/
theorem test_cksum_bad_lengths :
    ∀ l ∈ ([15, 17, 21, 33, 255] : List Byte), statusWord (after .cksum { State.reset with entLen := l }) = 0x012 := by decide

/-- R163: CSN for L = 16 and 32. -/
theorem test_cksum_csn :
    (after .cksum { State.reset with entLen := 16 }).csn = 4 ∧ (after .cksum { State.reset with entLen := 32 }).csn = 8 := by
  decide

/-- The slice of R161 on the digest bytes of the table of spec/95_test_vectors.md §3.1: 0x87 → 0x80, 0xDE → 0xD8, 0x9D → 0x9C,
0x3A → 0x3A, 0xAF → 0xAF. -/
theorem test_slice :
    slice 0x87 4 = 0x80 ∧ slice 0xDE 5 = 0xD8 ∧ slice 0x9D 6 = 0x9C ∧ slice 0x3A 7 = 0x3A ∧ slice 0xAF 8 = 0xAF := by decide

/-- Vector V1, the indices that do not depend on the hash. -/
theorem test_pack_indices :
    (List.range 11).map (packIdx (List.replicate 16 0x7F) 0x80) =
      [1019, 2015, 1790, 2039, 1983, 1533, 2031, 1919, 1019, 2015, 1790] := by decide

/-- Vector V1: the last index, with d[0] = 0x87; and vector 32 × 0x80 with d[0] = 0xBD. -/
theorem test_pack_last_index :
    packIdx (List.replicate 16 0x7F) 0x80 11 = 2040 ∧ packIdx (List.replicate 32 0x80) 0xBD 23 = 189 := by decide

/-- V2: the word counts. -/
theorem test_pack_word_count :
    (after .pack { State.reset with entLen := 16 }).wordCount = 12 ∧
      (after .pack { State.reset with entLen := 32 }).wordCount = 24 := by decide

/-- Vectors U1 and U3 up to the hash: the entropy and the checksum bits that the indices hold. -/
theorem test_unpack_entropy :
    ungroupEntropy [1019, 2015, 1790, 2039, 1983, 1533, 2031, 1919, 1019, 2015, 1790, 2040] = List.replicate 16 0x7F ∧
      ungroupCsv [1019, 2015, 1790, 2039, 1983, 1533, 2031, 1919, 1019, 2015, 1790, 2040] = 8 ∧
      ungroupCsv (List.replicate 23 0 ++ [102]) = 102 := by decide

/-- Vectors U7 and U8: the first index above 2047. -/
theorem test_unpack_unknown_word :
    (after .unpack { State.reset with wordCount := 12, mem := oneBuf .idxBuf [0, 0, 0, 0, 0, 0, 0, 0, 0, 0, 0x00, 0x08] }).errIndex =
        5 ∧
      (after .unpack { State.reset with wordCount := 12,
                                        mem := oneBuf .idxBuf [0, 0, 0, 0, 0, 0, 0xFF, 0xFF, 0, 0, 0x00, 0x08] }).errIndex = 3 := by
  decide

/-- Vectors N5, N6. -/
theorem test_normalize_stops :
    statusWord (after .normalize { State.reset with mem := oneBuf .textIn [0xFF], textLen := 1 }) = 0x072 ∧
      statusWord (after .normalize { State.reset with textLen := 2049 }) = 0x082 := by decide

/-- Vector N2 and the corner case of R222: TEXT_LEN = 0 is one empty token. -/
theorem test_normalize_empty_text : statusWord (after .normalize State.reset) = 0x032 := by decide

/-- Vector S1 and the corner case of R224: PASS_LEN = 0 gives SALT_LEN 8 and the bytes of "mnemonic". -/
theorem test_salt_empty_passphrase :
    statusWord (after .salt State.reset) = 0x002 ∧ (after .salt State.reset).saltLen = 8 ∧
      bytesAt (after .salt State.reset) 0x4000 9 = [0x6D, 0x6E, 0x65, 0x6D, 0x6F, 0x6E, 0x69, 0x63, 0x00] := by decide

/-- Vectors S4, S5. -/
theorem test_salt_stops :
    statusWord (after .salt { State.reset with passLen := 1025 }) = 0x082 ∧
      statusWord (after .salt { State.reset with mem := oneBuf .passIn [0xC3, 0x28], passLen := 2 }) = 0x072 := by decide

/-- The example of R19. -/
theorem test_split_sp : splitSp [0x61, 0x20, 0x20, 0x62] = [[0x61], [], [0x62]] ∧ splitSp [] = [[]] := by decide

/-- R221: offsets of "ab c": (0, 2), (3, 1). -/
theorem test_descriptors : descriptors 0 (splitSp [0x61, 0x62, 0x20, 0x63]) = [(0, 2), (3, 1)] := by decide

/-- UTF-8 (93 G3): "é", U+3000, U+10FFFF are well-formed; C0 80, a surrogate, above U+10FFFF and a cut sequence are not. -/
theorem test_utf8 :
    utf8Wf [0xC3, 0xA9] = true ∧ utf8Wf [0xE3, 0x80, 0x80] = true ∧ utf8Wf [0xF4, 0x8F, 0xBF, 0xBF] = true ∧
      utf8Wf [0xC0, 0x80] = false ∧ utf8Wf [0xED, 0xA0, 0x80] = false ∧ utf8Wf [0xF4, 0x90, 0x80, 0x80] = false ∧
      utf8Wf [0xE3, 0x80] = false ∧ utf8Wf [0x80] = false := by decide

/-- As vector L1 on the two-word table: the tokens of NORM_BUF become indices. -/
theorem test_w2i :
    half (after .w2i (commitNorm (twoWords true) ⟨twelveWords, splitSp twelveWords⟩)) 1 = 1 ∧
      (after .w2i (commitNorm (twoWords true) ⟨twelveWords, splitSp twelveWords⟩)).err = 0 := by decide

/-- "a a a a a c a a a a a a", twelve words. -/
def unknownSixth : Bytes :=
  [0x61, 0x20, 0x61, 0x20, 0x61, 0x20, 0x61, 0x20, 0x61, 0x20, 0x63, 0x20] ++
  [0x61, 0x20, 0x61, 0x20, 0x61, 0x20, 0x61, 0x20, 0x61, 0x20, 0x61]

/-- Vectors L4, L5. -/
theorem test_w2i_stops :
    statusWord (after .w2i { twoWords true with wordCount := 11 }) = 0x132 ∧
      statusWord (after .w2i (commitNorm (twoWords true) ⟨unknownSixth, splitSp unknownSixth⟩)) = 0x142 ∧
      (after .w2i (commitNorm (twoWords true) ⟨unknownSixth, splitSp unknownSixth⟩)).errIndex = 5 := by decide

/-- As vector L2 on the two-word table: "a b a … a", 23 bytes. -/
theorem test_i2w :
    (after .i2w { twoWords true with wordCount := 12, mem := oneBuf .idxBuf [0, 0, 1, 0] }).outLen = 23 ∧
      bytesAt (after .i2w { twoWords true with wordCount := 12, mem := oneBuf .idxBuf [0, 0, 1, 0] }) 0x2000 5 =
        [0x61, 0x20, 0x62, 0x20, 0x61] := by decide

/-- Vector L3. -/
theorem test_i2w_unknown_word :
    statusWord (after .i2w { twoWords true with wordCount := 12, mem := oneBuf .idxBuf [0, 0, 0, 8] }) = 0x142 ∧
      (after .i2w { twoWords true with wordCount := 12, mem := oneBuf .idxBuf [0, 0, 0, 8] }).errIndex = 1 := by decide

/-- Vector K2. -/
theorem test_e2m_bad_length : statusWord (after .e2m { twoWords true with entLen := 17 }) = 0x112 := by decide

theorem test_e2m_word_count : (after .e2m { twoWords true with entLen := 20 }).wordCount = 15 := by decide

/-- R241: the gate before the text checks, the capacity before the UTF-8 check. -/
theorem test_m2e_txt_order :
    (after .m2eTxt { State.reset with textLen := 2049 }).err = 2 ∧ (after .m2eTxt { twoWords true with textLen := 2049 }).err = 8 := by
  decide

/-- Vector K13. -/
theorem test_m2e_bin_unknown_word :
    statusWord (after .m2eBin { twoWords true with wordCount := 12,
                                                   mem := oneBuf .idxBuf [0, 0, 0, 0, 0, 0, 0, 0, 0, 0, 0x00, 0x08] }) = 0x142 := by
  decide

/-- As vector K9: a failed check is reported in RESULT only. -/
theorem test_val_txt_reports :
    resultWord (after .valTxt { twoWords true with textLen := 2049 }) = 0x80 ∧
      statusWord (after .valTxt { twoWords true with textLen := 2049 }) = 0x102 := by decide

/-- Vectors K11 and K14. -/
theorem test_val_bin_reports :
    resultWord (after .valBin { twoWords true with wordCount := 13 }) = 0x30 ∧
      resultWord (after .valBin { twoWords true with wordCount := 12, mem := oneBuf .idxBuf [0, 0, 0, 8] }) = 0x40 ∧
      (after .valBin { twoWords true with wordCount := 12, mem := oneBuf .idxBuf [0, 0, 0, 8] }).errIndex = 1 := by decide

/-- R245: the command needs no table, and the capacity check of the text comes first. -/
theorem test_seedprep_txt_capacity : statusWord (after .seedprepTxt { State.reset with textLen := 2049 }) = 0x082 := by decide

/-- Vector K20, and R246: the passphrase's checks come after the indices'. -/
theorem test_seedprep_bin_order :
    statusWord (after .seedprepBin State.reset) = 0x022 ∧
      (after .seedprepBin { twoWords true with wordCount := 13, passLen := 1025 }).err = 3 ∧
      (after .seedprepBin { twoWords true with wordCount := 12, passLen := 1025 }).err = 8 := by decide

/-! ### The port: vectors M1-M12 and H3-H6 -/

theorem test_port_reads :
    memRead State.reset 0x000 4 = (0x524B0001, .okay) ∧ memRead State.reset 0x00C 2 = (0, .error) ∧
      memRead State.reset 0x050 4 = (0, .okay) ∧ memRead State.reset 0x120 4 = (0, .error) ∧
      memRead State.reset 0x141 2 = (0, .error) ∧ memRead State.reset 0x11E 4 = (0, .error) ∧
      memRead State.reset 0x9000 4 = (0, .error) ∧ memRead State.reset 0x8FFF 1 = (0, .okay) := by decide

theorem test_port_writes :
    memWrite State.reset 0x000 4 0 = (State.reset, .okay) ∧ memWrite State.reset 0x2000 4 1 = (State.reset, .okay) ∧
      (memWrite State.reset 0x100 4 0x04030201).1.mem = [(0x100, 1), (0x101, 2), (0x102, 3), (0x103, 4)] := by decide

/-- Vector M8 on V1's first two indices. -/
theorem test_port_mixed_widths :
    memRead { State.reset with mem := oneBuf .idxBuf [0xFB, 0x03, 0xDF, 0x07] } 0x142 2 = (0x07DF, .okay) ∧
      memRead { State.reset with mem := oneBuf .idxBuf [0xFB, 0x03, 0xDF, 0x07] } 0x140 1 = (0xFB, .okay) ∧
      memRead { State.reset with mem := oneBuf .idxBuf [0xFB, 0x03, 0xDF, 0x07] } 0x140 4 = (0x07DF03FB, .okay) := by decide

/-- Writing 0x00 takes a byte out of the memory list again. -/
theorem test_port_write_zero : (memWrite { State.reset with mem := [(0x100, 5)] } 0x100 1 0).1.mem = [] := by decide

/-- Vectors H4-H6. -/
theorem test_busy_writes :
    errflagsWord (memWrite (running 0x11 3) 0x008 4 0x10).1 = 0x1 ∧ errflagsWord (memWrite (running 0x11 3) 0x018 4 20).1 = 0x2 ∧
      (memWrite (running 0x11 3) 0x018 4 20).1.entLen = 0 ∧
      errflagsWord (memWrite { State.reset with overrun := true, busyWr := true } 0x010 4 3).1 = 0 := by decide

/-- R91, R306: IRQ_EN written while BUSY is in force at once, CTRL reads as before the command until it completes. -/
theorem test_ctrl_while_busy :
    memRead (memWrite (running 0x00 3) 0x004 4 1).1 0x004 4 = (0, .okay) ∧
      irq { (memWrite (running 0x00 3) 0x004 4 1).1 with doneIrq := true } = true ∧
      memRead (after .nop (memWrite (running 0x00 3) 0x004 4 1).1) 0x004 4 = (1, .okay) ∧
      memRead (memWrite (issue { State.reset with irqEn := true } 0 3) 0x004 4 0).1 0x004 4 = (1, .okay) := by decide

/-- Vector H3: the interrupt follows a completion and is cleared by writing 1. -/
theorem test_irq :
    irq (after .nop { State.reset with irqEn := true }) = true ∧
      irq (memWrite (after .nop { State.reset with irqEn := true }) 0x014 4 1).1 = false := by decide

/-- Vector H8: a soft reset abandons the running command. -/
theorem test_soft_reset_while_busy :
    stepped (hosted (running 0x40 3) [wr32 0x004 2]) = { State.reset with resp := some (.write .okay) } := by decide

/-- R128: `wait` stays while BUSY = 1 and is done when it is 0. -/
theorem test_wait :
    (stepped (hosted (running 0x00 3) [.wait])).host = [.wait] ∧ (stepped (hosted State.reset [.wait])).host = [] := by decide

/-- `run NOP` and `wrstr` as queue entries (R128). -/
theorem test_host_program :
    runOp .pack = [.access (.write 0x008 .w4 0x11), .wait] ∧
      wrstr 0x180 [0x77, 0x30] = [.access (.write 0x180 .w1 0x77), .access (.write 0x181 .w1 0x30)] := by decide

/-! ### A sealed table of 2048 distinct words -/

/-- Word i: two bytes, 0x40 + i / 64 and 0x40 + i mod 64. No word holds a space. -/
def word (i : Nat) : Bytes := [BitVec.ofNat 8 (0x40 + i / 64), BitVec.ofNat 8 (0x40 + i % 64)]

/-- The table i ↦ word i of n words. -/
def tableOf (n : Nat) : List (Nat × Bytes) := (List.range n).map (fun i => (i, word i))

theorem mem_tableOf {n : Nat} {e : Nat × Bytes} (h : e ∈ tableOf n) : e.1 < n ∧ e.2 = word e.1 := by
  simp only [tableOf, List.mem_map, List.mem_range] at h
  obtain ⟨i, hi, rfl⟩ := h
  exact ⟨hi, rfl⟩

theorem tableOf_wf (n : Nat) : Sparse.wf [] (tableOf n) := by
  constructor
  · unfold tableOf
    rw [List.pairwise_map]
    exact List.pairwise_lt_range
  · intro e he
    rw [(mem_tableOf he).2]; simp [word]

theorem get_range' (k n i : Nat) :
    Sparse.get [] ((List.range' k n).map (fun i => (i, word i))) i = if k ≤ i ∧ i < k + n then word i else [] := by
  induction n generalizing k with
  | zero => simp
  | succ n ih =>
    simp only [List.range'_succ, List.map_cons, Sparse.get, ih]
    by_cases h : k = i
    · subst h; simp
    · simp only [h, if_false]
      congr 1
      simp only [eq_iff_iff]; omega

theorem get_tableOf (n i : Nat) (h : i < n) : Sparse.get [] (tableOf n) i = word i := by
  unfold tableOf
  rw [List.range_eq_range', get_range']
  simp [h]

/-- The sealed table of the witnesses. -/
@[irreducible] def fullTable : List (Nat × Bytes) := tableOf 2048

theorem wtEntry_fullTable (i : Nat) (h : i < 2048) : wtEntry fullTable i = word i := by
  unfold wtEntry fullTable
  exact get_tableOf 2048 i h

theorem mem_fullTable {e : Nat × Bytes} (h : e ∈ fullTable) : e.1 < 2048 ∧ e.2 = word e.1 := by
  unfold fullTable at h
  exact mem_tableOf h

theorem fullTable_wf : Sparse.wf [] fullTable := by
  unfold fullTable
  exact tableOf_wf 2048

theorem word_bytes (i : Nat) (h : i < 2048) : ∀ b ∈ word i, 0x40 ≤ b.toNat ∧ b.toNat ≤ 0x7F := by
  simp only [word, List.forall_mem_cons, BitVec.toNat_ofNat]
  exact ⟨by omega, by omega, by simp⟩

theorem word_wf (i : Nat) (h : i < 2048) : utf8Wf (word i) = true :=
  utf8Wf_ascii _ (fun b hb => BitVec.le_def.2 (word_bytes i h b hb).2)

theorem word_no_space (i : Nat) (h : i < 2048) : (0x20 : Byte) ∉ word i := fun hs => by
  have := (word_bytes i h _ hs).1
  revert this; decide

theorem word_inj (i j : Nat) (hi : i < 2048) (hj : j < 2048) (h : word i = word j) : i = j := by
  simp only [word, List.cons.injEq, and_true] at h
  have h1 := congrArg BitVec.toNat h.1
  have h2 := congrArg BitVec.toNat h.2
  simp only [BitVec.toNat_ofNat] at h1 h2
  omega

/-- After reset, with the full table sealed, memory `m` and WORD_COUNT `n`. -/
def sealedState (m : List Host.Cell) (n : Half) : State :=
  { State.reset with wt := fullTable, tblCount := 2048, tableValid := true, mem := m, wordCount := n }

theorem fullTable_inv (s : State) (hw : s.wt = fullTable) (hc : s.tblCount = 2048) (ho : s.tblOver = false)
    (hb : s.tblBad = false) : TableInv s where
  canonical := hw ▸ fullTable_wf
  pushed := by
    intro e he
    rw [hw] at he
    have := (mem_fullTable he).1
    simpa [hc] using this
  text := by
    intro e he
    rw [hw] at he
    obtain ⟨hi, h2⟩ := mem_fullTable he
    rw [h2]
    exact ⟨by simp [word], word_wf e.1 hi⟩
  noGap := by
    intro _ i hi
    simp only [hc] at hi
    have : i < 2048 := by simpa using hi
    rw [hw, wtEntry_fullTable i this]; simp [word]
  overflow := by simp [ho, hc]
  sealed := by simp [ho, hc, hb]

theorem sealedState_inv (m : List Host.Cell) (n : Half) (h1 : Memory.wf m) (h2 : ∀ c ∈ m, ∃ b ∈ Buf.all, b.holds c.1) :
    Inv (sealedState m n) where
  mem := ⟨h1, fun c hc => let ⟨b, _, h⟩ := h2 c hc; ⟨b, h⟩⟩
  table := fullTable_inv _ rfl rfl rfl rfl
  status := by constructor <;> simp [sealedState, State.reset, isBusy, legalErr, legalReason]
  lengths := by constructor <;> simp [sealedState, State.reset]

theorem sealed_isRidx (s : State) (hw : s.wt = fullTable) (i : Nat) (h : i < 2048) : IsRidx s (word i) i := by
  refine ⟨h, by rw [hw, wtEntry_fullTable i h], fun j hj he => ?_⟩
  rw [hw, wtEntry_fullTable j (by omega)] at he
  have := word_inj j i (by omega) h he
  omega

theorem sealed_noRidx_empty (s : State) (hw : s.wt = fullTable) : NoRidx s [] := by
  intro j hj
  rw [hw, wtEntry_fullTable j hj]; simp [word]

/-! ### Witnesses: encoding and steps -/

/-- For IllegalWordsCompleteWithCode9, accepted and completed. -/
theorem witness_illegal_word :
    State.reset.seq = .idle ∧ decode 0x00000007 = .error .illegalCommand ∧ (running 0x47 0).seq = .busy 0 ∧
      (∀ a es, (running 0x47 0).host ≠ .rst a :: es) ∧ decode (running 0x47 0).cmd = .error .illegalCommand :=
  ⟨rfl, by decide, rfl, nofun, by decide⟩

/-- For StepRunsTheDecodedCommand: a command is due, and no edge of RST, with an empty queue and with a host access to come. -/
theorem witness_step_runs :
    (running 0x11 0).seq = .busy 0 ∧ (∀ a es, (running 0x11 0).host ≠ .rst a :: es) ∧
      (∀ a es, (hosted (running 0x11 0) [rd32 0x00C]).host ≠ .rst a :: es) ∧ decode (running 0x11 0).cmd = .ok .pack :=
  ⟨rfl, nofun, nofun, by decide⟩

/-- For CmdWriteAcceptsOrOverruns, while IDLE and while BUSY. -/
theorem witness_cmd_write :
    (hosted State.reset [wr32 0x008 0x11]).seq = .idle ∧
      (hosted State.reset [wr32 0x008 0x11]).host = [.access (.write 0x008 .w4 0x11)] ∧
      (hosted (running 0x11 1) [wr32 0x008 0x10]).seq = .busy 1 ∧
      (hosted (running 0x11 1) [wr32 0x008 0x10]).host = [.access (.write 0x008 .w4 0x10)] := by decide

/-- For AcceptedCommandCompletes: a running command with cycles left, and with none. -/
theorem witness_accepted :
    (hosted (running 0x11 2) [.quiet, rd32 0x00C, wr32 0x004 1]).seq = .busy 2 ∧
      (hosted (running 0x11 2) [.quiet, rd32 0x00C, wr32 0x004 1]).host.all (fun e => !e.resets) = true ∧
      (running 0x11 0).seq = .busy 0 ∧ (running 0x11 0).host = [] := by decide

/-- For InputsStayFixedWhileBusy: a write of ENT_LEN arrives. -/
theorem witness_inputs_fixed :
    (hosted (running 0x11 1) [wr32 0x018 20]).seq = .busy (0 + 1) ∧
      ∀ e es, (hosted (running 0x11 1) [wr32 0x018 20]).host = e :: es → e.resets = false := by
  refine ⟨rfl, fun e es h => ?_⟩
  cases h; decide

/-- For BusyWriteTable, BufferAccessRule, LittleEndianBufferWrite, ReadOnlyTargetsIgnoreWrites: every row of the buffer map has an
aligned first and last access of each size inside it, and there are rows of both classes. -/
theorem witness_buffer_ends (n : Width) :
    (∀ row ∈ specBufferMap, row.first % n.bytes = 0 ∧ row.covers row.first n.bytes ∧
      (row.last + 1 - n.bytes) % n.bytes = 0 ∧ row.covers (row.last + 1 - n.bytes) n.bytes ∧ 0x100 ≤ row.first) ∧
      (∃ row ∈ specBufferMap, row.rw = true) ∧ (∃ row ∈ specBufferMap, row.rw = false) := by
  cases n <;> decide

theorem witness_busy : isBusy (running 0x11 0) = true ∧ isBusy (running 0x11 5) = true := by decide

/-- For RegisterAccessesAre32Bit: a byte at the block's last offset, a halfword, a misaligned word. -/
theorem witness_register_access :
    (0xFF ≤ 0xFF ∧ ¬(Width.w1 = .w4 ∧ 0xFF % 4 = 0)) ∧ (0x0C ≤ 0xFF ∧ ¬(Width.w2 = .w4 ∧ 0x0C % 4 = 0)) ∧
      (0xFE ≤ 0xFF ∧ ¬(Width.w4 = .w4 ∧ 0xFE % 4 = 0)) ∧ (0xFC ≤ 0xFF ∧ Width.w4 = .w4 ∧ 0xFC % 4 = 0) := by decide

/-- For ReadOnlyTargetsIgnoreWrites: the first and the last reserved offset. -/
theorem witness_reserved_offsets : 0x13 ≤ 0x04C / 4 ∧ 0x0FC / 4 ≤ 0x3F ∧ regAt 0x04C = none ∧ regAt 0x0FC = none := by decide

/-- For BufferAccessRule: the gap after ENT_BUF, an access across its end, a misaligned one, the offset after NORM_BUF. -/
theorem witness_no_buffer :
    (∀ row ∈ specBufferMap, ¬row.covers 0x120 Width.w4.bytes) ∧ 0x11E % Width.w4.bytes ≠ 0 ∧
      (∀ row ∈ specBufferMap, ¬row.covers 0x9000 Width.w1.bytes) := by decide

/-- For LittleEndianBufferWrite, OperandRegisterWriteRead. -/
theorem witness_idle_rw :
    State.reset.seq = .idle ∧ BufRow.mk 0x0100 0x011F .entBuf true ∈ specBufferMap ∧
      BufRow.mk 0x3000 0x33FF .passIn true ∈ specBufferMap := by decide

/-- For OperandRegisterWriteRead and BusyWriteTable: every row of the operand registers, of 8 bits and of 16. -/
theorem witness_operand_register :
    (0x018, Reg.entLen, 8) ∈ specOperandRegisters ∧ (0x01C, Reg.wordCount, 16) ∈ specOperandRegisters ∧
      (0x020, Reg.textLen, 16) ∈ specOperandRegisters ∧ (0x024, Reg.passLen, 16) ∈ specOperandRegisters ∧
      (0x03C, Reg.stageLen, 8) ∈ specOperandRegisters ∧ (0x040, Reg.lookupIdx, 16) ∈ specOperandRegisters := by decide

/-- For ReadsHaveNoSideEffect and WaitPollsStatus, IDLE and BUSY. -/
theorem witness_read_events :
    (hosted State.reset [rd32 0x00C]).host = [.access (.read 0x00C .w4)] ∧ (hosted State.reset [.wait]).host = [.wait] ∧
      (hosted (running 0x11 1) [.wait]).host = [.wait] ∧ (hosted (running 0x11 1) [.wait]).seq = .busy (0 + 1) := by decide

/-! ### Witnesses: reset, interrupt, whole machine -/

/-- For SoftResetEqualsReset, ControlRegisterWrites: bit 1 set, with and without bit 0; bit 1 clear. -/
theorem witness_ctrl_values :
    (0x2 : Word).getLsbD 1 = true ∧ (0x3 : Word).getLsbD 1 = true ∧ (0x1 : Word).getLsbD 1 = false ∧
      (hosted (running 0x11 1) [wr32 0x004 2]).host = [.access (.write 0x004 .w4 2)] := by decide

/-- For HardwareResetEqualsReset: with an access at the same time and without one; while BUSY, when the command is due, and while
IDLE. -/
theorem witness_rst_events :
    (hosted (running 0x11 1) [.rst none]).host = [.rst none] ∧
      (hosted (running 0x11 0) [.rst none]).host = [.rst none] ∧ (hosted (running 0x11 0) [.rst none]).seq = .busy 0 ∧
      (hosted State.reset [.rst (some (.read 0x00C .w4))]).host = [.rst (some (.read 0x00C .w4))] := by decide

/-- For CompletionRaisesInterrupt and ReservedCodesNeverProduced. -/
theorem witness_completion_step :
    ∃ t, (running 0x11 0).seq = .busy 0 ∧ (∀ a es, (running 0x11 0).host ≠ .rst a :: es) ∧ step (running 0x11 0) = .next t :=
  ⟨_, rfl, nofun, rfl⟩

/-- For FailureChangesNothingElse. -/
theorem witness_failing_command : ∃ t, exec .cksum State.reset = .next t ∧ t.err ≠ 0 := ⟨_, rfl, by decide⟩

/-- For CommandsWriteOnlyTheirCommitSet: a command that commits. -/
theorem witness_committing_command : ∃ t, exec .tblSeal (twoWords false) = .next t ∧ t.err = 0 := ⟨_, rfl, by decide⟩

/-- For UnsealedTableGate. -/
theorem witness_unsealed : State.reset.tableValid = false := rfl

/-- For SealedTableIsImmutable: it stays sealed; it becomes sealed; TBL_RESET and a reset unseal it. -/
theorem witness_seal_changes :
    (∃ t, step { sealedState [] 0 with seq := .busy 0 } = .next t ∧ t.tableValid = true) ∧
      (∃ t, step { sealedState [] 0 with seq := .busy 0, cmd := 4, tableValid := false } = .next t ∧ t.tableValid = true) ∧
      (∃ t, step { sealedState [] 0 with seq := .busy 0, cmd := 2 } = .next t ∧ t.tableValid = false) ∧
      (∃ t, step { sealedState [] 0 with host := [wr32 0x004 2] } = .next t ∧ t.tableValid = false) :=
  ⟨⟨_, rfl, rfl⟩, ⟨_, rfl, rfl⟩, ⟨_, rfl, rfl⟩, ⟨_, rfl, rfl⟩⟩

/-- For StepKeepsInvariant and StepKeepsTokensInside: a sealed table, a running command. -/
theorem witness_step_from_invariant : ∃ t, Inv (sealedState [] 12) ∧ TokensInside (sealedState [] 12) ∧
    step (sealedState [] 12) = .next t :=
  ⟨_, sealedState_inv [] 12 (by decide) (by decide), ⟨by decide, by decide⟩, rfl⟩

/-- For ZeroizeClearsAllData: a state with data in a buffer. -/
theorem witness_memory_invariant : MemInv (sealedState (oneBuf .entBuf [1, 2, 3]) 12) :=
  (sealedState_inv (oneBuf .entBuf [1, 2, 3]) 12 (by decide) (by decide)).mem

/-! ### Witnesses: table commands -/

/-- For TblPushAppendsEntry: a good entry of 64 bytes; entries of 0 and 65 bytes; ill-formed text; a surplus push; a sealed
table. -/
theorem witness_push_good :
    { State.reset with mem := oneBuf .stageBuf (List.replicate 64 0x61), stageLen := 64, tblCount := 2047 }.stageLen.toNat ≤ 64 ∧
      utf8Wf (stagedOf { State.reset with mem := oneBuf .stageBuf (List.replicate 64 0x61), stageLen := 64,
                                          tblCount := 2047 }) = true ∧
      (2047 : Half).toNat < 2048 := by decide

theorem witness_push_bad :
    State.reset.stageLen.toNat = 0 ∧ 64 < (65 : Byte).toNat ∧ State.reset.tblCount.toNat < 2048 ∧
      utf8Wf (stagedOf { State.reset with mem := oneBuf .stageBuf [0xC3], stageLen := 1 }) = false ∧
      2048 ≤ (2048 : Half).toNat := by decide

/-- For TblSealValidatesTable. -/
theorem witness_seal_cases :
    (sealedState [] 0).tableValid = true ∧ (twoWords false).tableValid = false ∧ (twoWords false).tblCount.toNat = 2048 ∧
      (twoWords false).tblOver = false ∧ (twoWords false).tblBad = false ∧ (2047 : Half).toNat ≠ 2048 := ⟨rfl, by decide⟩

/-- For TblReadReturnsEntry: the last index of a sealed table, and the first index past it. -/
theorem witness_read_last :
    { sealedState [] 0 with lookupIdx := 2047 }.tableValid = true ∧ (2047 : Half).toNat ≤ 2047 ∧ 2047 < (2048 : Half).toNat ∧
      (wtEntry { sealedState [] 0 with lookupIdx := 2047 }.wt 2047).length ≤ 64 := by
  refine ⟨rfl, by decide, by decide, ?_⟩
  show (wtEntry fullTable 2047).length ≤ 64
  rw [wtEntry_fullTable 2047 (by decide)]
  decide

/-- For TblFindReturnsLowestIndex: the last word is staged; no word is staged; a word of 65 bytes. -/
theorem witness_find_last :
    TableInv { sealedState (oneBuf .stageBuf (word 2047)) 0 with stageLen := 2 } ∧
      IsRidx { sealedState (oneBuf .stageBuf (word 2047)) 0 with stageLen := 2 }
        (stagedOf { sealedState (oneBuf .stageBuf (word 2047)) 0 with stageLen := 2 }) 2047 := by
  refine ⟨fullTable_inv _ rfl rfl rfl rfl, ?_⟩
  have h : stagedOf { sealedState (oneBuf .stageBuf (word 2047)) 0 with stageLen := 2 } = word 2047 := by decide
  rw [h]
  exact sealed_isRidx _ rfl 2047 (by decide)

theorem witness_find_none : NoRidx (sealedState [] 0) (stagedOf (sealedState [] 0)) ∧ 64 < (65 : Byte).toNat :=
  ⟨sealed_noRidx_empty _ rfl, by decide⟩

/-- For the unsealed clauses of TblReadReturnsEntry, TblFindReturnsLowestIndex, W2iLooksUpEveryToken, I2wWritesPhrase,
E2mEncodesEntropy, M2eTxtDecodesPhrase, SeedprepBinPreparesBuffers: the full table before its seal. -/
theorem witness_unsealed_table :
    Inv { sealedState [] 0 with tableValid := false } ∧ { sealedState [] 0 with tableValid := false }.tableValid = false := by
  have h := sealedState_inv [] 0 (by decide) (by decide)
  exact ⟨⟨⟨h.mem.1, h.mem.2⟩, fullTable_inv _ rfl rfl rfl rfl,
    ⟨h.status.1, h.status.2, h.status.3, h.status.4, h.status.5⟩,
    ⟨h.lengths.1, h.lengths.2, h.lengths.3, h.lengths.4⟩⟩, rfl⟩

/-! ### Witnesses: entropy and indices -/

/-- For CksumSlicesDigest, PackWritesIndices, E2mEncodesEntropy, PackThenUnpackRestoresEntropy: every legal length, and illegal
neighbours. -/
theorem witness_lengths :
    LegalEntLen (16 : Byte).toNat ∧ LegalEntLen (20 : Byte).toNat ∧ LegalEntLen (24 : Byte).toNat ∧
      LegalEntLen (28 : Byte).toNat ∧ LegalEntLen (32 : Byte).toNat ∧ ¬LegalEntLen (0 : Byte).toNat ∧
      ¬LegalEntLen (33 : Byte).toNat := by
  unfold LegalEntLen; decide

/-- Every legal word count, and illegal neighbours. -/
theorem witness_counts :
    LegalCount (12 : Half).toNat ∧ LegalCount (15 : Half).toNat ∧ LegalCount (18 : Half).toNat ∧ LegalCount (21 : Half).toNat ∧
      LegalCount (24 : Half).toNat ∧ ¬LegalCount (0 : Half).toNat ∧ ¬LegalCount (13 : Half).toNat := by
  unfold LegalCount; decide

/-- Twelve indices, all 0 but the last one, which is `x`. -/
def zeroIndices (x : Nat) : List Host.Cell := (commitIdx State.reset (List.replicate 11 0 ++ [x])).mem

theorem half_zeroIndices (x : Nat) (hx : x < 65536) (s : State) (hm : s.mem = zeroIndices x) (j : Nat) (hj : j < 24) :
    half s j = if j = 11 then x else 0 := by
  have h : half s j = half (commitIdx State.reset (List.replicate 11 0 ++ [x])) j := by
    unfold half
    rw [bytesAt_congr hm]
  rw [h, half_commitIdx, List.getD_eq_getElem?_getD, List.getElem?_append]
  · by_cases hl : j < 11
    · have h11 : j ≠ 11 := by omega
      rw [List.length_replicate, if_pos hl, List.getElem?_replicate_of_lt hl, if_neg h11]; rfl
    · by_cases h11 : j = 11
      · subst h11
        simp; omega
      · have h0 : j - 11 = (j - 12) + 1 := by omega
        simp [h11, hl, h0]
  · exact hj

theorem zeroIndices_inv (x : Nat) : MemInv (sealedState (zeroIndices x) 12) where
  canonical := commitBuf_wf (s := State.reset) (by decide) .idxBuf _
  mapped := by
    intro c hc
    rcases Sparse.mem_store 0 hc with h | h
    · exact ⟨.idxBuf, h.1, h.2.1⟩
    · exact absurd h.1 (by simp [State.reset])

/-- The checksum bits of sixteen zero bytes, which no proof can evaluate: CSV must equal them. -/
def zeroCsv : Nat := digest0 (List.replicate 16 0) / 16

theorem zeroCsv_lt : zeroCsv < 16 := by
  have : digest0 (List.replicate 16 0) < 256 := BitVec.isLt _
  unfold zeroCsv; omega

theorem specStream_congr {v w : Nat → Nat} (h : ∀ j < 12, v j = w j) (k : Nat) (hk : k < 132) :
    specStream v k = specStream w k := by
  simp only [specStream, h (k / 11) (by omega)]

theorem spec_zeroIndices (x : Nat) (hx : x < 16) (v : Nat → Nat) (hv : ∀ j < 12, v j = if j = 11 then x else 0) :
    specEntropy v 12 = List.replicate 16 0 ∧ specCsv v 12 = x := by
  have key : ∀ x < 16, specEntropy (fun j => if j = 11 then x else 0) 12 = List.replicate 16 0 ∧
      specCsv (fun j => if j = 11 then x else 0) 12 = x := by decide
  obtain ⟨k1, k2⟩ := key x hx
  refine ⟨Eq.trans ?_ k1, Eq.trans ?_ k2⟩
  · unfold specEntropy specEntropyByte
    refine List.map_congr_left (fun i hi => ?_)
    have hi := List.mem_range.1 hi
    congr 2
    refine List.map_congr_left (fun t ht => ?_)
    have ht := List.mem_range.1 ht
    rw [specStream_congr hv _ (by omega)]
  · unfold specCsv
    congr 1
    refine List.map_congr_left (fun t ht => ?_)
    have ht := List.mem_range.1 ht
    rw [specStream_congr hv _ (by omega)]

/-- The check of R175 on sixteen zero bytes. -/
theorem specCk_zero : specCk (List.replicate 16 0) (12 / 3) >>> (8 - 12 / 3) = zeroCsv := by
  have key : ∀ d : Byte, (((d.toNat >>> (8 - 12 / 3)) <<< (8 - 12 / 3)) &&& 0xFF) >>> (8 - 12 / 3) = d.toNat / 16 := by decide
  exact key _

/-- The checksum of sixteen zero bytes as UNPACK recomputes it. -/
theorem ckOf_zero : (ckOf (List.replicate 16 0) >>> (8 - 12 / 3)).toNat = zeroCsv := by
  have key : ∀ d : Byte, (slice d 4 >>> (8 - 12 / 3)).toNat = d.toNat / 16 := by decide
  exact key _

/-- The twelve indices are in range and decode to sixteen zero bytes. -/
theorem zeroIndices_decode :
    indicesIn (sealedState (zeroIndices zeroCsv) 12) = .ok (List.replicate 11 0 ++ [zeroCsv]) ∧
      decodeIndices (List.replicate 11 0 ++ [zeroCsv]) = .ok (List.replicate 16 0) := by
  have hz := zeroCsv_lt
  have hh := fun j hj => half_zeroIndices zeroCsv (by omega) (sealedState (zeroIndices zeroCsv) 12) rfl j hj
  have hv : (List.range 12).map (half (sealedState (zeroIndices zeroCsv) 12)) = List.replicate 11 0 ++ [zeroCsv] := by
    simp only [List.range_succ, List.range_zero, List.nil_append, List.map_append, List.map_cons, List.map_nil, hh, Nat.reduceLT]
    rfl
  have key : ∀ x < 16, ungroupEntropy (List.replicate 11 0 ++ [x]) = List.replicate 16 0 ∧
      ungroupCsv (List.replicate 11 0 ++ [x]) = x := by decide
  constructor
  · refine indicesIn_ok.2 ⟨rfl, fun j hj => ?_, hv.symm⟩
    rw [hh j (Nat.lt_trans hj (by decide))]; split <;> omega
  · refine decodeIndices_ok.2 ⟨?_, (key _ hz).1.symm⟩
    rw [(key _ hz).1, (key _ hz).2]
    exact ckOf_zero

/-- For UnpackThenPackRestoresIndices and ChecksumBitFlipIsDetected: UNPACK succeeds; and the same indices with bit 0 of the last
one flipped. -/
theorem witness_unpack_succeeds : ∃ t, exec .unpack (sealedState (zeroIndices zeroCsv) 12) = .next t ∧ t.err = 0 := by
  have hr := runUnpack_ok.2 ⟨_, zeroIndices_decode.1, _, zeroIndices_decode.2, rfl⟩
  exact ⟨_, rfl, by rw [hr]; rfl⟩

theorem witness_flipped_bit :
    (0 : Nat) < 12 / 3 ∧
      (∀ j < 11, half (sealedState (zeroIndices (zeroCsv ^^^ 1)) 12) j = half (sealedState (zeroIndices zeroCsv) 12) j) ∧
      half (sealedState (zeroIndices (zeroCsv ^^^ 1)) 12) 11 = half (sealedState (zeroIndices zeroCsv) 12) 11 ^^^ 2 ^ 0 := by
  have hz := zeroCsv_lt
  have hx : zeroCsv ^^^ 1 < 2 ^ 4 := Nat.xor_lt_two_pow hz (by decide)
  have h1 := fun j hj => half_zeroIndices zeroCsv (by omega) (sealedState (zeroIndices zeroCsv) 12) rfl j hj
  have h2 := fun j hj => half_zeroIndices (zeroCsv ^^^ 1) (by omega) (sealedState (zeroIndices (zeroCsv ^^^ 1)) 12) rfl j hj
  refine ⟨by decide, fun j hj => ?_, ?_⟩
  · rw [h1 j (by omega), h2 j (by omega), if_neg (by omega), if_neg (by omega)]
  · rw [h1 11 (by omega), h2 11 (by omega)]; rfl

/-- For UnpackRestoresEntropy, UnpackThenPackRestoresIndices, ChecksumBitFlipIsDetected, M2eBinEqualsUnpack: indices whose checksum
agrees, with a digest no proof can evaluate. -/
theorem witness_unpack_agrees :
    LegalCount (sealedState (zeroIndices zeroCsv) 12).wordCount.toNat ∧
      (∀ j < 12, half (sealedState (zeroIndices zeroCsv) 12) j ≤ 2047) ∧
      specCk (specEntropy (half (sealedState (zeroIndices zeroCsv) 12)) 12) (12 / 3) >>> (8 - 12 / 3) =
        specCsv (half (sealedState (zeroIndices zeroCsv) 12)) 12 := by
  have hz := zeroCsv_lt
  have hh := fun j hj => half_zeroIndices zeroCsv (by omega) (sealedState (zeroIndices zeroCsv) 12) rfl j hj
  obtain ⟨e, c⟩ := spec_zeroIndices zeroCsv hz (half (sealedState (zeroIndices zeroCsv) 12)) (fun j hj => hh j (by omega))
  refine ⟨.inl rfl, fun j hj => ?_, ?_⟩
  · rw [hh j (by omega)]; split <;> omega
  · rw [e, c, specCk_zero]

/-- For UnpackRestoresEntropy: indices whose checksum differs. -/
theorem witness_unpack_differs :
    specCk (specEntropy (half (sealedState (zeroIndices ((zeroCsv + 1) % 16)) 12)) 12) (12 / 3) >>> (8 - 12 / 3) ≠
      specCsv (half (sealedState (zeroIndices ((zeroCsv + 1) % 16)) 12)) 12 := by
  have hz := zeroCsv_lt
  have hh := fun j hj =>
    half_zeroIndices ((zeroCsv + 1) % 16) (by omega) (sealedState (zeroIndices ((zeroCsv + 1) % 16)) 12) rfl j hj
  obtain ⟨e, c⟩ := spec_zeroIndices ((zeroCsv + 1) % 16) (by omega)
    (half (sealedState (zeroIndices ((zeroCsv + 1) % 16)) 12)) (fun j hj => hh j (by omega))
  rw [e, c, specCk_zero]
  omega

/-- For UnpackRestoresEntropy, W2iLooksUpEveryToken, I2wWritesPhrase: the last of twelve indices is the first that no table
holds; 2047 is the last one that every table holds. -/
theorem witness_index_bounds :
    (2047 < half (sealedState (zeroIndices 2048) 12) 11 ∧ ∀ i < 11, half (sealedState (zeroIndices 2048) 12) i ≤ 2047) ∧
      ∀ j < 12, half (sealedState (zeroIndices 2047) 12) j ≤ 2047 := by
  have h1 := fun j hj => half_zeroIndices 2048 (by omega) (sealedState (zeroIndices 2048) 12) rfl j hj
  have h2 := fun j hj => half_zeroIndices 2047 (by omega) (sealedState (zeroIndices 2047) 12) rfl j hj
  refine ⟨⟨?_, fun i hi => ?_⟩, fun j hj => ?_⟩
  · rw [h1 11 (by omega)]; decide
  · rw [h1 i (by omega), if_neg (by omega)]; omega
  · rw [h2 j (by omega)]; split <;> omega

/-! ### Witnesses: text. NFKD is a parameter that no proof can evaluate (R13), so a witness that needs a value of it takes that value
as its own hypothesis. -/

/-- Twelve words of the sealed table, all word 0 but the last one, which is word `x`. -/
def zeroWords (x : Nat) : List Bytes := List.replicate 11 (word 0) ++ [word x]

/-- A sealed table, and TEXT_IN holding those words joined: 35 bytes. -/
def phraseState (x : Nat) : State :=
  { sealedState (oneBuf .textIn (joinSp (zeroWords x))) 0 with textLen := 35 }

theorem phrase_text : ∀ x < 16, textOf (phraseState x) = joinSp (zeroWords x) ∧ utf8Wf (textOf (phraseState x)) = true ∧
    splitSp (joinSp (zeroWords x)) = zeroWords x := by decide

/-- For NormalizeWritesTokens, SaltIsPrefixAndPassphrase, M2eTxtDecodesPhrase, SeedprepTxtPreparesBuffers: too long; the longest
that is taken; ill-formed. -/
theorem witness_text_checks :
    2048 < (2049 : Half).toNat ∧ (2048 : Half).toNat ≤ 2048 ∧ 1024 < (1025 : Half).toNat ∧ (1024 : Half).toNat ≤ 1024 ∧
      utf8Wf (textOf { State.reset with mem := oneBuf .textIn [0xFF], textLen := 1 }) = false ∧
      utf8Wf (passOf { State.reset with mem := oneBuf .passIn [0xC3, 0x28], passLen := 2 }) = false ∧
      utf8Wf (passOf State.reset) = true := by decide

/-- The same statements, after the UTF-8 check: a normalized text that is too long, one of the greatest length with an illegal
count, one with a legal count. -/
theorem witness_normalized_lengths :
    4096 < (List.replicate 4097 (0x61 : Byte)).length ∧ (List.replicate 4096 (0x61 : Byte)).length ≤ 4096 ∧
      ¬LegalCount (splitSp (textOf State.reset)).length ∧ LegalCount (splitSp (joinSp (zeroWords 0))).length := by
  refine ⟨?_, ?_, ?_, ?_⟩
  · rw [List.length_replicate]; decide
  · rw [List.length_replicate]
  · unfold LegalCount; decide
  · unfold LegalCount; decide

/-- For NormalizeWritesTokens and SaltIsPrefixAndPassphrase, the clauses for no bytes; SALT then succeeds, whatever NFKD is. -/
theorem witness_empty_texts :
    State.reset.textLen = 0 ∧ State.reset.passLen = 0 ∧ nfkd (passOf State.reset) = [] ∧
      (Config.saltPrefix ++ nfkd (passOf State.reset)).length ≤ 2048 := by decide

/-- The one-byte passphrase "a". -/
def passA : State := { State.reset with mem := oneBuf .passIn [0x61], passLen := 1 }

/-- For SaltIsPrefixAndPassphrase: the longest salt that fits, and the shortest that does not. -/
theorem witness_salt_lengths (h : nfkd (passOf passA) = List.replicate 2040 0x61) :
    (Config.saltPrefix ++ nfkd (passOf passA)).length ≤ 2048 ∧
      2048 < (Config.saltPrefix ++ List.replicate 2041 (0x61 : Byte)).length := by
  rw [h]
  simp only [List.length_append, List.length_replicate]
  decide

/-- For W2iLooksUpEveryToken: twelve tokens that the table holds. -/
theorem witness_known_tokens :
    ∃ s : State, TableInv s ∧ s.tableValid = true ∧ LegalCount s.wordCount.toNat ∧
      ∀ j < s.wordCount.toNat, IsRidx s (bytesAt s (0x8000 + tokOff s j) (tokLen s j)) 0 := by
  refine ⟨commitNorm (sealedState [] 0) ⟨joinSp (zeroWords 0), zeroWords 0⟩, fullTable_inv _ rfl rfl rfl rfl, rfl, .inl rfl, ?_⟩
  intro j hj
  have key : ∀ j < 12, bytesAt (commitNorm State.reset ⟨joinSp (zeroWords 0), zeroWords 0⟩)
      (0x8000 + tokOff (commitNorm State.reset ⟨joinSp (zeroWords 0), zeroWords 0⟩) j)
      (tokLen (commitNorm State.reset ⟨joinSp (zeroWords 0), zeroWords 0⟩) j) = word 0 := by decide
  have := key j hj
  refine Eq.mp (congrArg (fun w => IsRidx _ w 0) this.symm) (sealed_isRidx _ rfl 0 (by decide))

/-- For W2iLooksUpEveryToken: with no descriptor ever written, token 0 is empty and unknown. -/
theorem witness_unknown_token :
    NoRidx (sealedState [] 12) (bytesAt (sealedState [] 12) (0x8000 + tokOff (sealedState [] 12) 0) (tokLen (sealedState [] 12) 0)) :=
  sealed_noRidx_empty _ rfl

/-- For I2wWritesPhrase, E2mEncodesEntropy, SeedprepBinPreparesBuffers. -/
theorem witness_indices_of_sealed_table :
    Inv (sealedState [] 12) ∧ (sealedState [] 12).tableValid = true ∧ (∀ j < 12, half (sealedState [] 12) j ≤ 2047) ∧
      utf8Wf (passOf (sealedState [] 12)) = true :=
  ⟨sealedState_inv [] 12 (by decide) (by decide), rfl, by decide, by decide⟩

/-- For M2eTxtDecodesPhrase: a phrase whose words the table holds and whose checksum agrees (or not, for another last word), where
NFKD leaves it alone. -/
theorem witness_phrase_decodes (x : Nat) (hx : x < 16) (h : nfkd (textOf (phraseState x)) = joinSp (zeroWords x)) :
    TableInv (phraseState x) ∧ (phraseState x).tableValid = true ∧ (phraseState x).textLen.toNat ≤ 2048 ∧
      utf8Wf (textOf (phraseState x)) = true ∧ (nfkd (textOf (phraseState x))).length ≤ 4096 ∧
      LegalCount (splitSp (nfkd (textOf (phraseState x)))).length ∧
      (∀ j < 12, IsRidx (phraseState x) ((splitSp (nfkd (textOf (phraseState x)))).getD j []) (if j = 11 then x else 0)) ∧
      (specCk (specEntropy (fun j => if j = 11 then x else 0) 12) (12 / 3) >>> (8 - 12 / 3) =
        specCsv (fun j => if j = 11 then x else 0) 12 ↔ x = zeroCsv) := by
  obtain ⟨-, h2, h3⟩ := phrase_text x hx
  have hl : ∀ x < 16, (joinSp (zeroWords x)).length = 35 ∧ (zeroWords x).length = 12 := by decide
  obtain ⟨e, c⟩ := spec_zeroIndices x hx (fun j => if j = 11 then x else 0) (fun _ _ => rfl)
  rw [h, h3]
  refine ⟨fullTable_inv _ rfl rfl rfl rfl, rfl, by show (35 : Half).toNat ≤ 2048; decide, h2, ?_, ?_, fun j hj => ?_, ?_⟩
  · rw [(hl x hx).1]; decide
  · rw [(hl x hx).2]; exact .inl rfl
  · have hw : ∀ x < 16, ∀ j < 12, (zeroWords x).getD j [] = word (if j = 11 then x else 0) := by decide
    rw [hw x hx j hj]
    exact sealed_isRidx _ rfl _ (by split <;> omega)
  · rw [e, c, specCk_zero]
    exact eq_comm

theorem ridx_word (i : Nat) (h : i < 2048) : ridx fullTable (word i) = some i := by
  refine ridx_eq_some ⟨fullTable_wf, fun e he => (mem_fullTable he).1⟩ h (wtEntry_fullTable i h) (fun j hj he => ?_)
  rw [wtEntry_fullTable j (by omega)] at he
  have := word_inj j i (by omega) h he
  omega

/-- For TextSurvivesBinaryForm and CompositesEqualTheirPrimitives: M2E_TXT succeeds where NFKD leaves the phrase alone. -/
theorem witness_m2e_txt_succeeds (h : nfkd (textOf (phraseState zeroCsv)) = joinSp (zeroWords zeroCsv)) :
    Inv (phraseState zeroCsv) ∧ ∃ t, exec .m2eTxt (phraseState zeroCsv) = .next t ∧ t.err = 0 := by
  have hz := zeroCsv_lt
  obtain ⟨-, -, h3, h4, h5, h6, -⟩ := witness_phrase_decodes zeroCsv hz h
  obtain ⟨-, -, h7⟩ := phrase_text zeroCsv hz
  have hm : mnemonicIn (phraseState zeroCsv) = .ok ⟨joinSp (zeroWords zeroCsv), zeroWords zeroCsv⟩ := by
    refine mnemonicIn_ok.2 ⟨h3, h4, normTok_ok.2 ⟨h5, ?_, ?_⟩⟩
    · change countOk (splitSp (nfkd (textOf (phraseState zeroCsv)))).length = true
      rw [h, h7]; rfl
    change _ = NormText.mk (nfkd (textOf (phraseState zeroCsv))) (splitSp (nfkd (textOf (phraseState zeroCsv))))
    rw [h, h7]
  have hv : lookupAll fullTable (zeroWords zeroCsv) 0 = .ok (List.replicate 11 0 ++ [zeroCsv]) := by
    refine lookupAll_ok.2 ?_
    simp only [zeroWords, List.map_append, List.map_replicate, List.map_cons, List.map_nil,
      ridx_word 0 (by decide), ridx_word zeroCsv (by omega)]
  have hr := runM2eTxt_ok.2 ⟨⟨_, _, _⟩, decodeText_ok.2 ⟨rfl, hm, hv, zeroIndices_decode.2⟩, rfl⟩
  have hmem : Memory.wf (phraseState zeroCsv).mem ∧ ∀ c ∈ (phraseState zeroCsv).mem, ∃ b : Buf, b.holds c.1 := by
    refine ⟨commitBuf_wf (s := State.reset) (by decide) .textIn _, fun c hc => ?_⟩
    rcases Sparse.mem_store 0 hc with h | h
    · exact ⟨.textIn, h.1, h.2.1⟩
    · exact absurd h.1 (by simp [State.reset])
  have hi := sealedState_inv [] 0 (by decide) (by decide)
  exact ⟨⟨⟨hmem.1, hmem.2⟩, fullTable_inv _ rfl rfl rfl rfl, ⟨hi.status.1, hi.status.2, hi.status.3, hi.status.4, hi.status.5⟩,
    ⟨hi.lengths.1, hi.lengths.2, hi.lengths.3, hi.lengths.4⟩⟩, _, rfl, by rw [hr]; rfl⟩

/-- For CompositesEqualTheirPrimitives and E2mEncodesEntropy: E2M succeeds on the sealed table. -/
theorem witness_e2m_succeeds : ∃ t, exec .e2m { sealedState [] 0 with entLen := 16 } = .next t ∧ t.err = 0 := ⟨_, rfl, rfl⟩

/-- For CompositesEqualTheirPrimitives and M2eBinEqualsUnpack: M2E_BIN succeeds on the sealed table. -/
theorem witness_m2e_bin_succeeds :
    TableInv (sealedState (zeroIndices zeroCsv) 12) ∧
      ∃ t, exec .m2eBin (sealedState (zeroIndices zeroCsv) 12) = .next t ∧ t.err = 0 := by
  have hr := runM2eBin_ok.2 ⟨_, decodeBinary_ok.2 ⟨rfl, _, zeroIndices_decode⟩, rfl⟩
  exact ⟨fullTable_inv _ rfl rfl rfl rfl, _, rfl, by rw [hr]; rfl⟩

/-- For CompositesEqualTheirPrimitives and SeedprepBinPreparesBuffers: SEEDPREP_BIN succeeds on the sealed table with the empty
passphrase, whatever NFKD is. -/
theorem witness_seedprep_bin_succeeds :
    Inv (sealedState [] 12) ∧ ∃ t, exec .seedprepBin (sealedState [] 12) = .next t ∧ t.err = 0 :=
  ⟨sealedState_inv [] 12 (by decide) (by decide), _, rfl, rfl⟩

/-- For CompositesEqualTheirPrimitives and SeedprepTxtPreparesBuffers: SEEDPREP_TXT succeeds where NFKD leaves the phrase alone, with
the empty passphrase. -/
theorem witness_seedprep_txt_succeeds (h : nfkd (textOf (phraseState 0)) = joinSp (zeroWords 0)) :
    TableInv (phraseState 0) ∧ ∃ t, exec .seedprepTxt (phraseState 0) = .next t ∧ t.err = 0 := by
  obtain ⟨-, h1, h2⟩ := phrase_text 0 (by decide)
  have hm : mnemonicIn (phraseState 0) = .ok ⟨joinSp (zeroWords 0), zeroWords 0⟩ := by
    refine mnemonicIn_ok.2 ⟨by decide, h1, normTok_ok.2 ⟨?_, ?_, ?_⟩⟩
    · change (nfkd (textOf (phraseState 0))).length ≤ _
      rw [h]; decide
    · change countOk (splitSp (nfkd (textOf (phraseState 0)))).length = true
      rw [h, h2]; rfl
    · change _ = NormText.mk (nfkd (textOf (phraseState 0))) (splitSp (nfkd (textOf (phraseState 0))))
      rw [h, h2]
  have hs : saltIn (phraseState 0) = .ok Config.saltPrefix := by decide
  have hr := runSeedprepTxt_ok.2 ⟨_, hm, _, hs, rfl⟩
  exact ⟨fullTable_inv _ rfl rfl rfl rfl, _, rfl, by rw [hr]; rfl⟩

/-- For PackIgnoresBytesBeyondLength: two states that differ at ENT_BUF[16] only. -/
theorem witness_bytes_beyond_length :
    (∃ t, exec .pack { State.reset with entLen := 16 } = .next t ∧ t.err = 0) ∧
      (∀ i < 16, readByte { State.reset with entLen := 16, mem := [(0x110, 1)] } (Buf.entBuf.base + i) =
        readByte { State.reset with entLen := 16 } (Buf.entBuf.base + i)) := ⟨⟨_, rfl, rfl⟩, by decide⟩

/-- For M2eTxtDecodesPhrase: a text of twelve empty tokens, the first of them unknown. -/
theorem witness_phrase_unknown :
    LegalCount (splitSp (List.replicate 11 0x20)).length ∧ NoRidx (sealedState [] 0) ((splitSp (List.replicate 11 0x20)).getD 0 []) :=
  ⟨by unfold LegalCount; decide, sealed_noRidx_empty _ rfl⟩

/-- For BinarySurvivesTextForm: a sealed table of distinct entries that hold no space. -/
theorem witness_distinct_entries :
    TableInv (sealedState [] 0) ∧ (sealedState [] 0).tableValid = true ∧
      (∀ i < 2048, ∀ j < 2048, wtEntry (sealedState [] 0).wt i = wtEntry (sealedState [] 0).wt j → i = j) ∧
      (∀ i < 2048, (0x20 : Byte) ∉ wtEntry (sealedState [] 0).wt i) ∧ (∀ x ∈ [0, 2047, 0], x ≤ 2047) := by
  refine ⟨fullTable_inv _ rfl rfl rfl rfl, rfl, fun i hi j hj h => ?_, fun i hi => ?_, by decide⟩
  · change wtEntry fullTable i = wtEntry fullTable j at h
    rw [wtEntry_fullTable i hi, wtEntry_fullTable j hj] at h
    exact word_inj i j hi hj h
  · change (0x20 : Byte) ∉ wtEntry fullTable i
    rw [wtEntry_fullTable i hi]
    exact word_no_space i hi

end Sys2Proof.Machine
end

section
/-! What the reset state reads as (spec/10_state.md R75). -/

namespace Sys2Proof.Machine

@[simp] theorem readByte_reset (a : Nat) : readByte State.reset a = 0 := Sparse.get_nil 0 a

@[simp] theorem wtEntry_reset (i : Nat) : wtEntry State.reset.wt i = [] := Sparse.get_nil [] i

@[simp] theorem irq_reset : irq State.reset = false := rfl

/-- Only ID and ERR_INDEX have a reset value other than 0. -/
theorem readReg_reset_eq_zero {r : Reg} (hid : r ≠ .id) (hidx : r ≠ .errIndex) : readReg State.reset r = 0 := by
  cases r
  case id => exact absurd rfl hid
  case errIndex => exact absurd rfl hidx
  all_goals rfl

/-- Settles O18: a register other than ID and ERR_INDEX reads 0, and nothing is listed in the memory or the table. -/
theorem resetValues : Obligations.ResetValues := by
  unfold Obligations.ResetValues
  refine ⟨rfl, rfl, fun r hr => ?_, rfl, readByte_reset, wtEntry_reset, rfl, rfl, rfl, irq_reset⟩
  have hid : r ≠ .id := by rintro rfl; simp at hr
  have hidx : r ≠ .errIndex := by rintro rfl; simp at hr
  exact readReg_reset_eq_zero hid hidx

end Sys2Proof.Machine
end

section
/-! The host port's reads and writes by where they land, and little-endian data (spec/20_memory.md R82-R87). -/

namespace Sys2Proof.Machine

/-! ### Answers by where an access lands -/

variable (s : State) {off n : Nat}

theorem memRead_of_target_none (h : target off n = none) : memRead s off n = (0, .error) := by simp [memRead, h]

theorem memWrite_of_target_none (v : Word) (h : target off n = none) : memWrite s off n v = (s, .error) := by
  simp [memWrite, h]

theorem memRead_of_target_buf {b : Buf} (h : target off n = some (.inr b)) :
    memRead s off n = (BitVec.ofNat 32 (leVal (bytesAt s off n)), .okay) := by simp [memRead, h]

theorem memRead_of_target_reg {r : Option Reg} (h : target off n = some (.inl r)) :
    (memRead s off n).2 = .okay := by cases r <;> simp [memRead, h]

theorem memWrite_of_target_some {t : Option Reg ⊕ Buf} (v : Word) (h : target off n = some t) :
    (memWrite s off n v).2 = .okay := by
  rcases t with (_ | r) | b <;> simp [memWrite, h]

/-! ### The register block and above it -/

theorem Width.bytes_le_four (n : Width) : n.bytes ≤ 4 := by cases n <;> decide

theorem Width.bytes_eq_four_iff (n : Width) : n.bytes = 4 ↔ n = .w4 := by cases n <;> decide

/-- In the register block an access lands at its offset if it is an aligned word, and nowhere else (R86). -/
theorem target_regBlock (n : Width) (h : off < regBlockEnd) :
    target off n.bytes = if n = .w4 ∧ off % 4 = 0 then some (.inl (regAt off)) else none := by
  simp only [target, if_pos h, n.bytes_eq_four_iff]

/-- Above the register block an access lands nowhere if it is misaligned or inside no buffer (R87). -/
theorem target_eq_none (h : regBlockEnd ≤ off)
    (hbad : off % n ≠ 0 ∨ ∀ b : Buf, ¬(b.base ≤ off ∧ off + n ≤ b.base + b.size)) : target off n = none := by
  rw [target, if_neg (by omega)]
  rcases hbad with hmis | hout
  · exact if_neg hmis
  · rw [bufAt_none.2 hout]
    exact ite_self none

/-! ### The spec's buffer map (spec/10_state.md R55) -/

theorem specBufferMap_row : ∀ row ∈ specBufferMap,
    row.buf.base = row.first ∧ row.buf.base + row.buf.size = row.last + 1 ∧ row.buf.isRw = row.rw := by decide

theorem exists_specBufferMap_row (b : Buf) : ∃ row ∈ specBufferMap, row.buf = b := by cases b <;> decide

/-- An access lies inside a row of the map exactly when it lies inside the row's buffer. -/
theorem covers_iff_inside {row : BufRow} (hrow : row ∈ specBufferMap) (off n : Nat) :
    row.covers off n ↔ row.buf.base ≤ off ∧ off + n ≤ row.buf.base + row.buf.size := by
  obtain ⟨hfirst, hlast, -⟩ := specBufferMap_row row hrow
  rw [BufRow.covers, hlast, hfirst]

theorem target_row {row : BufRow} (hrow : row ∈ specBufferMap) (hn : 0 < n) (ha : off % n = 0)
    (hc : row.covers off n) : target off n = some (.inr row.buf) := by
  obtain ⟨hlo, hhi⟩ := (covers_iff_inside hrow off n).1 hc
  exact target_buf hn ha hlo hhi

theorem target_eq_none_of_no_row (h : regBlockEnd ≤ off)
    (hbad : off % n ≠ 0 ∨ ∀ row ∈ specBufferMap, ¬row.covers off n) : target off n = none := by
  refine target_eq_none h (hbad.imp_right fun hrows b hb => ?_)
  obtain ⟨row, hrow, rfl⟩ := exists_specBufferMap_row b
  exact hrows row hrow ((covers_iff_inside hrow off n).2 hb)

/-! ### Little-endian data (R82) -/

/-- Digit i in base 256 of a little-endian value is its byte i. -/
theorem leVal_digit (bs : Bytes) (i : Nat) : leVal bs / 256 ^ i % 256 = (bs.getD i 0).toNat := by
  induction bs generalizing i with
  | nil => simp [leVal]
  | cons b bs ih =>
    have hb := b.isLt
    cases i with
    | zero => simp only [leVal, pow_zero, Nat.div_one, List.getD_cons_zero]; omega
    | succ i =>
      have hdrop : leVal (b :: bs) / 256 = leVal bs := by simp only [leVal]; omega
      rw [Nat.pow_succ', ← Nat.div_div_eq_div_mul, hdrop, ih, List.getD_cons_succ]

theorem leVal_append (bs cs : Bytes) : leVal (bs ++ cs) = leVal bs + 256 ^ bs.length * leVal cs := by
  induction bs with
  | nil => simp [leVal]
  | cons b bs ih => simp only [List.cons_append, leVal, ih, List.length_cons]; ring

theorem bytesAt_add (a m n : Nat) : bytesAt s a (m + n) = bytesAt s a m ++ bytesAt s (a + m) n := by
  simp [bytesAt, List.range_add, Function.comp_def, Nat.add_assoc]

/-- A value read across m + n bytes is the low m bytes' value and, above it, the next n bytes' value. -/
theorem leVal_bytesAt_add (a m n : Nat) :
    leVal (bytesAt s a (m + n)) = leVal (bytesAt s a m) + 256 ^ m * leVal (bytesAt s (a + m) n) := by
  rw [bytesAt_add, leVal_append, bytesAt_length]

theorem leVal_bytesAt_lt (a n : Nat) : leVal (bytesAt s a n) < 256 ^ n := by
  simpa using leVal_lt (bytesAt s a n)

/-- The bytes of at most four fit a word. -/
theorem toNat_ofNat_leVal_bytesAt (a : Nat) (hn : n ≤ 4) :
    (BitVec.ofNat 32 (leVal (bytesAt s a n))).toNat = leVal (bytesAt s a n) := by
  have hlt := leVal_bytesAt_lt s a n
  have hpow : 256 ^ n ≤ 256 ^ 4 := Nat.pow_le_pow_right (by decide) hn
  rw [BitVec.toNat_ofNat]
  omega

theorem extractLsb'_leVal_bytesAt (a : Nat) (hn : n ≤ 4) {i : Nat} (hi : i < n) :
    (BitVec.ofNat 32 (leVal (bytesAt s a n))).extractLsb' (8 * i) 8 = readByte s (a + i) := by
  apply BitVec.eq_of_toNat_eq
  have hdigit := leVal_digit (bytesAt s a n) i
  rw [bytesAt_getD, if_pos hi] at hdigit
  rw [BitVec.extractLsb'_toNat, toNat_ofNat_leVal_bytesAt s a hn, Nat.shiftRight_eq_div_pow, Nat.pow_mul]
  exact hdigit

/-! ### Register accesses -/

/-- Settles O9: inside the register block the target is a register offset or nothing, by width and alignment alone. -/
theorem registerAccessesAre32Bit : Obligations.RegisterAccessesAre32Bit := by
  unfold Obligations.RegisterAccessesAre32Bit
  intro s off n v hoff
  have htarget := target_regBlock n (show off < regBlockEnd from Nat.lt_succ_of_le hoff)
  constructor
  · intro hbad
    rw [if_neg hbad] at htarget
    exact ⟨memRead_of_target_none s htarget, memWrite_of_target_none s v htarget⟩
  · intro hgood
    rw [if_pos hgood] at htarget
    exact ⟨memRead_of_target_reg s htarget, memWrite_of_target_some s v htarget⟩

/-! ### Buffer accesses -/

/-- Settles O10: above the register block the target is the covering row's buffer or nothing, and a buffer read's data has the
buffer's bytes as its digits in base 256. -/
theorem bufferAccessRule : Obligations.BufferAccessRule := by
  unfold Obligations.BufferAccessRule
  refine ⟨specBufferMap_row, exists_specBufferMap_row, fun s off n v hoff => ⟨fun hbad => ?_, fun row hrow ha hc => ?_⟩⟩
  · have htarget := target_eq_none_of_no_row hoff hbad
    exact ⟨memRead_of_target_none s htarget, memWrite_of_target_none s v htarget⟩
  · have htarget := target_row hrow n.bytes_pos ha hc
    refine ⟨memWrite_of_target_some s v htarget, _, memRead_of_target_buf s htarget,
      fun i hi => extractLsb'_leVal_bytesAt s off n.bytes_le_four hi, ?_⟩
    rw [toNat_ofNat_leVal_bytesAt s off n.bytes_le_four]
    exact leVal_bytesAt_lt s off n.bytes

/-! ### The mixed-width view of IDX_BUF (R84) -/

theorem memRead_idxBuf {i : Nat} (hn : 0 < n) (ha : (0x140 + i) % n = 0) (hi : i + n ≤ 48) :
    memRead s (0x140 + i) n = (BitVec.ofNat 32 (leVal (bytesAt s (0x140 + i) n)), .okay) := by
  refine memRead_of_target_buf s (b := .idxBuf) (target_buf hn ha ?_ ?_)
  · simp only [Buf.base]; omega
  · simp only [Buf.base, Buf.size]; omega

theorem leVal_idxBuf_half (j : Nat) : leVal (bytesAt s (0x140 + 2 * j) 2) = half s j := rfl

/-- A halfword is its two bytes, each read on its own. -/
theorem half_eq_bytes (j : Nat) :
    half s j = leVal (bytesAt s (0x140 + 2 * j) 1) + 256 * leVal (bytesAt s (0x140 + 2 * j + 1) 1) := by
  rw [← leVal_idxBuf_half]
  exact leVal_bytesAt_add s (0x140 + 2 * j) 1 1

theorem half_mod_div_256 (j : Nat) :
    half s j % 256 = leVal (bytesAt s (0x140 + 2 * j) 1) ∧ half s j / 256 = leVal (bytesAt s (0x140 + 2 * j + 1) 1) := by
  have hlow := leVal_bytesAt_lt s (0x140 + 2 * j) 1
  rw [half_eq_bytes]
  omega

/-- A word is its two halfwords, each read on its own. -/
theorem leVal_idxBuf_word (k : Nat) :
    leVal (bytesAt s (0x140 + 4 * k) 4) = half s (2 * k) + 65536 * half s (2 * k + 1) := by
  rw [show 4 * k = 2 * (2 * k) by omega, ← leVal_idxBuf_half, ← leVal_idxBuf_half]
  exact leVal_bytesAt_add s (0x140 + 2 * (2 * k)) 2 2

/-- Settles O12: a word is two halfwords and a halfword two bytes, in base 65536 and 256, so the narrower reads are the
quotients and remainders of the wider ones. -/
theorem mixedWidthViewOfIdxBuf : Obligations.MixedWidthViewOfIdxBuf := by
  unfold Obligations.MixedWidthViewOfIdxBuf
  refine fun s => ⟨fun j hj => ?_, fun k hk => ?_, fun j hj => ?_⟩
  · exact memRead_idxBuf s (by decide) (by omega) (by omega)
  · refine ⟨_, memRead_idxBuf s (by decide) (by omega) (by omega), ?_⟩
    have hlow := half_lt s (2 * k)
    have hhigh := half_lt s (2 * k + 1)
    rw [BitVec.extractLsb'_toNat, BitVec.extractLsb'_toNat, toNat_ofNat_leVal_bytesAt s _ (by decide),
      leVal_idxBuf_word, Nat.shiftRight_eq_div_pow, Nat.shiftRight_eq_div_pow]
    omega
  · obtain ⟨hlow, hhigh⟩ := half_mod_div_256 s j
    rw [hlow, hhigh]
    exact ⟨memRead_idxBuf s (by decide) (Nat.mod_one _) (by omega),
      memRead_idxBuf s (i := 2 * j + 1) (by decide) (Nat.mod_one _) (by omega)⟩

end Sys2Proof.Machine
end

section
/-! NOP and ZEROIZE (spec/40_control.md R150, R151). -/

namespace Sys2Proof.Machine

/-- Settles O32: NOP's commit set is the state itself. -/
theorem nopOnlyCompletes : Obligations.NopOnlyCompletes := by
  unfold Obligations.NopOnlyCompletes
  exact fun s => congrArg Host.Outcome.next (complete_ok s s)

theorem Buf.mem_all (b : Buf) : b ∈ Buf.all := by cases b <;> decide

/-- Clearing buffers keeps the memory canonical. -/
theorem clearBufs_wf {s : State} (h : Memory.wf s.mem) (bs : List Buf) : Memory.wf (clearBufs s bs).mem := by
  induction bs generalizing s with
  | nil => exact h
  | cons b bs ih => exact ih (commitBuf_wf s h b [])

/-- Memory that lists only offsets inside a buffer reads 0x00 at every other offset. -/
theorem readByte_eq_zero_of_unmapped {s : State} (h : MemInv s) {a : Nat} (ha : ∀ b : Buf, ¬b.holds a) :
    readByte s a = 0 :=
  Sparse.get_of_absent 0 fun c hc hca => by
    obtain ⟨b, hb⟩ := h.mapped c hc
    exact ha b (hca ▸ hb)

/-- With every buffer cleared no offset of the window reads anything but 0x00. -/
theorem readByte_clearBufs_all {s : State} (h : MemInv s) (a : Nat) : readByte (clearBufs s Buf.all) a = 0 := by
  rw [readByte_clearBufs]
  split
  case isTrue => rfl
  case isFalse hout =>
    refine readByte_eq_zero_of_unmapped h fun b hb => hout ?_
    exact List.any_eq_true.2 ⟨b, Buf.mem_all b, decide_eq_true hb⟩

/-- The canonical form of a memory without data is the empty list, so clearing every buffer gives the reset memory. -/
theorem clearBufs_all_mem {s : State} (h : MemInv s) : (clearBufs s Buf.all).mem = State.reset.mem := by
  refine Sparse.ext 0 (clearBufs_wf h.canonical Buf.all) reset_memory_wf fun a => ?_
  calc readByte (clearBufs s Buf.all) a = 0 := readByte_clearBufs_all h a
    _ = readByte State.reset a := (readByte_reset a).symm

theorem clearBufs_all {s : State} (h : MemInv s) : clearBufs s Buf.all = { s with mem := State.reset.mem } := by
  obtain ⟨m, hm⟩ := clearBufs_eq s Buf.all
  have hmem : m = State.reset.mem := by rw [← clearBufs_all_mem h, hm]
  rw [hm, hmem]

/-- Settles O33: the cleared memory is the reset memory, and R151 names every other field that reset and ZEROIZE share. -/
theorem zeroizeClearsAllData : Obligations.ZeroizeClearsAllData := by
  unfold Obligations.ZeroizeClearsAllData
  intro s h
  calc exec .zeroize s = .next (finish (zeroized s) 0 noIndex) := rfl
    _ = _ := by rw [zeroized, clearBufs_all h]; rfl

end Sys2Proof.Machine
end

section
/-! The entropy operand and CKSUM (spec/41_checksum.md R160-R162). -/

namespace Sys2Proof.Machine

/-! ### How a command ends -/

/-- R70, R280: a raise changes the completion fields alone. -/
theorem complete_error_eq_failedWith (s : State) (r : Raise) :
    complete s (.error r) = failedWith s r.kind.code r.info := rfl

theorem succeeded_finish (t : State) : Succeeded (finish t 0 noIndex) := ⟨rfl, rfl, rfl, rfl, rfl⟩

/-! ### The entropy operand -/

variable {s : State}

theorem entropyOf_length (s : State) : (entropyOf s).length = s.entLen.toNat := bufBytes_length s .entBuf _

theorem entropyIn_of_legal (h : LegalEntLen s.entLen.toNat) : entropyIn s = .ok (entropyOf s) :=
  entropyIn_ok.2 ⟨(entOk_iff _).2 h, rfl⟩

theorem entropyIn_of_not_legal (h : ¬LegalEntLen s.entLen.toNat) :
    entropyIn s = .error ⟨.invalidEntropyLength, noIndex⟩ :=
  entropyIn_error.2 ⟨Bool.eq_false_iff.2 fun hok => h ((entOk_iff _).1 hok), rfl⟩

/-! ### The checksum of the operand -/

theorem toNat_ckOf_entropyOf (s : State) : (ckOf (entropyOf s)).toNat = specCk (entropyOf s) (s.entLen.toNat / 4) := by
  rw [← specCk_eq, entropyOf_length]

/-- CS is at most 8 for a legal length, so CSN's four bits hold it. -/
theorem LegalEntLen.toNat_csn (h : LegalEntLen s.entLen.toNat) :
    (BitVec.ofNat 4 ((entropyOf s).length / 4)).toNat = s.entLen.toNat / 4 := by
  have hlt : s.entLen.toNat / 4 < 2 ^ 4 := by unfold LegalEntLen at h; omega
  rw [entropyOf_length, BitVec.toNat_ofNat, Nat.mod_eq_of_lt hlt]

/-- R46. -/
theorem toNat_readReg_cksum (t : State) : (readReg t .cksum).toNat = t.csn.toNat <<< 8 ||| t.ck.toNat := by
  rw [readReg, cksumWord, BitVec.toNat_append, BitVec.toNat_append, BitVec.toNat_zero, Nat.zero_shiftLeft, Nat.zero_or]

/-! ### CKSUM -/

theorem exec_cksum (s : State) : exec .cksum s = .next (complete s (runCksum s)) := rfl

theorem exec_cksum_of_legal (h : LegalEntLen s.entLen.toNat) :
    exec .cksum s = .next (finish (commitCksum s (entropyOf s)) 0 noIndex) := by
  have hrun : runCksum s = .ok (commitCksum s (entropyOf s)) := runCksum_ok.2 ⟨_, entropyIn_of_legal h, rfl⟩
  rw [exec_cksum, hrun, complete_ok]

theorem exec_cksum_of_not_legal (h : ¬LegalEntLen s.entLen.toNat) : exec .cksum s = .next (failedWith s 1 0xFFFF) := by
  have hrun : runCksum s = .error ⟨.invalidEntropyLength, noIndex⟩ := bind_error_iff.2 (.inl (entropyIn_of_not_legal h))
  rw [exec_cksum, hrun, complete_error_eq_failedWith]
  rfl

/-- Settles O40: CKSUM commits CK and CS of the operand, and the register read puts CS above the eight bits of CK. -/
theorem cksumSlicesDigest : Obligations.CksumSlicesDigest := by
  unfold Obligations.CksumSlicesDigest
  refine fun s => ⟨fun h => ⟨_, exec_cksum_of_legal h, succeeded_finish _, ?_⟩, exec_cksum_of_not_legal⟩
  rw [toNat_readReg_cksum, finish_ck, finish_csn, commitCksum_ck, commitCksum_csn, toNat_ckOf_entropyOf, h.toNat_csn]
  exact ⟨rfl, rfl, rfl⟩

end Sys2Proof.Machine
end

section
/-! PACK and UNPACK (spec/42_radix.md R170-R177). -/

namespace Sys2Proof.Machine

/-! ### PACK -/

section Pack
variable {s : State}

/-- R171: every index fits 11 bits. -/
theorem specIdx_le (e : Bytes) (ck : Byte) (j : Nat) : specIdx e ck j ≤ 2047 := by
  rw [specIdx_eq]
  exact Nat.le_of_lt_succ (packIdx_lt e ck j)

theorem packIndices_getD (e : Bytes) {j : Nat} (hj : j < 3 * e.length / 4) :
    (packIndices e).getD j 0 = specIdx e (ckOf e) j := by
  simp [packIndices, specIdx_eq, List.getD_eq_getElem?_getD, hj]

theorem HoldsIdx.half_le {t : State} {n : Nat} {v : Nat → Nat} (h : HoldsIdx t n v) (hv : ∀ j, v j ≤ 2047) :
    ∀ j < 24, half t j ≤ 2047 := by
  intro j hj
  rw [h j hj]
  split
  · exact hv j
  · exact Nat.zero_le _

/-- R174: IDX_BUF after PACK's commit. -/
theorem holdsIdx_commitPack (s : State) (e : Bytes) :
    HoldsIdx (commitPack s e) (3 * e.length / 4) (specIdx e (ckOf e)) := by
  intro j hj
  have hfit : ∀ x ∈ packIndices e, x < 65536 := fun x hx => Nat.lt_trans (packIndices_lt e x hx) (by decide)
  have hhalf := holdsIdx_commitIdx (commitCksum s e) (packIndices e) hfit j hj
  rw [packIndices_length] at hhalf
  refine Eq.trans hhalf ?_
  split
  case isTrue hlt => exact packIndices_getD e hlt
  case isFalse => rfl

theorem exec_pack (s : State) : exec .pack s = .next (complete s (runPack s)) := rfl

theorem exec_pack_of_legal (h : LegalEntLen s.entLen.toNat) :
    exec .pack s = .next (finish (commitPack s (entropyOf s)) 0 noIndex) := by
  have hrun : runPack s = .ok (commitPack s (entropyOf s)) := runPack_ok.2 ⟨_, entropyIn_of_legal h, rfl⟩
  rw [exec_pack, hrun, complete_ok]

theorem exec_pack_of_not_legal (h : ¬LegalEntLen s.entLen.toNat) : exec .pack s = .next (failedWith s 1 0xFFFF) := by
  have hrun : runPack s = .error ⟨.invalidEntropyLength, noIndex⟩ := bind_error_iff.2 (.inl (entropyIn_of_not_legal h))
  rw [exec_pack, hrun, complete_error_eq_failedWith]
  rfl

/-- WORD_COUNT's sixteen bits hold 3L/4 for every value of ENT_LEN's eight. -/
theorem toNat_commitPack_wordCount (s : State) :
    (commitPack s (entropyOf s)).wordCount.toNat = 3 * s.entLen.toNat / 4 := by
  have hlen := s.entLen.isLt
  rw [commitPack_wordCount, entropyOf_length, BitVec.toNat_ofNat]
  omega

end Pack

/-- Settles O41: the commit lists the 11-bit groups of E ‖ [CK] as halfwords, and an 11-bit group is at most 2047. -/
theorem packWritesIndices : Obligations.PackWritesIndices := by
  unfold Obligations.PackWritesIndices
  refine fun s => ⟨fun h => ⟨_, exec_pack_of_legal h, succeeded_finish _, ?_⟩, exec_pack_of_not_legal⟩
  have hidx : HoldsIdx (finish (commitPack s (entropyOf s)) 0 noIndex) (3 * s.entLen.toNat / 4)
      (specIdx (entropyOf s) (ckOf (entropyOf s))) := by
    rw [← entropyOf_length]
    exact holdsIdx_commitPack s (entropyOf s)
  exact ⟨toNat_commitPack_wordCount s, h.toNat_csn, toNat_ckOf_entropyOf s, hidx, hidx.half_le (specIdx_le _ _)⟩

/-! ### The checksum test of UNPACK -/

/-- R175: the top CS bits of the recomputed CK equal CSV, for N indices `v`. -/
abbrev ChecksumAgrees (v : Nat → Nat) (n : Nat) : Prop :=
  specCk (specEntropy v n) (n / 3) >>> (8 - n / 3) = specCsv v n

/-- R172: the stream ends with the last index. -/
theorem LegalCount.stream_length {n : Nat} (h : LegalCount n) : 8 * (4 * n / 3) + n / 3 = 11 * n := by
  unfold LegalCount at h; omega

/-- R172: N is at most 24 and CS at most 8. -/
theorem LegalCount.bounds {n : Nat} (h : LegalCount n) : 0 < n ∧ n ≤ 24 ∧ n / 3 ≤ 8 := by unfold LegalCount at h; omega

@[simp] theorem specEntropy_length (v : Nat → Nat) (n : Nat) : (specEntropy v n).length = 4 * n / 3 := by
  simp [specEntropy]

/-- R172: the CS of the decoded entropy is N / 3. -/
theorem specEntropy_length_div_four (v : Nat → Nat) (n : Nat) : (specEntropy v n).length / 4 = n / 3 := by
  rw [specEntropy_length]
  omega

theorem toNat_ckOf_specEntropy (v : Nat → Nat) (n : Nat) :
    (ckOf (specEntropy v n)).toNat = specCk (specEntropy v n) (n / 3) := by
  rw [← specCk_eq, specEntropy_length_div_four]

/-- R175 in the spec's formulas. -/
theorem decodeIndices_range (v : Nat → Nat) (n : Nat) :
    decodeIndices ((List.range n).map v) =
      if ChecksumAgrees v n then .ok (specEntropy v n) else fail .checksumMismatch := by
  rw [decodeIndices, ← specEntropy_eq, ← specCsv_eq, List.length_map, List.length_range, BitVec.toNat_ushiftRight,
    toNat_ckOf_specEntropy]

/-! ### UNPACK -/

section Unpack
variable {s : State}

theorem ErrKind.code_ne_zero (k : ErrKind) : k.code ≠ 0 := by cases k <;> decide

theorem exec_unpack (s : State) : exec .unpack s = .next (complete s (runUnpack s)) := rfl

theorem exec_unpack_of_indicesIn_error {r : Raise} (h : indicesIn s = .error r) :
    exec .unpack s = .next (failedWith s r.kind.code r.info) := by
  have hrun : runUnpack s = .error r := bind_error_iff.2 (.inl h)
  rw [exec_unpack, hrun, complete_error_eq_failedWith]

theorem exec_unpack_of_not_legal (h : ¬LegalCount s.wordCount.toNat) :
    exec .unpack s = .next (failedWith s 3 0xFFFF) :=
  exec_unpack_of_indicesIn_error
    (indicesIn_error.2 (.inl ⟨Bool.eq_false_iff.2 fun hok => h ((countOk_iff _).1 hok), rfl⟩))

theorem exec_unpack_of_unknown (h : LegalCount s.wordCount.toNat) {j : Nat} (hj : j < s.wordCount.toNat)
    (hbad : 2047 < half s j) (hfirst : ∀ i < j, half s i ≤ 2047) :
    exec .unpack s = .next (failedWith s 4 (BitVec.ofNat 16 j)) :=
  exec_unpack_of_indicesIn_error (indicesIn_error.2 (.inr ⟨(countOk_iff _).2 h, j, hj, hbad, hfirst, rfl⟩))

theorem runUnpack_of_inRange (h : LegalCount s.wordCount.toNat) (hle : ∀ j < s.wordCount.toNat, half s j ≤ 2047) :
    runUnpack s =
      if ChecksumAgrees (half s) s.wordCount.toNat then .ok (commitEntropy s (specEntropy (half s) s.wordCount.toNat))
      else fail .checksumMismatch := by
  rw [runUnpack, indicesIn_ok.2 ⟨(countOk_iff _).2 h, hle, rfl⟩, ok_bind, decodeIndices_range]
  split <;> rfl

theorem exec_unpack_of_mismatch (h : LegalCount s.wordCount.toNat) (hle : ∀ j < s.wordCount.toNat, half s j ≤ 2047)
    (hck : ¬ChecksumAgrees (half s) s.wordCount.toNat) : exec .unpack s = .next (failedWith s 5 0xFFFF) := by
  rw [exec_unpack, runUnpack_of_inRange h hle, if_neg hck]
  rfl

theorem exec_unpack_of_agrees (h : LegalCount s.wordCount.toNat) (hle : ∀ j < s.wordCount.toNat, half s j ≤ 2047)
    (hck : ChecksumAgrees (half s) s.wordCount.toNat) :
    exec .unpack s = .next (finish (commitEntropy s (specEntropy (half s) s.wordCount.toNat)) 0 noIndex) := by
  rw [exec_unpack, runUnpack_of_inRange h hle, if_pos hck, complete_ok]

/-- What UNPACK has checked where it ends without an error. -/
theorem unpack_succeeds_checks {t : State} (h : exec .unpack s = .next t) (ht : t.err = 0) :
    LegalCount s.wordCount.toNat ∧ (∀ j < s.wordCount.toNat, half s j ≤ 2047) ∧
      ChecksumAgrees (half s) s.wordCount.toNat := by
  cases h
  cases hrun : runUnpack s with
  | error r =>
    rw [hrun, complete_error, finish_err] at ht
    exact absurd ht r.kind.code_ne_zero
  | ok u =>
    obtain ⟨v, hv, -⟩ := runUnpack_ok.1 hrun
    obtain ⟨hcount, hle, -⟩ := indicesIn_ok.1 hv
    have hlegal := (countOk_iff _).1 hcount
    refine ⟨hlegal, hle, by_contra fun hck => ?_⟩
    rw [runUnpack_of_inRange hlegal hle, if_neg hck] at hrun
    cases hrun

/-- R175: the registers that UNPACK's commit of N indices' entropy sets. -/
theorem commitEntropy_registers {n : Nat} (h : LegalCount n) (s : State) (v : Nat → Nat) :
    (commitEntropy s (specEntropy v n)).entLen.toNat = 4 * n / 3 ∧
      (commitEntropy s (specEntropy v n)).csn.toNat = n / 3 ∧
      (commitEntropy s (specEntropy v n)).ck.toNat = specCk (specEntropy v n) (n / 3) := by
  have hbounds := h.bounds
  rw [commitEntropy_entLen, commitEntropy_csn, commitEntropy_ck, specEntropy_length_div_four, specEntropy_length,
    BitVec.toNat_ofNat, BitVec.toNat_ofNat]
  exact ⟨Nat.mod_eq_of_lt (by omega), Nat.mod_eq_of_lt (by omega), toNat_ckOf_specEntropy v n⟩

end Unpack

/-- Settles O42: the index checks raise as R175 orders them, and the model's ungrouping is the spec's. -/
theorem unpackRestoresEntropy : Obligations.UnpackRestoresEntropy := by
  unfold Obligations.UnpackRestoresEntropy
  refine fun s => ⟨exec_unpack_of_not_legal, fun h => ⟨fun j hj => exec_unpack_of_unknown h hj, fun hle => ⟨?_, ?_⟩⟩⟩
  · exact exec_unpack_of_mismatch h hle
  · exact fun hck => ⟨_, exec_unpack_of_agrees h hle hck, succeeded_finish _, holds_commitBuf s .entBuf _,
      commitEntropy_registers h s (half s)⟩

/-! ### The last index (R172): entropy bits above CS checksum bits -/

section LastIndex
variable {n : Nat}

/-- CSV is the last index's bits [CS-1:0]. -/
theorem specCsv_eq_mod (h : LegalCount n) (v : Nat → Nat) : specCsv v n = v (n - 1) % 2 ^ (n / 3) := by
  have hend := h.stream_length
  obtain ⟨hpos, -, hcs⟩ := h.bounds
  have hbits : (List.range (n / 3)).map (fun t => specStream v (8 * (4 * n / 3) + t) <<< (n / 3 - 1 - t)) =
      (List.range (n / 3)).map (fun t => ((v (n - 1)).testBit (n / 3 - 1 - t)).toNat <<< (n / 3 - 1 - t)) := by
    refine List.map_congr_left fun t ht => ?_
    have ht := List.mem_range.1 ht
    rw [specStream, shiftRight_and_one, show (8 * (4 * n / 3) + t) / 11 = n - 1 by omega,
      show 10 - (8 * (4 * n / 3) + t) % 11 = n / 3 - 1 - t by omega]
  rw [specCsv, hbits, ← bitsVal_eq_sum]
  refine eq_of_testBit_lt (n := n / 3) (by simpa using bitsVal_lt (List.map _ (List.range (n / 3))))
    (Nat.mod_lt _ (Nat.two_pow_pos _)) fun k hk => ?_
  rw [bitsVal_range_testBit _ _ _ hk, Nat.testBit_mod_two_pow, decide_eq_true hk, Bool.true_and]
  congr 1
  omega

/-- A stream bit before the checksum bits comes from an earlier index or from the last one's bits [10:CS]. -/
theorem specStream_entropy_congr (h : LegalCount n) {v w : Nat → Nat} (hinit : ∀ j < n - 1, v j = w j)
    (hlast : v (n - 1) >>> (n / 3) = w (n - 1) >>> (n / 3)) {k : Nat} (hk : k < 8 * (4 * n / 3)) :
    specStream v k = specStream w k := by
  have hend := h.stream_length
  obtain ⟨-, -, hcs⟩ := h.bounds
  rw [specStream, specStream]
  rcases Nat.lt_or_ge (k / 11) (n - 1) with hj | hj
  · rw [hinit _ hj]
  · have hj : k / 11 = n - 1 := by omega
    obtain ⟨b, hb⟩ : ∃ b, 10 - k % 11 = n / 3 + b := Nat.exists_eq_add_of_le (by omega)
    rw [hj, hb, Nat.shiftRight_add, Nat.shiftRight_add, hlast]

theorem specEntropy_congr (h : LegalCount n) {v w : Nat → Nat} (hinit : ∀ j < n - 1, v j = w j)
    (hlast : v (n - 1) >>> (n / 3) = w (n - 1) >>> (n / 3)) : specEntropy v n = specEntropy w n := by
  refine List.map_congr_left fun i hi => congrArg (BitVec.ofNat 8) (congrArg List.sum ?_)
  refine List.map_congr_left fun t ht => ?_
  have hi := List.mem_range.1 hi
  have ht := List.mem_range.1 ht
  rw [specStream_entropy_congr h hinit hlast (by omega)]

end LastIndex

/-! ### Flipping a checksum bit (R177) -/

section Flip
variable {k c : Nat}

theorem xor_two_pow_shiftRight (x : Nat) (hk : k < c) : (x ^^^ 2 ^ k) >>> c = x >>> c := by
  rw [Nat.shiftRight_xor_distrib, Nat.shiftRight_eq_div_pow (2 ^ k), Nat.div_eq_of_lt (Nat.pow_lt_pow_right (by decide) hk),
    Nat.xor_zero]

theorem xor_two_pow_mod_ne (x : Nat) (hk : k < c) : (x ^^^ 2 ^ k) % 2 ^ c ≠ x % 2 ^ c := by
  intro heq
  have hbit := congrArg (fun y => y.testBit k) heq
  simp [Nat.testBit_mod_two_pow, hk] at hbit

theorem xor_two_pow_le_2047 {x : Nat} (hx : x ≤ 2047) (hk : k < 11) : x ^^^ 2 ^ k ≤ 2047 :=
  Nat.le_of_lt_succ (Nat.xor_lt_two_pow (n := 11) (Nat.lt_succ_of_le hx) (Nat.pow_lt_pow_right (by decide) hk))

end Flip

/-- Settles O45: the flip leaves the last index's bits [10:CS], so E and the recomputed CK, and changes CSV. -/
theorem checksumBitFlipIsDetected : Obligations.ChecksumBitFlipIsDetected := by
  unfold Obligations.ChecksumBitFlipIsDetected
  intro s t s' k hexec hok hk hcount hinit hlast
  obtain ⟨hlegal, hle, hck⟩ := unpack_succeeds_checks hexec hok
  obtain ⟨hpos, -, hcs⟩ := hlegal.bounds
  have hentropy : specEntropy (half s') s.wordCount.toNat = specEntropy (half s) s.wordCount.toNat :=
    specEntropy_congr hlegal hinit (by rw [hlast, xor_two_pow_shiftRight _ hk])
  have hcsv : specCsv (half s') s.wordCount.toNat ≠ specCsv (half s) s.wordCount.toNat := by
    rw [specCsv_eq_mod hlegal, specCsv_eq_mod hlegal, hlast]
    exact xor_two_pow_mod_ne _ hk
  have hle' : ∀ j < s.wordCount.toNat, half s' j ≤ 2047 := by
    intro j hj
    rcases Nat.lt_or_ge j (s.wordCount.toNat - 1) with hj' | hj'
    · rw [hinit j hj']
      exact hle j hj
    · rw [show j = s.wordCount.toNat - 1 by omega, hlast]
      exact xor_two_pow_le_2047 (hle _ (by omega)) (by omega)
  refine exec_unpack_of_mismatch (hcount ▸ hlegal) (hcount ▸ hle') ?_
  rw [hcount, ChecksumAgrees, hentropy, hck]
  exact hcsv.symm

end Sys2Proof.Machine
end

section
/-! The table gate and what TableInv says of entries and reverse lookups (spec/43_wordtable.md R190, R192, spec/10_state.md
R66-R69). -/

namespace Sys2Proof.Machine

variable {s : State}

/-! ### The table gate -/

/-- R190: nothing after the gate is looked at. -/
theorem needTable_bind_of_unsealed {α : Type} (h : s.tableValid = false) (f : Unit → Except Raise α) :
    (needTable s >>= f) = .error ⟨.invalidWordlist, noIndex⟩ :=
  bind_error_iff.2 (.inl (needTable_error.2 ⟨h, rfl⟩))

theorem needTable_bind_of_sealed {α : Type} (h : s.tableValid = true) (f : Unit → Except Raise α) :
    (needTable s >>= f) = f () := by
  rw [(needTable_ok (u := ())).2 h, ok_bind]

theorem decodeText_of_unsealed (h : s.tableValid = false) : decodeText s = .error ⟨.invalidWordlist, noIndex⟩ :=
  needTable_bind_of_unsealed h _

theorem decodeBinary_of_unsealed (h : s.tableValid = false) : decodeBinary s = .error ⟨.invalidWordlist, noIndex⟩ :=
  needTable_bind_of_unsealed h _

theorem complete_of_raise {x : Except Raise State} {r : Raise} (h : x = .error r) :
    complete s x = failedWith s r.kind.code r.info := by
  rw [h, complete_error_eq_failedWith]

theorem exec_gated_of_unsealed (h : s.tableValid = false) {i : Instr} (hi : i ∈ gatedCommands) :
    exec i s = .next (failedWith s 2 0xFFFF) := by
  have hend {x : Except Raise State} (hx : x = .error ⟨.invalidWordlist, noIndex⟩) :
      (.next (complete s x) : Host.Outcome State Fault Refusal) = .next (failedWith s 2 0xFFFF) :=
    congrArg Host.Outcome.next (complete_of_raise hx)
  simp only [gatedCommands, List.mem_cons, List.not_mem_nil, or_false] at hi
  rcases hi with rfl | rfl | rfl | rfl | rfl | rfl | rfl | rfl
  · exact hend (x := runTblRead s) (needTable_bind_of_unsealed h _)
  · exact hend (x := runTblFind s) (needTable_bind_of_unsealed h _)
  · exact hend (x := runW2i s) (needTable_bind_of_unsealed h _)
  · exact hend (x := runI2w s) (needTable_bind_of_unsealed h _)
  · exact hend (x := runE2m s) (needTable_bind_of_unsealed h _)
  · exact hend (x := runM2eTxt s) (bind_error_iff.2 (.inl (decodeText_of_unsealed h)))
  · exact hend (x := runM2eBin s) (bind_error_iff.2 (.inl (decodeBinary_of_unsealed h)))
  · exact hend (x := runSeedprepBin s) (needTable_bind_of_unsealed h _)

/-- Settles O27: each of the ten commands looks at TABLE_VALID first. -/
theorem unsealedTableGate : Obligations.UnsealedTableGate := by
  unfold Obligations.UnsealedTableGate
  refine fun s h => ⟨fun i hi => exec_gated_of_unsealed h hi, fun i hi => ?_⟩
  simp only [List.mem_cons, List.not_mem_nil, or_false] at hi
  rcases hi with rfl | rfl
  · exact congrArg (fun x => Host.Outcome.next (completeVal s x)) (decodeText_of_unsealed h)
  · exact congrArg (fun x => Host.Outcome.next (completeVal s x)) (decodeBinary_of_unsealed h)

/-! ### Entries and reverse lookups -/

/-- Entries are listed below 2048 only. -/
theorem TableInv.table_wf (h : TableInv s) : Table.wf s.wt :=
  ⟨h.canonical, fun e he => Nat.lt_of_lt_of_le (h.pushed e he) (Nat.min_le_right _ _)⟩

/-- R192: an entry, listed or empty, has at most WORD_MAX bytes. -/
theorem TableInv.wtEntry_length_le (h : TableInv s) (i : Nat) : (wtEntry s.wt i).length ≤ 64 := by
  by_cases hnil : wtEntry s.wt i = []
  · simp [hnil]
  · exact (h.text _ (Sparse.mem_of_get [] hnil)).1

/-- R194: a sealed table is complete. -/
theorem TableInv.wtEntry_ne_nil (h : TableInv s) (hsealed : s.tableValid = true) {i : Nat} (hi : i < 2048) :
    wtEntry s.wt i ≠ [] := by
  obtain ⟨hcount, -, hgood⟩ := h.sealed hsealed
  exact h.noGap hgood i (by omega)

theorem TableInv.noRidx_nil (h : TableInv s) (hsealed : s.tableValid = true) : NoRidx s [] :=
  fun _ hi => h.wtEntry_ne_nil hsealed hi

/-- The model's reverse lookup is the RIDX of R69. -/
theorem TableInv.ridx_eq_some_iff (h : TableInv s) {w : Bytes} {i : Nat} : ridx s.wt w = some i ↔ IsRidx s w i :=
  ⟨ridx_some h.table_wf, fun ⟨hlt, hentry, hlowest⟩ => ridx_eq_some h.table_wf hlt hentry hlowest⟩

theorem TableInv.ridx_eq_none_iff (h : TableInv s) {w : Bytes} : ridx s.wt w = none ↔ NoRidx s w :=
  ⟨ridx_none h.table_wf, ridx_eq_none h.table_wf⟩

end Sys2Proof.Machine
end

section
/-! TBL_RESET, TBL_PUSH and TBL_SEAL (spec/43_wordtable.md R191-R194). -/

namespace Sys2Proof.Machine

variable {s : State}

/-! ### TBL_RESET -/

theorem Instr.writesTableValid_iff (i : Instr) : Instr.writesTableValid i = true ↔ i = .tblReset ∨ i = .tblSeal := by
  cases i <;> decide

/-- R123: no commit set but those of TBL_RESET and TBL_SEAL holds TABLE_VALID. -/
theorem Commits.tableValid_eq {i : Instr} {u : State} (h : Commits i s u) (hi : Instr.writesTableValid i = false) :
    u.tableValid = s.tableValid := by
  cases h
  case tblReset => cases hi
  case tblSeal => cases hi
  case nop => rfl
  case zeroize =>
    obtain ⟨m, hm⟩ := clearBufs_eq s Buf.all
    rw [zeroized, hm]
  case tblPush hrun =>
    obtain ⟨-, rfl⟩ := runTblPush_ok.1 hrun
    obtain ⟨_, _, _, hpush⟩ := pushEntry_eq s s.tblCount.toNat s.stageLen.toNat (stagedWord s)
    rw [hpush]
  case tblRead hrun => obtain ⟨-, -, rfl⟩ := runTblRead_ok.1 hrun; rfl
  case tblFind hrun => obtain ⟨-, -, _, -, rfl⟩ := runTblFind_ok.1 hrun; rfl
  case cksum hrun => obtain ⟨_, -, rfl⟩ := runCksum_ok.1 hrun; simp
  case pack hrun => obtain ⟨_, -, rfl⟩ := runPack_ok.1 hrun; simp
  case unpack hrun => obtain ⟨_, -, _, -, rfl⟩ := runUnpack_ok.1 hrun; simp
  case normalize hrun => obtain ⟨_, -, rfl⟩ := runNormalize_ok.1 hrun; simp
  case salt hrun => obtain ⟨_, -, rfl⟩ := runSalt_ok.1 hrun; simp
  case w2i hrun => obtain ⟨-, -, _, -, rfl⟩ := runW2i_ok.1 hrun; simp
  case i2w hrun => obtain ⟨-, _, -, rfl⟩ := runI2w_ok.1 hrun; simp
  case e2m hrun => obtain ⟨-, _, -, rfl⟩ := runE2m_ok.1 hrun; simp
  case m2eTxt hrun => obtain ⟨_, -, rfl⟩ := runM2eTxt_ok.1 hrun; simp
  case m2eBin hrun => obtain ⟨_, -, rfl⟩ := runM2eBin_ok.1 hrun; simp
  case seedprepTxt hrun => obtain ⟨_, -, _, -, rfl⟩ := runSeedprepTxt_ok.1 hrun; simp
  case seedprepBin hrun => obtain ⟨-, _, -, _, -, rfl⟩ := runSeedprepBin_ok.1 hrun; simp

/-- TBL_SEAL sets TABLE_VALID or leaves it at 1 (R194). -/
theorem Commits.tableValid_of_tblSeal {u : State} (h : Commits .tblSeal s u) : u.tableValid = true := by
  cases h with
  | tblSeal hrun =>
    obtain ⟨hsealed, rfl⟩ | ⟨-, -, -, -, rfl⟩ := runTblSeal_ok.1 hrun
    · exact hsealed
    · rfl

theorem Commits.tableValid_of_ne_tblReset {i : Instr} {u : State} (h : Commits i s u) (hi : i ≠ .tblReset)
    (hsealed : s.tableValid = true) : u.tableValid = true := by
  cases hw : Instr.writesTableValid i with
  | false => rw [h.tableValid_eq hw, hsealed]
  | true =>
    obtain rfl := ((Instr.writesTableValid_iff i).1 hw).resolve_left hi
    exact h.tableValid_of_tblSeal

theorem exec_tableValid_of_ne_tblReset {i : Instr} {t : State} (h : exec i s = .next t) (hi : i ≠ .tblReset)
    (hsealed : s.tableValid = true) : t.tableValid = true := by
  obtain ⟨u, hu, rfl⟩ | ⟨r, rfl, -, -⟩ | ⟨-, rfl | ⟨r, rfl⟩⟩ := exec_cases h
  · exact hu.tableValid_of_ne_tblReset hi hsealed
  all_goals exact hsealed

/-- Settles O35: an unsealing command is TBL_RESET, because no other commit set clears TABLE_VALID. -/
theorem tblResetEmptiesTable : Obligations.TblResetEmptiesTable := by
  unfold Obligations.TblResetEmptiesTable
  refine ⟨fun s => ⟨_, rfl, succeeded_finish _, Sparse.get_nil [], rfl, rfl, rfl, rfl, rfl⟩, ?_⟩
  intro i s t h hsealed hunsealed
  by_contra hi
  rw [exec_tableValid_of_ne_tblReset h hi hsealed] at hunsealed
  cases hunsealed

/-! ### TBL_PUSH -/

section Push
variable {n len : Nat} {w : Bytes}

theorem pushEntry_of_good (hn : n < 2048) (hw : entryOk len w = true) : pushEntry s n len w = setEntry s n w := by
  rw [pushEntry, if_pos (show n < Config.tableSize from hn), if_pos hw]

theorem pushEntry_of_bad (hn : n < 2048) (hw : entryOk len w = false) :
    pushEntry s n len w = { setEntry s n [] with tblBad := true } := by
  rw [pushEntry, if_pos (show n < Config.tableSize from hn), if_neg (Bool.eq_false_iff.1 hw)]

theorem pushEntry_of_surplus (hn : 2048 ≤ n) : pushEntry s n len w = { s with tblOver := true } := by
  rw [pushEntry, if_neg (show ¬n < Config.tableSize from Nat.not_lt.2 hn)]

theorem wtEntry_setEntry_of_ne {i : Nat} (hi : i ≠ n) : wtEntry (setEntry s n w).wt i = wtEntry s.wt i := by
  rw [wtEntry_setEntry, if_neg hi]

theorem wtEntry_setEntry_self : wtEntry (setEntry s n w).wt n = w := by rw [wtEntry_setEntry, if_pos rfl]

theorem wtEntry_pushEntry_of_ne {i : Nat} (hi : i ≠ n) : wtEntry (pushEntry s n len w).wt i = wtEntry s.wt i := by
  rcases Nat.lt_or_ge n 2048 with hn | hn
  · cases hw : entryOk len w with
    | true => rw [pushEntry_of_good hn hw, wtEntry_setEntry_of_ne hi]
    | false => rw [pushEntry_of_bad hn hw]; exact wtEntry_setEntry_of_ne hi
  · rw [pushEntry_of_surplus hn]

/-- R192. -/
theorem entryOk_eq_false (h : len = 0 ∨ 64 < len ∨ utf8Wf w = false) : entryOk len w = false := by
  refine Bool.eq_false_iff.2 fun hok => ?_
  obtain ⟨hpos, hmax, hwf⟩ := (entryOk_iff len w).1 hok
  rcases h with hzero | hlong | hbad
  · omega
  · omega
  · rw [hwf] at hbad; cases hbad

end Push

/-- The commit set of TBL_PUSH (R193): the entry and its flags, and TBL_COUNT. -/
def pushed (s : State) : State :=
  { pushEntry s s.tblCount.toNat s.stageLen.toNat (stagedOf s) with
    tblCount := BitVec.ofNat 16 (min (s.tblCount.toNat + 1) 0xFFFF) }

theorem exec_tblPush (s : State) : exec .tblPush s = .next (complete s (runTblPush s)) := rfl

theorem exec_tblPush_of_unsealed (h : s.tableValid = false) : exec .tblPush s = .next (finish (pushed s) 0 noIndex) := by
  rw [exec_tblPush, runTblPush_ok.2 ⟨h, rfl⟩, complete_ok]
  rfl

theorem exec_tblPush_of_sealed (h : s.tableValid = true) : exec .tblPush s = .next (failedWith s 10 0xFFFF) := by
  have hrun : runTblPush s = .error ⟨.sequenceError, noIndex⟩ := if_pos h
  rw [exec_tblPush, complete_of_raise hrun]
  rfl

theorem toNat_pushed_tblCount (s : State) : (pushed s).tblCount.toNat = min (s.tblCount.toNat + 1) 0xFFFF := by
  show (BitVec.ofNat 16 (min (s.tblCount.toNat + 1) 0xFFFF)).toNat = _
  rw [BitVec.toNat_ofNat]
  omega

/-- Settles O36: the check of R192 decides between a good and a bad entry, TBL_COUNT between an entry and a surplus one. -/
theorem tblPushAppendsEntry : Obligations.TblPushAppendsEntry := by
  unfold Obligations.TblPushAppendsEntry
  refine fun s => ⟨exec_tblPush_of_sealed, fun h => ⟨_, exec_tblPush_of_unsealed h, succeeded_finish _,
    toNat_pushed_tblCount s, fun i hi => wtEntry_pushEntry_of_ne hi, ?_, ?_, ?_⟩⟩
  · intro hn hpos hmax hwf
    rw [finish_wt, finish_tblBad, finish_tblOver, pushed, pushEntry_of_good hn ((entryOk_iff _ _).2 ⟨hpos, hmax, hwf⟩)]
    exact ⟨wtEntry_setEntry_self, rfl, rfl⟩
  · intro hn hbad
    rw [finish_wt, finish_tblBad, finish_tblOver, pushed, pushEntry_of_bad hn (entryOk_eq_false hbad)]
    exact ⟨wtEntry_setEntry_self, rfl, rfl⟩
  · intro hn
    rw [finish_wt, finish_tblBad, finish_tblOver, pushed, pushEntry_of_surplus hn]
    exact ⟨rfl, rfl, rfl⟩

/-! ### TBL_SEAL -/

theorem exec_tblSeal (s : State) : exec .tblSeal s = .next (complete s (runTblSeal s)) := rfl

/-- Settles O37: a sealed table, one of 2048 good entries, and any other are the three branches of TBL_SEAL. -/
theorem tblSealValidatesTable : Obligations.TblSealValidatesTable := by
  unfold Obligations.TblSealValidatesTable
  refine fun s => ⟨fun h => ?_, fun h hcount hover hbad => ?_, fun h hfault => ?_⟩
  · rw [exec_tblSeal, runTblSeal_ok.2 (.inl ⟨h, rfl⟩)]
    rfl
  · rw [exec_tblSeal, runTblSeal_ok.2 (.inr ⟨h, hcount, hover, hbad, rfl⟩)]
    rfl
  · have hrun : runTblSeal s = .error ⟨.invalidWordlist, noIndex⟩ := by
      rw [runTblSeal, if_neg (Bool.eq_false_iff.1 h)]
      exact if_pos hfault
    rw [exec_tblSeal, complete_of_raise hrun]
    rfl

end Sys2Proof.Machine
end

section
/-! TBL_READ and TBL_FIND (spec/43_wordtable.md R195, R196). -/

namespace Sys2Proof.Machine

variable {s : State}

/-! ### TBL_READ -/

theorem exec_tblRead (s : State) : exec .tblRead s = .next (complete s (runTblRead s)) := rfl

/-- Settles O38: an entry has at most 64 bytes, so STAGE_BUF and STAGE_LEN hold it whole. -/
theorem tblReadReturnsEntry : Obligations.TblReadReturnsEntry := by
  unfold Obligations.TblReadReturnsEntry
  refine fun s hinv => ⟨fun h => exec_gated_of_unsealed h (by decide), fun h hi => ?_, fun h hi => ?_⟩
  · have hrun : runTblRead s = .error ⟨.unknownWord, 0⟩ := (needTable_bind_of_sealed h _).trans (if_pos hi)
    rw [exec_tblRead, complete_of_raise hrun]
    rfl
  · rw [exec_tblRead, runTblRead_ok.2 ⟨h, hi, rfl⟩, complete_ok]
    refine ⟨_, rfl, succeeded_finish _, holds_commitBuf s .stageBuf _, ?_⟩
    have hlen := hinv.wtEntry_length_le s.lookupIdx.toNat
    rw [finish_stageLen, BitVec.toNat_ofNat]
    omega

/-! ### TBL_FIND -/

theorem exec_tblFind (s : State) : exec .tblFind s = .next (complete s (runTblFind s)) := rfl

theorem stagedOf_eq_bufBytes (h : s.stageLen.toNat ≤ 64) : stagedOf s = bufBytes s .stageBuf s.stageLen.toNat := by
  rw [stagedOf, Nat.min_eq_left h]

theorem stagedOf_eq_nil (h : s.stageLen.toNat = 0) : stagedOf s = [] := by
  rw [stagedOf_eq_bufBytes (by omega), h]
  rfl

theorem exec_tblFind_of_isRidx (hinv : TableInv s) (h : s.tableValid = true) (hlen : s.stageLen.toNat ≤ 64) {i : Nat}
    (hi : IsRidx s (stagedOf s) i) :
    exec .tblFind s = .next (failedWith { s with lookupIdx := BitVec.ofNat 16 i } 0 0xFFFF) := by
  rw [stagedOf_eq_bufBytes hlen] at hi
  rw [exec_tblFind, runTblFind_ok.2 ⟨h, hlen, i, hinv.ridx_eq_some_iff.2 hi, rfl⟩]
  rfl

/-- R196: a word that is too long is not looked up, and one that is in no entry is not found. -/
theorem exec_tblFind_of_unknown (hinv : TableInv s) (h : s.tableValid = true)
    (hun : 64 < s.stageLen.toNat ∨ NoRidx s (stagedOf s)) : exec .tblFind s = .next (failedWith s 4 0) := by
  have hrun : runTblFind s = .error ⟨.unknownWord, 0⟩ := by
    refine (needTable_bind_of_sealed h _).trans (limit_error_iff.2 ?_)
    rcases Nat.lt_or_ge 64 s.stageLen.toNat with hlong | hshort
    · exact .inl ⟨hlong, rfl⟩
    · have hno := hun.resolve_left (Nat.not_lt.2 hshort)
      rw [stagedOf_eq_bufBytes hshort] at hno
      rw [hinv.ridx_eq_none_iff.2 hno]
      exact .inr ⟨Nat.not_lt.2 hshort, rfl⟩
  rw [exec_tblFind, complete_of_raise hrun]
  rfl

/-- Settles O39: the model's lookup answers RIDX, and a sealed table has no entry for the empty word. -/
theorem tblFindReturnsLowestIndex : Obligations.TblFindReturnsLowestIndex := by
  unfold Obligations.TblFindReturnsLowestIndex
  refine fun s hinv => ⟨fun h => exec_gated_of_unsealed h (by decide), fun h =>
    ⟨fun i hlen hi => exec_tblFind_of_isRidx hinv h hlen hi, fun hun => exec_tblFind_of_unknown hinv h ?_⟩⟩
  rcases hun with hempty | hlong | hno
  · exact .inr (stagedOf_eq_nil hempty ▸ hinv.noRidx_nil h)
  · exact .inl hlong
  · exact .inr hno

end Sys2Proof.Machine
end

section
/-! W2I and I2W (spec/43_wordtable.md R197-R200). -/

namespace Sys2Proof.Machine

variable {s : State}

/-! ### The operand checks (R197, R275) -/

theorem countIn_of_legal (h : LegalCount s.wordCount.toNat) : countIn s = .ok s.wordCount.toNat :=
  countIn_ok.2 ⟨(countOk_iff _).2 h, rfl⟩

theorem countIn_of_not_legal (h : ¬LegalCount s.wordCount.toNat) :
    countIn s = .error ⟨.invalidMnemonicWordCount, noIndex⟩ :=
  countIn_error.2 ⟨Bool.eq_false_iff.2 fun hok => h ((countOk_iff _).1 hok), rfl⟩

theorem indicesIn_of_not_legal (h : ¬LegalCount s.wordCount.toNat) :
    indicesIn s = .error ⟨.invalidMnemonicWordCount, noIndex⟩ :=
  bind_error_iff.2 (.inl (countIn_of_not_legal h))

theorem indicesIn_of_unknown (h : LegalCount s.wordCount.toNat) {j : Nat} (hj : j < s.wordCount.toNat)
    (hbad : 2047 < half s j) (hfirst : ∀ i < j, half s i ≤ 2047) :
    indicesIn s = .error ⟨.unknownWord, BitVec.ofNat 16 j⟩ :=
  indicesIn_error.2 (.inr ⟨(countOk_iff _).2 h, j, hj, hbad, hfirst, rfl⟩)

theorem indicesIn_of_inRange (h : LegalCount s.wordCount.toNat) (hle : ∀ j < s.wordCount.toNat, half s j ≤ 2047) :
    indicesIn s = .ok ((List.range s.wordCount.toNat).map (half s)) :=
  indicesIn_ok.2 ⟨(countOk_iff _).2 h, hle, rfl⟩

/-! ### W2I -/

theorem exec_w2i (s : State) : exec .w2i s = .next (complete s (runW2i s)) := rfl

theorem exec_w2i_of_not_legal (hsealed : s.tableValid = true) (h : ¬LegalCount s.wordCount.toNat) :
    exec .w2i s = .next (failedWith s 3 0xFFFF) := by
  have hrun : runW2i s = .error ⟨.invalidMnemonicWordCount, noIndex⟩ :=
    (needTable_bind_of_sealed hsealed _).trans (bind_error_iff.2 (.inl (countIn_of_not_legal h)))
  rw [exec_w2i, complete_of_raise hrun]
  rfl

/-- R198: the first token in phrase order that matches no entry. -/
theorem exec_w2i_of_unknown (hinv : TableInv s) (hsealed : s.tableValid = true) (h : LegalCount s.wordCount.toNat)
    {j : Nat} (hj : j < s.wordCount.toNat) (hno : NoRidx s (tokenBytes s j))
    (hfirst : ∀ i < j, ∃ k, IsRidx s (tokenBytes s i) k) :
    exec .w2i s = .next (failedWith s 4 (BitVec.ofNat 16 j)) := by
  have hlookup : lookupAll s.wt ((List.range s.wordCount.toNat).map (tokenBytes s)) 0 =
      .error ⟨.unknownWord, BitVec.ofNat 16 j⟩ := by
    refine lookupAll_error.2 ⟨j, by simpa using hj, ?_, fun i hi => ?_, by rw [Nat.zero_add]⟩
    · rw [List.getElem_map, List.getElem_range]
      exact hinv.ridx_eq_none_iff.2 hno
    · obtain ⟨k, hk⟩ := hfirst i hi
      rw [List.getElem_map, List.getElem_range, hinv.ridx_eq_some_iff.2 hk]
      exact Option.some_ne_none k
  have hrun : runW2i s = .error ⟨.unknownWord, BitVec.ofNat 16 j⟩ := by
    rw [runW2i, needTable_bind_of_sealed hsealed, countIn_of_legal h, ok_bind, hlookup, error_bind]
  rw [exec_w2i, complete_of_raise hrun]
  rfl

theorem exec_w2i_of_known (hinv : TableInv s) (hsealed : s.tableValid = true) (h : LegalCount s.wordCount.toNat)
    {v : Nat → Nat} (hv : ∀ j < s.wordCount.toNat, IsRidx s (tokenBytes s j) (v j)) :
    exec .w2i s = .next (finish (commitIdx s ((List.range s.wordCount.toNat).map v)) 0 noIndex) := by
  have hlookup : lookupAll s.wt ((List.range s.wordCount.toNat).map (tokenBytes s)) 0 =
      .ok ((List.range s.wordCount.toNat).map v) := by
    rw [lookupAll_ok, List.map_map, List.map_map]
    exact List.map_congr_left fun j hj => hinv.ridx_eq_some_iff.2 (hv j (List.mem_range.1 hj))
  rw [exec_w2i, runW2i_ok.2 ⟨hsealed, (countOk_iff _).2 h, _, hlookup, rfl⟩, complete_ok]

/-- R56 for indices given as a function of the position. -/
theorem holdsIdx_commitIdx_range (s : State) {n : Nat} {v : Nat → Nat} (hv : ∀ j < n, v j < 65536) :
    HoldsIdx (commitIdx s ((List.range n).map v)) n v := by
  intro j hj
  have hfit : ∀ x ∈ (List.range n).map v, x < 65536 := by
    intro x hx
    obtain ⟨i, hi, rfl⟩ := List.mem_map.1 hx
    exact hv i (List.mem_range.1 hi)
  have hhalf := holdsIdx_commitIdx s ((List.range n).map v) hfit j hj
  rw [List.length_map, List.length_range] at hhalf
  rw [hhalf]
  split
  case isTrue hlt => simp [List.getD_eq_getElem?_getD, hlt]
  case isFalse => rfl

/-- Settles O47: the checks raise in the order of R198, and the lookup of a token is its RIDX. -/
theorem w2iLooksUpEveryToken : Obligations.W2iLooksUpEveryToken := by
  unfold Obligations.W2iLooksUpEveryToken
  intro s tok hinv htok
  obtain rfl : tok = tokenBytes s := funext htok
  refine ⟨fun hunsealed => exec_gated_of_unsealed hunsealed (by decide), exec_w2i_of_not_legal, fun hsealed h =>
    ⟨fun j hj hno hfirst => exec_w2i_of_unknown hinv hsealed h hj hno hfirst, fun v hv =>
      ⟨_, exec_w2i_of_known hinv hsealed h hv, succeeded_finish _, ?_⟩⟩⟩
  exact holdsIdx_commitIdx_range s fun j hj => Nat.lt_trans (hv j hj).1 (by decide)

/-! ### I2W -/

theorem exec_i2w (s : State) : exec .i2w s = .next (complete s (runI2w s)) := rfl

theorem exec_i2w_of_indicesIn_error (hsealed : s.tableValid = true) {r : Raise} (h : indicesIn s = .error r) :
    exec .i2w s = .next (failedWith s r.kind.code r.info) := by
  have hrun : runI2w s = .error r := (needTable_bind_of_sealed hsealed _).trans (bind_error_iff.2 (.inl h))
  rw [exec_i2w, complete_of_raise hrun]

theorem exec_i2w_of_inRange (hsealed : s.tableValid = true) (h : LegalCount s.wordCount.toNat)
    (hle : ∀ j < s.wordCount.toNat, half s j ≤ 2047) :
    exec .i2w s = .next (finish (commitPhrase s
      (joinSp ((List.range s.wordCount.toNat).map (fun j => wtEntry s.wt (half s j))))) 0 noIndex) := by
  rw [exec_i2w, runI2w_ok.2 ⟨hsealed, _, indicesIn_of_inRange h hle, rfl⟩, complete_ok, phraseOf, List.map_map]
  rfl

/-- Joined words of at most m bytes each: m + 1 bytes per word, with its separator, but for the last one's. -/
theorem joinSp_length_succ_le {ws : List Bytes} (hne : ws ≠ []) {m : Nat} (hm : ∀ w ∈ ws, w.length ≤ m) :
    (joinSp ws).length + 1 ≤ ws.length * (m + 1) := by
  have hsum := List.sum_le_card_nsmul (ws.map fun w => w.length + 1) (m + 1) (by simpa using hm)
  rw [joinSp_length ws hne]
  simpa using hsum

/-- R200: 24 entries of at most 64 bytes and 23 separators have at most 1559 bytes. -/
theorem TableInv.phrase_length_le (hinv : TableInv s) {n : Nat} (h : LegalCount n) (v : Nat → Nat) :
    (joinSp ((List.range n).map (fun j => wtEntry s.wt (v j)))).length ≤ 1559 := by
  obtain ⟨hpos, hmax, -⟩ := h.bounds
  have hne : (List.range n).map (fun j => wtEntry s.wt (v j)) ≠ [] := by simpa using hpos.ne'
  have hle := joinSp_length_succ_le hne (m := 64) (by simpa using fun j _ => hinv.wtEntry_length_le (v j))
  rw [List.length_map, List.length_range] at hle
  omega

/-- Settles O48: the checks raise in the order of R199, and the bound of R200 makes the phrase fit TEXT_OUT and OUT_LEN. -/
theorem i2wWritesPhrase : Obligations.I2wWritesPhrase := by
  unfold Obligations.I2wWritesPhrase
  refine fun s hinv => ⟨fun hunsealed => exec_gated_of_unsealed hunsealed (by decide),
    fun hsealed h => exec_i2w_of_indicesIn_error hsealed (indicesIn_of_not_legal h), fun hsealed h =>
    ⟨fun j hj hbad hfirst => exec_i2w_of_indicesIn_error hsealed (indicesIn_of_unknown h hj hbad hfirst), ?_⟩⟩
  rintro hle p rfl
  have hlen := hinv.table.phrase_length_le h (half s)
  refine ⟨hlen, _, exec_i2w_of_inRange hsealed h hle, succeeded_finish _, holds_commitBuf s .textOut _, ?_⟩
  rw [finish_outLen, commitPhrase_outLen, BitVec.toNat_ofNat]
  omega

end Sys2Proof.Machine
end

section
/-! NORMALIZE and SALT (spec/44_normalizer.md R220-R224). -/

namespace Sys2Proof.Machine

variable {s : State}

/-! ### Tokens and their descriptors (R221) -/

/-- A token ends inside the text it was split from. -/
theorem splitSp_token_end_le (t : Bytes) {j : Nat} (hj : j < (splitSp t).length) :
    (((splitSp t).take j).map (fun w => w.length + 1)).sum + (splitSp t)[j].length ≤ t.length := by
  have htotal := joinSp_length (splitSp t) (splitSp_ne_nil t)
  have hcut := List.sum_take_add_sum_drop ((splitSp t).map fun w => w.length + 1) (j + 1)
  rw [List.sum_take_succ _ j (by simpa using hj), ← List.map_take, List.getElem_map] at hcut
  rw [joinSp_splitSp] at htotal
  omega

theorem splitSp_length_le (t : Bytes) : (splitSp t).length ≤ t.length + 1 := by
  rw [splitSp_length]
  exact Nat.succ_le_succ List.count_le_length

/-- R58: the 16-bit fields of a descriptor hold any offset and length inside a text that NORM_BUF can hold. -/
theorem tok_commitTok_descriptors (s : State) {t : Bytes} (ht : t.length ≤ 4096) {j : Nat} (hj : j < 24) :
    tokOff (commitTok s (descriptors 0 (splitSp t))) j =
        (if j < (splitSp t).length then (((splitSp t).take j).map (fun w => w.length + 1)).sum else 0) ∧
      tokLen (commitTok s (descriptors 0 (splitSp t))) j = ((splitSp t).getD j []).length := by
  obtain ⟨hoff, hlen⟩ := tok_commitTok s (descriptors 0 (splitSp t)) j hj
  rw [hoff, hlen, List.getD_eq_getElem?_getD, List.getD_eq_getElem?_getD, descriptors_getElem?]
  rcases Nat.lt_or_ge j (splitSp t).length with hlt | hge
  · have hend := splitSp_token_end_le t hlt
    rw [if_pos hlt, List.getElem?_eq_getElem hlt, Option.map_some, Option.getD_some, Option.getD_some, Nat.zero_add]
    exact ⟨Nat.mod_eq_of_lt (by omega), Nat.mod_eq_of_lt (by omega)⟩
  · rw [if_neg (Nat.not_lt.2 hge), List.getElem?_eq_none hge]
    exact ⟨rfl, rfl⟩

/-- NORMALIZE's commit set for a text that fits NORM_BUF (R222). -/
theorem holdsNorm_commitNorm (s : State) {t : Bytes} (ht : t.length ≤ 4096) : HoldsNorm (commitNorm s ⟨t, splitSp t⟩) t := by
  have hcount := splitSp_length_le t
  refine ⟨(holds_commitBuf s .normBuf t).commit_other (by decide) _, ?_, ?_, fun j hj => tok_commitTok_descriptors _ ht hj⟩
  · rw [commitNorm_normLen, BitVec.toNat_ofNat]
    exact Nat.mod_eq_of_lt (Nat.lt_of_le_of_lt ht (by decide))
  · rw [commitNorm_wordCount, BitVec.toNat_ofNat]
    exact Nat.mod_eq_of_lt (Nat.lt_of_le_of_lt hcount (by omega))

/-! ### NORMALIZE -/

theorem textOf_eq_nil (h : s.textLen = 0) : textOf s = [] := by
  rw [textOf, h]
  rfl

theorem mnemonicIn_of_tooLong (h : 2048 < s.textLen.toNat) : mnemonicIn s = .error ⟨.capacityExceeded, noIndex⟩ :=
  mnemonicIn_error.2 (.inl (textIn_error.2 (.inl ⟨h, rfl⟩)))

theorem mnemonicIn_of_illFormed (h : s.textLen.toNat ≤ 2048) (hwf : utf8Wf (textOf s) = false) :
    mnemonicIn s = .error ⟨.invalidText, noIndex⟩ :=
  mnemonicIn_error.2 (.inl (textIn_error.2 (.inr ⟨h, hwf, rfl⟩)))

theorem mnemonicIn_of_wellFormed (h : s.textLen.toNat ≤ 2048) (hwf : utf8Wf (textOf s) = true) :
    mnemonicIn s = normTok (textOf s) := by
  have hin : textIn s .textIn s.textLen.toNat Config.textMax = .ok (textOf s) := textIn_ok.2 ⟨h, hwf, rfl⟩
  rw [mnemonicIn, hin, ok_bind]

theorem normTok_of_tooLong {t : Bytes} (h : 4096 < (nfkd t).length) : normTok t = .error ⟨.capacityExceeded, noIndex⟩ :=
  normTok_error.2 (.inl ⟨h, rfl⟩)

theorem normTok_of_not_legal {t : Bytes} (h : (nfkd t).length ≤ 4096) (hcount : ¬LegalCount (splitSp (nfkd t)).length) :
    normTok t = .error ⟨.invalidMnemonicWordCount, noIndex⟩ :=
  normTok_error.2 (.inr ⟨h, Bool.eq_false_iff.2 fun hok => hcount ((countOk_iff _).1 hok), rfl⟩)

theorem normTok_of_legal {t : Bytes} (h : (nfkd t).length ≤ 4096) (hcount : LegalCount (splitSp (nfkd t)).length) :
    normTok t = .ok ⟨nfkd t, splitSp (nfkd t)⟩ :=
  normTok_ok.2 ⟨h, (countOk_iff _).2 hcount, rfl⟩

theorem exec_normalize (s : State) : exec .normalize s = .next (complete s (runNormalize s)) := rfl

theorem exec_normalize_of_error {r : Raise} (h : mnemonicIn s = .error r) :
    exec .normalize s = .next (failedWith s r.kind.code r.info) := by
  have hrun : runNormalize s = .error r := bind_error_iff.2 (.inl h)
  rw [exec_normalize, complete_of_raise hrun]

theorem exec_normalize_of_ok {m : NormText} (h : mnemonicIn s = .ok m) :
    exec .normalize s = .next (finish (commitNorm s m) 0 noIndex) := by
  rw [exec_normalize, runNormalize_ok.2 ⟨m, h, rfl⟩, complete_ok]

/-- R222, corner case: the empty text is one empty token. -/
theorem mnemonicIn_of_empty (h : s.textLen = 0) : mnemonicIn s = .error ⟨.invalidMnemonicWordCount, noIndex⟩ := by
  have hempty := textOf_eq_nil h
  rw [mnemonicIn_of_wellFormed (by rw [h]; decide) (by rw [hempty]; rfl), hempty]
  exact normTok_of_not_legal (by decide) (by unfold LegalCount; decide)

/-- Settles O49: the operand checks raise in the order of R220 and R221, and what fits NORM_BUF fits NORM_LEN, WORD_COUNT and
the descriptors. -/
theorem normalizeWritesTokens : Obligations.NormalizeWritesTokens := by
  unfold Obligations.NormalizeWritesTokens
  rintro s n rfl
  refine ⟨fun h => exec_normalize_of_error (mnemonicIn_of_empty h), fun h => exec_normalize_of_error (mnemonicIn_of_tooLong h),
    fun h hwf => exec_normalize_of_error (mnemonicIn_of_illFormed h hwf), fun h hwf => ?_⟩
  have hin := mnemonicIn_of_wellFormed h hwf
  exact ⟨fun hlong => exec_normalize_of_error (hin.trans (normTok_of_tooLong hlong)),
    fun hfit hcount => exec_normalize_of_error (hin.trans (normTok_of_not_legal hfit hcount)),
    fun hfit hcount => ⟨_, exec_normalize_of_ok (hin.trans (normTok_of_legal hfit hcount)), succeeded_finish _,
      holdsNorm_commitNorm s hfit⟩⟩

/-! ### SALT -/

theorem passOf_eq_nil (h : s.passLen = 0) : passOf s = [] := by
  rw [passOf, h]
  rfl

theorem saltIn_of_tooLong (h : 1024 < s.passLen.toNat) : saltIn s = .error ⟨.capacityExceeded, noIndex⟩ :=
  saltIn_error.2 (.inl (textIn_error.2 (.inl ⟨h, rfl⟩)))

theorem saltIn_of_illFormed (h : s.passLen.toNat ≤ 1024) (hwf : utf8Wf (passOf s) = false) :
    saltIn s = .error ⟨.invalidText, noIndex⟩ :=
  saltIn_error.2 (.inl (textIn_error.2 (.inr ⟨h, hwf, rfl⟩)))

theorem saltIn_of_saltTooLong (h : s.passLen.toNat ≤ 1024) (hwf : utf8Wf (passOf s) = true)
    (hlong : 2048 < (Config.saltPrefix ++ nfkd (passOf s)).length) : saltIn s = .error ⟨.capacityExceeded, noIndex⟩ :=
  saltIn_error.2 (.inr ⟨h, hwf, saltOf_error.2 ⟨hlong, rfl⟩⟩)

theorem saltIn_of_fits (h : s.passLen.toNat ≤ 1024) (hwf : utf8Wf (passOf s) = true)
    (hfit : (Config.saltPrefix ++ nfkd (passOf s)).length ≤ 2048) : saltIn s = .ok (Config.saltPrefix ++ nfkd (passOf s)) :=
  saltIn_ok.2 ⟨h, hwf, saltOf_ok.2 ⟨hfit, rfl⟩⟩

/-- R224, corner case: the empty passphrase gives "mnemonic" alone. -/
theorem saltIn_of_empty (h : s.passLen = 0) : saltIn s = .ok Config.saltPrefix := by
  have hempty := passOf_eq_nil h
  have hin := saltIn_of_fits (s := s) (by rw [h]; decide) (by rw [hempty]; rfl) (by rw [hempty]; decide)
  rwa [hempty, nfkd_nil, List.append_nil] at hin

theorem exec_salt (s : State) : exec .salt s = .next (complete s (runSalt s)) := rfl

theorem exec_salt_of_error {r : Raise} (h : saltIn s = .error r) : exec .salt s = .next (failedWith s r.kind.code r.info) := by
  have hrun : runSalt s = .error r := bind_error_iff.2 (.inl h)
  rw [exec_salt, complete_of_raise hrun]

theorem exec_salt_of_ok {v : Bytes} (h : saltIn s = .ok v) : exec .salt s = .next (finish (commitSalt s v) 0 noIndex) := by
  rw [exec_salt, runSalt_ok.2 ⟨v, h, rfl⟩, complete_ok]

/-- SALT_LEN's sixteen bits hold the length of a salt that fits SALT_BUF. -/
theorem toNat_commitSalt_saltLen (s : State) {v : Bytes} (hv : v.length ≤ 2048) :
    (commitSalt s v).saltLen.toNat = v.length := by
  rw [commitSalt_saltLen, BitVec.toNat_ofNat]
  omega

/-- Settles O50: the operand checks raise in the order of R220 and R223, and "mnemonic" alone has eight bytes. -/
theorem saltIsPrefixAndPassphrase : Obligations.SaltIsPrefixAndPassphrase := by
  unfold Obligations.SaltIsPrefixAndPassphrase
  rintro s p rfl
  refine ⟨fun h => ⟨_, exec_salt_of_ok (saltIn_of_empty h), succeeded_finish _, holds_commitBuf s .saltBuf _, rfl⟩,
    fun h => exec_salt_of_error (saltIn_of_tooLong h), fun h hwf => exec_salt_of_error (saltIn_of_illFormed h hwf),
    fun h hwf => ⟨fun hlong => exec_salt_of_error (saltIn_of_saltTooLong h hwf hlong), fun hfit => ?_⟩⟩
  have hlen := toNat_commitSalt_saltLen s (v := Config.saltPrefix ++ nfkd (passOf s)) hfit
  refine ⟨_, exec_salt_of_ok (saltIn_of_fits h hwf hfit), succeeded_finish _, holds_commitBuf s .saltBuf _, hlen, ?_⟩
  rw [finish_saltLen, hlen, List.length_append]
  exact Nat.le_add_right 8 _

end Sys2Proof.Machine
end

section
/-! E2M, M2E_TXT, M2E_BIN, VAL_TXT, VAL_BIN, SEEDPREP_TXT and SEEDPREP_BIN (spec/45_composite.md R240-R246). -/

namespace Sys2Proof.Machine

variable {s : State}

/-! ### How a command with a commit set ends (R70, R280) -/

theorem exec_of_raise {i : Instr} {x : Except Raise State} {r : Raise} (hexec : exec i s = .next (complete s x))
    (h : x = .error r) : exec i s = .next (failedWith s r.kind.code r.info) := by
  rw [hexec, complete_of_raise h]

theorem exec_of_commit {i : Instr} {x : Except Raise State} {u : State} (hexec : exec i s = .next (complete s x))
    (h : x = .ok u) : exec i s = .next (finish u 0 noIndex) := by
  rw [hexec, h, complete_ok]

theorem exec_e2m (s : State) : exec .e2m s = .next (complete s (runE2m s)) := rfl

theorem exec_m2eTxt (s : State) : exec .m2eTxt s = .next (complete s (runM2eTxt s)) := rfl

theorem exec_m2eBin (s : State) : exec .m2eBin s = .next (complete s (runM2eBin s)) := rfl

theorem exec_valTxt (s : State) : exec .valTxt s = .next (completeVal s (decodeText s)) := rfl

theorem exec_valBin (s : State) : exec .valBin s = .next (completeVal s (decodeBinary s)) := rfl

theorem exec_seedprepTxt (s : State) : exec .seedprepTxt s = .next (complete s (runSeedprepTxt s)) := rfl

theorem exec_seedprepBin (s : State) : exec .seedprepBin s = .next (complete s (runSeedprepBin s)) := rfl

/-! ### The checks of a composite, in their order -/

theorem runE2m_error {r : Raise} :
    runE2m s = .error r ↔ needTable s = .error r ∨ (s.tableValid = true ∧ entropyIn s = .error r) := by
  simp only [runE2m, bind_error_iff, needTable_ok, pure_ok, reduceCtorEq, and_false, exists_false, or_false, exists_const]

theorem decodeText_error {r : Raise} :
    decodeText s = .error r ↔
      needTable s = .error r ∨ (s.tableValid = true ∧
        (mnemonicIn s = .error r ∨ ∃ m, mnemonicIn s = .ok m ∧
          (lookupAll s.wt m.toks 0 = .error r ∨ ∃ v, lookupAll s.wt m.toks 0 = .ok v ∧ decodeIndices v = .error r))) := by
  simp only [decodeText, bind_error_iff, needTable_ok, pure_ok, reduceCtorEq, and_false, exists_false, or_false, exists_const]

theorem runM2eTxt_error {r : Raise} : runM2eTxt s = .error r ↔ decodeText s = .error r := by
  simp only [runM2eTxt, bind_error_iff, pure_ok, reduceCtorEq, and_false, exists_false, or_false]

theorem runSeedprepTxt_error {r : Raise} :
    runSeedprepTxt s = .error r ↔ mnemonicIn s = .error r ∨ ∃ m, mnemonicIn s = .ok m ∧ saltIn s = .error r := by
  simp only [runSeedprepTxt, bind_error_iff, pure_ok, reduceCtorEq, and_false, exists_false, or_false]

theorem runSeedprepBin_error {r : Raise} :
    runSeedprepBin s = .error r ↔
      needTable s = .error r ∨ (s.tableValid = true ∧
        (indicesIn s = .error r ∨ ∃ v, indicesIn s = .ok v ∧ saltIn s = .error r)) := by
  simp only [runSeedprepBin, bind_error_iff, needTable_ok, pure_ok, reduceCtorEq, and_false, exists_false, or_false,
    exists_const]

/-! ### Commits beside one another -/

/-- R56: indices stand in IDX_BUF alone. -/
theorem HoldsIdx.commit_other {n : Nat} {v : Nat → Nat} (h : HoldsIdx s n v) {b : Buf} (hb : b ≠ .idxBuf) (ws : Bytes) :
    HoldsIdx (commitBuf s b ws) n v := by
  intro j hj
  have hsize : Buf.idxBuf.size = 48 := rfl
  have hbytes : bytesAt (commitBuf s b ws) (Buf.idxBuf.base + 2 * j) 2 = bytesAt s (Buf.idxBuf.base + 2 * j) 2 :=
    bytesAt_commitBuf_other s hb ws (by omega) (by omega)
  rw [half, hbytes]
  exact h j hj

/-- R222: a normalized text stands in NORM_BUF and TOK_TABLE, and in two registers that no buffer commit touches. -/
theorem HoldsNorm.commit_other {t : Bytes} (h : HoldsNorm s t) {b : Buf} (hnorm : b ≠ .normBuf) (htok : b ≠ .tokTable)
    (ws : Bytes) : HoldsNorm (commitBuf s b ws) t := by
  obtain ⟨htext, hlen, hcount, htoks⟩ := h
  refine ⟨htext.commit_other hnorm ws, hlen, hcount, fun j hj => ?_⟩
  have hsize : Buf.tokTable.size = 96 := rfl
  have hbytes (i : Nat) (hi : i ≤ 2) : bytesAt (commitBuf s b ws) (Buf.tokTable.base + 4 * j + i) 2 =
      bytesAt s (Buf.tokTable.base + 4 * j + i) 2 := bytesAt_commitBuf_other s htok ws (by omega) (by omega)
  have hoff : tokOff (commitBuf s b ws) j = tokOff s j := congrArg leVal (hbytes 0 (by decide))
  have hlen : tokLen (commitBuf s b ws) j = tokLen s j := congrArg leVal (hbytes 2 (Nat.le_refl 2))
  rw [hoff, hlen]
  exact htoks j hj

theorem HoldsIdx.commitPhrase {n : Nat} {v : Nat → Nat} (h : HoldsIdx s n v) (t : Bytes) : HoldsIdx (commitPhrase s t) n v :=
  h.commit_other (b := .textOut) (by decide) t

theorem HoldsIdx.commitEntropy {n : Nat} {v : Nat → Nat} (h : HoldsIdx s n v) (e : Bytes) : HoldsIdx (commitEntropy s e) n v :=
  h.commit_other (b := .entBuf) (by decide) e

theorem HoldsNorm.commitIdx {t : Bytes} (h : HoldsNorm s t) (v : List Nat) : HoldsNorm (commitIdx s v) t :=
  h.commit_other (by decide) (by decide) _

theorem HoldsNorm.commitEntropy {t : Bytes} (h : HoldsNorm s t) (e : Bytes) : HoldsNorm (commitEntropy s e) t :=
  h.commit_other (b := .entBuf) (by decide) (by decide) e

theorem HoldsNorm.commitSalt {t : Bytes} (h : HoldsNorm s t) (v : Bytes) : HoldsNorm (commitSalt s v) t :=
  h.commit_other (b := .saltBuf) (by decide) (by decide) v

theorem holds_commitPhrase (s : State) (t : Bytes) : Holds (commitPhrase s t) .textOut t := holds_commitBuf s .textOut t

theorem holds_commitEntropy (s : State) (e : Bytes) : Holds (commitEntropy s e) .entBuf e := holds_commitBuf s .entBuf e

theorem holds_commitSalt (s : State) (v : Bytes) : Holds (commitSalt s v) .saltBuf v := holds_commitBuf s .saltBuf v

theorem Holds.commitSalt {b : Buf} {t : Bytes} (h : Holds s b t) (hb : .saltBuf ≠ b) (v : Bytes) : Holds (commitSalt s v) b t :=
  h.commit_other hb v

/-! Completion touches no buffer and no operand register (R70). -/

theorem Holds.finish {b : Buf} {t : Bytes} (h : Holds s b t) (err : BitVec 4) (info : Half) : Holds (finish s err info) b t := h

theorem HoldsIdx.finish {n : Nat} {v : Nat → Nat} (h : HoldsIdx s n v) (err : BitVec 4) (info : Half) :
    HoldsIdx (finish s err info) n v := h

theorem HoldsNorm.finish {t : Bytes} (h : HoldsNorm s t) (err : BitVec 4) (info : Half) :
    HoldsNorm (finish s err info) t := h

/-- OUT_LEN's sixteen bits hold the length of a phrase that R200 allows. -/
theorem toNat_commitPhrase_outLen (s : State) {t : Bytes} (ht : t.length ≤ 1559) :
    (commitPhrase s t).outLen.toNat = t.length := by
  rw [commitPhrase_outLen, BitVec.toNat_ofNat]
  omega

/-! ### E2M -/

/-- R240: the entries at the packed indices. -/
theorem phraseOf_packIndices (wt : List (Nat × Bytes)) (e : Bytes) :
    phraseOf wt (packIndices e) =
      joinSp ((List.range (3 * e.length / 4)).map (fun j => wtEntry wt (specIdx e (ckOf e) j))) := by
  simp only [phraseOf, packIndices, List.map_map, specIdx_eq, Function.comp_def]

theorem LegalEntLen.legalCount {l : Nat} (h : LegalEntLen l) : LegalCount (3 * l / 4) := by
  unfold LegalEntLen at h
  unfold LegalCount
  omega

/-- Settles O51: past the gate and the length check nothing can fail, and the phrase's commit leaves what PACK wrote. -/
theorem e2mEncodesEntropy : Obligations.E2mEncodesEntropy := by
  unfold Obligations.E2mEncodesEntropy
  refine fun s hinv => ⟨fun hunsealed => exec_gated_of_unsealed hunsealed (by decide),
    fun hsealed h => exec_of_raise (exec_e2m s) (runE2m_error.2 (.inr ⟨hsealed, entropyIn_of_not_legal h⟩)),
    fun hsealed h => ?_⟩
  have hrun := runE2m_ok.2 ⟨hsealed, _, entropyIn_of_legal h, rfl⟩
  have hidx : HoldsIdx (commitPack s (entropyOf s)) (3 * s.entLen.toNat / 4) (specIdx (entropyOf s) (ckOf (entropyOf s))) := by
    rw [← entropyOf_length]
    exact holdsIdx_commitPack s (entropyOf s)
  have hphrase := phraseOf_packIndices s.wt (entropyOf s)
  rw [entropyOf_length] at hphrase
  have hlen := hinv.table.phrase_length_le h.legalCount (specIdx (entropyOf s) (ckOf (entropyOf s)))
  rw [← hphrase] at hlen
  refine ⟨_, _, exec_of_commit (exec_e2m s) hrun, succeeded_finish _, h.toNat_csn, toNat_ckOf_entropyOf s,
    toNat_commitPack_wordCount s, (hidx.commitPhrase _).finish 0 noIndex, hphrase,
    (holds_commitPhrase _ _).finish 0 noIndex, ?_⟩
  rw [finish_outLen, toNat_commitPhrase_outLen _ hlen]

/-! ### M2E_TXT -/

section Lookup
variable {ws : List Bytes}

/-- R198: the first token in phrase order that matches no entry. -/
theorem lookupAll_of_unknown (hinv : TableInv s) {j : Nat} (hj : j < ws.length) (hno : NoRidx s (ws.getD j []))
    (hfirst : ∀ i < j, ∃ k, IsRidx s (ws.getD i []) k) :
    lookupAll s.wt ws 0 = .error ⟨.unknownWord, BitVec.ofNat 16 j⟩ := by
  refine lookupAll_error.2 ⟨j, hj, ?_, fun i hi => ?_, by rw [Nat.zero_add]⟩
  · rw [← List.getD_eq_getElem ws [] hj]
    exact hinv.ridx_eq_none_iff.2 hno
  · obtain ⟨k, hk⟩ := hfirst i hi
    rw [← List.getD_eq_getElem ws [] (Nat.lt_trans hi hj), hinv.ridx_eq_some_iff.2 hk]
    exact Option.some_ne_none k

theorem lookupAll_of_known (hinv : TableInv s) {v : Nat → Nat} (hv : ∀ j < ws.length, IsRidx s (ws.getD j []) (v j)) :
    lookupAll s.wt ws 0 = .ok ((List.range ws.length).map v) := by
  refine lookupAll_ok.2 (List.ext_getElem (by simp) fun j hj _ => ?_)
  have hj : j < ws.length := by simpa using hj
  have hridx := hinv.ridx_eq_some_iff.2 (hv j hj)
  rw [List.getD_eq_getElem ws [] hj] at hridx
  simpa using hridx

end Lookup

/-- Settles O52: the checks raise in the order of R241, the lookup of a token is its RIDX, and the checksum test is that of
UNPACK. -/
theorem m2eTxtDecodesPhrase : Obligations.M2eTxtDecodesPhrase := by
  unfold Obligations.M2eTxtDecodesPhrase
  rintro s n toks hinv rfl rfl
  have hfail {r : Raise} (h : decodeText s = .error r) := exec_of_raise (exec_m2eTxt s) (runM2eTxt_error.2 h)
  have hmnemonic (hsealed : s.tableValid = true) {r : Raise} (h : mnemonicIn s = .error r) :=
    hfail (decodeText_error.2 (.inr ⟨hsealed, .inl h⟩))
  refine ⟨fun hunsealed => exec_gated_of_unsealed hunsealed (by decide),
    fun hsealed h => hmnemonic hsealed (mnemonicIn_of_tooLong h),
    fun hsealed h hwf => hmnemonic hsealed (mnemonicIn_of_illFormed h hwf), fun hsealed h hwf => ?_⟩
  have hin := mnemonicIn_of_wellFormed h hwf
  refine ⟨fun hlong => hmnemonic hsealed (hin.trans (normTok_of_tooLong hlong)),
    fun hfit hcount => hmnemonic hsealed (hin.trans (normTok_of_not_legal hfit hcount)), fun hfit hcount => ?_⟩
  have hnorm := hin.trans (normTok_of_legal hfit hcount)
  have hpast {r : Raise} (h : lookupAll s.wt (splitSp (nfkd (textOf s))) 0 = .error r ∨
      ∃ v, lookupAll s.wt (splitSp (nfkd (textOf s))) 0 = .ok v ∧ decodeIndices v = .error r) :=
    hfail (decodeText_error.2 (.inr ⟨hsealed, .inr ⟨_, hnorm, h⟩⟩))
  refine ⟨fun j hj hno hfirst => hpast (.inl (lookupAll_of_unknown hinv hj hno hfirst)), fun v hv => ?_⟩
  have hlookup := lookupAll_of_known hinv hv
  have hdecode := decodeIndices_range v (splitSp (nfkd (textOf s))).length
  refine ⟨fun hck => hpast (.inr ⟨_, hlookup, hdecode.trans (if_neg hck)⟩), fun hck => ?_⟩
  have htext := decodeText_ok (d := ⟨_, _, _⟩).2 ⟨hsealed, hnorm, hlookup, hdecode.trans (if_pos hck)⟩
  have hhalf : ∀ j < (splitSp (nfkd (textOf s))).length, v j < 65536 := fun j hj => Nat.lt_trans (hv j hj).1 (by decide)
  refine ⟨_, exec_of_commit (exec_m2eTxt s) (runM2eTxt_ok.2 ⟨_, htext, rfl⟩), succeeded_finish _,
    (((holdsNorm_commitNorm s hfit).commitIdx _).commitEntropy _).finish 0 noIndex,
    ((holdsIdx_commitIdx_range _ hhalf).commitEntropy _).finish 0 noIndex, (holds_commitEntropy _ _).finish 0 noIndex, ?_⟩
  rw [finish_entLen, finish_csn, finish_ck]
  exact commitEntropy_registers hcount _ v

/-! ### M2E_BIN -/

/-- R242: past the gate M2E_BIN is UNPACK. -/
theorem runM2eBin_of_sealed (h : s.tableValid = true) : runM2eBin s = runUnpack s := by
  rw [runM2eBin, decodeBinary, needTable_bind_of_sealed h, bind_assoc, runUnpack]

/-- Settles O53: past the gate the two commands run the same checks and commit the same set. -/
theorem m2eBinEqualsUnpack : Obligations.M2eBinEqualsUnpack := by
  unfold Obligations.M2eBinEqualsUnpack
  refine fun s => ⟨fun hunsealed => exec_gated_of_unsealed hunsealed (by decide), fun hsealed => ?_⟩
  refine ⟨_, exec_m2eBin s, by rw [exec_unpack, runM2eBin_of_sealed hsealed], fun h hle hck => ?_⟩
  rw [runM2eBin_of_sealed hsealed, runUnpack_of_inRange h hle, if_pos hck, complete_ok]
  obtain ⟨hlen, -, -⟩ := commitEntropy_registers h s (half s)
  exact ⟨succeeded_finish _, holds_commitBuf s .entBuf _, hlen⟩

/-! ### VAL_TXT and VAL_BIN -/

/-- R243, R244: `t` reports how a command that ended in `u` met its checks, as fields and as words read, and nothing else
differs from `s`. -/
def ReportsOutcome (s u t : State) : Prop :=
  t = failedWith { s with resValid := u.err == 0, resReason := u.err } 0 u.errIndex ∧
    (readReg t .result).getLsbD 0 = (u.err == 0) ∧ (readReg t .result).extractLsb' 1 3 = 0 ∧
    (readReg t .result).extractLsb' 4 4 = u.err ∧ (readReg t .result).extractLsb' 8 24 = 0 ∧
    readReg t .errIndex = u.errIndex.setWidth 32

/-- The words read follow from the fields of RESULT and ERR_INDEX. -/
theorem reportsOutcome_failedWith (s u : State) :
    ReportsOutcome s u (failedWith { s with resValid := u.err == 0, resReason := u.err } 0 u.errIndex) := by
  obtain ⟨hvalid, hlow, hreason, hhigh⟩ :=
    resultWord_fields (failedWith { s with resValid := u.err == 0, resReason := u.err } 0 u.errIndex)
  exact ⟨rfl, hvalid, hlow, hreason, hhigh, rfl⟩

/-- A VAL command reports the end of the command that commits where the same checks `x` pass. -/
theorem completeVal_reportsOutcome {α : Type} (s : State) (x : Except Raise α) (commit : α → State) :
    ReportsOutcome s (complete s (x >>= fun a => pure (commit a))) (completeVal s x) := by
  cases x with
  | ok a => exact reportsOutcome_failedWith s (finish (commit a) 0 noIndex)
  | error r =>
    have hval : completeVal s (.error r : Except Raise α) =
        failedWith { s with resValid := r.kind.code == 0, resReason := r.kind.code } 0 r.info := by
      rw [beq_eq_false_iff_ne.2 r.kind.code_ne_zero]
      rfl
    rw [hval]
    exact reportsOutcome_failedWith s (finish s r.kind.code r.info)

/-- Settles O54: VAL_TXT runs the checks of M2E_TXT. -/
theorem valTxtReportsTheChecks : Obligations.ValTxtReportsTheChecks := by
  unfold Obligations.ValTxtReportsTheChecks
  exact fun s => ⟨_, _, exec_m2eTxt s, exec_valTxt s, completeVal_reportsOutcome s (decodeText s) _⟩

/-- Settles O55: VAL_BIN runs the checks of M2E_BIN. -/
theorem valBinReportsTheChecks : Obligations.ValBinReportsTheChecks := by
  unfold Obligations.ValBinReportsTheChecks
  exact fun s => ⟨_, _, exec_m2eBin s, exec_valBin s, completeVal_reportsOutcome s (decodeBinary s) _⟩

/-! ### SEEDPREP_TXT -/

/-- Settles O56: the mnemonic's checks come before the passphrase's, and the salt's commit leaves the normalized text. -/
theorem seedprepTxtPreparesBuffers : Obligations.SeedprepTxtPreparesBuffers := by
  unfold Obligations.SeedprepTxtPreparesBuffers
  rintro s n p rfl rfl
  have hmnemonic {r : Raise} (h : mnemonicIn s = .error r) :=
    exec_of_raise (exec_seedprepTxt s) (runSeedprepTxt_error.2 (.inl h))
  refine ⟨fun h => hmnemonic (mnemonicIn_of_tooLong h), fun h hwf => hmnemonic (mnemonicIn_of_illFormed h hwf),
    fun h hwf => ?_⟩
  have hin := mnemonicIn_of_wellFormed h hwf
  refine ⟨fun hlong => hmnemonic (hin.trans (normTok_of_tooLong hlong)),
    fun hfit hcount => hmnemonic (hin.trans (normTok_of_not_legal hfit hcount)), fun hfit hcount => ?_⟩
  have hnorm := hin.trans (normTok_of_legal hfit hcount)
  have hsalt {r : Raise} (h : saltIn s = .error r) :=
    exec_of_raise (exec_seedprepTxt s) (runSeedprepTxt_error.2 (.inr ⟨_, hnorm, h⟩))
  refine ⟨fun h => hsalt (saltIn_of_tooLong h), fun h hwf => hsalt (saltIn_of_illFormed h hwf),
    fun h hwf hlong => hsalt (saltIn_of_saltTooLong h hwf hlong), fun h hwf hsaltFit => ?_⟩
  have hrun := runSeedprepTxt_ok.2 ⟨_, hnorm, _, saltIn_of_fits h hwf hsaltFit, rfl⟩
  refine ⟨_, exec_of_commit (exec_seedprepTxt s) hrun, succeeded_finish _,
    ((holdsNorm_commitNorm s hfit).commitSalt _).finish 0 noIndex, (holds_commitSalt _ _).finish 0 noIndex, ?_⟩
  rw [finish_saltLen]
  exact toNat_commitSalt_saltLen _ hsaltFit

/-! ### SEEDPREP_BIN -/

/-- Settles O57: the indices' checks come before the passphrase's, the phrase fits by R200, and the salt's commit leaves it. -/
theorem seedprepBinPreparesBuffers : Obligations.SeedprepBinPreparesBuffers := by
  unfold Obligations.SeedprepBinPreparesBuffers
  rintro s q p hinv rfl rfl
  have hindices (hsealed : s.tableValid = true) {r : Raise} (h : indicesIn s = .error r) :=
    exec_of_raise (exec_seedprepBin s) (runSeedprepBin_error.2 (.inr ⟨hsealed, .inl h⟩))
  refine ⟨fun hunsealed => exec_gated_of_unsealed hunsealed (by decide),
    fun hsealed hcount => hindices hsealed (indicesIn_of_not_legal hcount), fun hsealed hcount =>
    ⟨fun j hj hbad hfirst => hindices hsealed (indicesIn_of_unknown hcount hj hbad hfirst), fun hle => ?_⟩⟩
  have hin := indicesIn_of_inRange hcount hle
  have hsalt {r : Raise} (h : saltIn s = .error r) :=
    exec_of_raise (exec_seedprepBin s) (runSeedprepBin_error.2 (.inr ⟨hsealed, .inr ⟨_, hin, h⟩⟩))
  refine ⟨fun h => hsalt (saltIn_of_tooLong h), fun h hwf => hsalt (saltIn_of_illFormed h hwf),
    fun h hwf hlong => hsalt (saltIn_of_saltTooLong h hwf hlong), fun h hwf hsaltFit => ?_⟩
  have hrun := runSeedprepBin_ok.2 ⟨hsealed, _, hin, _, saltIn_of_fits h hwf hsaltFit, rfl⟩
  rw [phraseOf, List.map_map] at hrun
  have hlen := hinv.table.phrase_length_le hcount (half s)
  refine ⟨_, exec_of_commit (exec_seedprepBin s) hrun, succeeded_finish _,
    ((holds_commitPhrase s _).commitSalt (by decide) _).finish 0 noIndex, toNat_commitPhrase_outLen s hlen,
    (holds_commitSalt _ _).finish 0 noIndex, ?_⟩
  rw [finish_saltLen]
  exact toNat_commitSalt_saltLen _ hsaltFit

end Sys2Proof.Machine
end

section
/-! The codes a completion leaves in STATUS.ERR and RESULT.REASON (spec/60_exceptions.md R270-R272). -/

namespace Sys2Proof.Machine

variable {s t : State}

theorem legalErr_iff (e : BitVec 4) : legalErr e = true ↔ e ≠ 6 ∧ e.toNat ≤ 10 := by
  simp [legalErr, BitVec.le_def]

theorem ErrKind.legalErr_code (k : ErrKind) : legalErr k.code = true := by cases k <;> decide

/-- R123: no commit set but that of ZEROIZE holds RESULT.REASON; the VAL commands write it outside a commit set. -/
theorem Commits.resReason_eq {i : Instr} {u : State} (h : Commits i s u) (hi : i ≠ .zeroize) :
    u.resReason = s.resReason := by
  cases h
  case zeroize => exact absurd rfl hi
  case nop => rfl
  case tblReset => rfl
  case tblPush hrun =>
    obtain ⟨-, rfl⟩ := runTblPush_ok.1 hrun
    obtain ⟨_, _, _, hpush⟩ := pushEntry_eq s s.tblCount.toNat s.stageLen.toNat (stagedWord s)
    rw [hpush]
  case tblSeal hrun => obtain ⟨-, rfl⟩ | ⟨-, -, -, -, rfl⟩ := runTblSeal_ok.1 hrun <;> rfl
  case tblRead hrun => obtain ⟨-, -, rfl⟩ := runTblRead_ok.1 hrun; rfl
  case tblFind hrun => obtain ⟨-, -, _, -, rfl⟩ := runTblFind_ok.1 hrun; rfl
  case cksum hrun => obtain ⟨_, -, rfl⟩ := runCksum_ok.1 hrun; simp
  case pack hrun => obtain ⟨_, -, rfl⟩ := runPack_ok.1 hrun; simp
  case unpack hrun => obtain ⟨_, -, _, -, rfl⟩ := runUnpack_ok.1 hrun; simp
  case normalize hrun => obtain ⟨_, -, rfl⟩ := runNormalize_ok.1 hrun; simp
  case salt hrun => obtain ⟨_, -, rfl⟩ := runSalt_ok.1 hrun; simp
  case w2i hrun => obtain ⟨-, -, _, -, rfl⟩ := runW2i_ok.1 hrun; simp
  case i2w hrun => obtain ⟨-, _, -, rfl⟩ := runI2w_ok.1 hrun; simp
  case e2m hrun => obtain ⟨-, _, -, rfl⟩ := runE2m_ok.1 hrun; simp
  case m2eTxt hrun => obtain ⟨_, -, rfl⟩ := runM2eTxt_ok.1 hrun; simp
  case m2eBin hrun => obtain ⟨_, -, rfl⟩ := runM2eBin_ok.1 hrun; simp
  case seedprepTxt hrun => obtain ⟨_, -, _, -, rfl⟩ := runSeedprepTxt_ok.1 hrun; simp
  case seedprepBin hrun => obtain ⟨-, _, -, _, -, rfl⟩ := runSeedprepBin_ok.1 hrun; simp

/-- ZEROIZE clears RESULT.REASON (R151); the other commit sets leave it. -/
theorem Commits.resReason_kept_or_zero {i : Instr} {u : State} (h : Commits i s u) :
    u.resReason = s.resReason ∨ u.resReason = 0 := by
  by_cases hi : i = .zeroize
  · subst hi
    cases h
    exact .inr rfl
  · exact .inl (h.resReason_eq hi)

theorem exec_legalErr {i : Instr} (h : exec i s = .next t) : legalErr t.err = true := by
  obtain ⟨u, -, rfl⟩ | ⟨r, rfl, -, -⟩ | ⟨-, rfl | ⟨r, rfl⟩⟩ := exec_cases h
  · rfl
  · exact r.kind.legalErr_code
  · rfl
  · rfl

/-- Only a VAL command writes a code to RESULT.REASON, and it is the code of a raise or 0 (R243, R244). -/
theorem exec_legal_resReason {i : Instr} (h : exec i s = .next t) :
    t.resReason = s.resReason ∨ legalErr t.resReason = true := by
  obtain ⟨u, hu, rfl⟩ | ⟨r, rfl, -, -⟩ | ⟨-, rfl | ⟨r, rfl⟩⟩ := exec_cases h
  · exact hu.resReason_kept_or_zero.imp_right fun hzero => by rw [finish_resReason, hzero]; rfl
  · exact .inl rfl
  · exact .inr rfl
  · exact .inr r.kind.legalErr_code

/-- In the cycle in which a command is due, the block is reset, or the command or the illegal word completes. -/
theorem step_due_legal (hs : s.seq = .busy 0) (h : step s = .next t) :
    legalErr t.err = true ∧ (t.resReason = s.resReason ∨ legalErr t.resReason = true) := by
  obtain ⟨hidle, -⟩ | ⟨_, hbusy, -⟩ | ⟨-, ⟨_, _, hrst⟩, rfl⟩ | ⟨-, -, _, -, hexec⟩ | ⟨-, -, -, rfl⟩ := step_cases h
  · rw [hs] at hidle; cases hidle
  · rw [hs] at hbusy; cases hbusy
  · obtain ⟨_, _, hreset, -⟩ := hostCycle_rst hrst
    rw [hreset]
    exact ⟨rfl, .inr rfl⟩
  · exact ⟨exec_legalErr hexec, exec_legal_resReason hexec⟩
  · exact ⟨rfl, .inl rfl⟩

/-- Settles O26: every code that a completion writes is 0, 9, or the code of an ErrKind, and none of these is reserved. -/
theorem reservedCodesNeverProduced : Obligations.ReservedCodesNeverProduced := by
  unfold Obligations.ReservedCodesNeverProduced
  intro s t hs h
  obtain ⟨herr, hreason⟩ := step_due_legal hs h
  obtain ⟨hne, hle⟩ := (legalErr_iff t.err).1 herr
  exact ⟨hne, hle, hreason.imp_right (legalErr_iff t.resReason).1⟩

end Sys2Proof.Machine
end

section
/-! What each command leaves unchanged (spec/30_encoding.md R123, spec/10_state.md R70). -/

namespace Sys2Proof.Machine

/-! ### Commits write the registers and buffers they name -/

/-- The control fields, the word table with its flags, and what is outside the block. -/
def setting (s : State) : (Bool × Bool) × (List (Nat × Bytes) × Bool × Bool × Bool) × (List HostEvent × Option Answer × Nat) :=
  ((s.irqEn, s.irqEnHeld), (s.wt, s.tblOver, s.tblBad, s.tableValid), (s.host, s.resp, s.freeCount))

/-- From `s` to `u` registers of `rs` and bytes of the buffers `bs` are written, and no part of the setting. -/
structure Keeps (rs : List Reg) (bs : List Buf) (s u : State) : Prop where
  regs : ∀ r ∉ rs, readReg u r = readReg s r
  bytes : ∀ a, (∀ b ∈ bs, ¬b.holds a) → readByte u a = readByte s a
  setting : setting u = setting s

section
variable {rs rs' : List Reg} {bs bs' : List Buf} {s u w : State}

/-- Two commits in sequence write what either writes. -/
theorem Keeps.trans (h : Keeps rs bs s u) (h' : Keeps rs' bs' u w) : Keeps (rs ++ rs') (bs ++ bs') s w where
  regs r hr := by
    rw [List.mem_append, not_or] at hr
    rw [h'.regs r hr.2, h.regs r hr.1]
  bytes a ha := by
    have hright := h'.bytes a fun b hb => ha b (List.mem_append_right _ hb)
    rw [hright, h.bytes a fun b hb => ha b (List.mem_append_left _ hb)]
  setting := h'.setting.trans h.setting

theorem keeps_refl (s : State) : Keeps [] [] s s := ⟨fun _ _ => rfl, fun _ _ => rfl, rfl⟩

/-- A state that differs in one register alone. -/
theorem keeps_of_reg {r : Reg} (hmem : u.mem = s.mem) (hsetting : setting u = setting s)
    (hregs : ∀ r' ≠ r, readReg u r' = readReg s r') : Keeps [r] [] s u :=
  ⟨fun r' hr => hregs r' (List.ne_of_not_mem_cons hr), fun a _ => readByte_congr hmem a, hsetting⟩

end

theorem keeps_commitBuf (s : State) (b : Buf) (vs : Bytes) : Keeps [] [b] s (commitBuf s b vs) where
  regs r _ := by cases r <;> rfl
  bytes a ha := by rw [readByte_commitBuf, if_neg (ha b List.mem_cons_self)]
  setting := rfl

theorem keeps_entLen (s : State) (n : Byte) : Keeps [.entLen] [] s { s with entLen := n } :=
  keeps_of_reg rfl rfl fun r hr => by
    cases r
    case entLen => exact absurd rfl hr
    all_goals rfl

theorem keeps_wordCount (s : State) (n : Half) : Keeps [.wordCount] [] s { s with wordCount := n } :=
  keeps_of_reg rfl rfl fun r hr => by
    cases r
    case wordCount => exact absurd rfl hr
    all_goals rfl

theorem keeps_textLen (s : State) (n : Half) : Keeps [.textLen] [] s { s with textLen := n } :=
  keeps_of_reg rfl rfl fun r hr => by
    cases r
    case textLen => exact absurd rfl hr
    all_goals rfl

theorem keeps_passLen (s : State) (n : Half) : Keeps [.passLen] [] s { s with passLen := n } :=
  keeps_of_reg rfl rfl fun r hr => by
    cases r
    case passLen => exact absurd rfl hr
    all_goals rfl

theorem keeps_normLen (s : State) (n : Half) : Keeps [.normLen] [] s { s with normLen := n } :=
  keeps_of_reg rfl rfl fun r hr => by
    cases r
    case normLen => exact absurd rfl hr
    all_goals rfl

theorem keeps_outLen (s : State) (n : Half) : Keeps [.outLen] [] s { s with outLen := n } :=
  keeps_of_reg rfl rfl fun r hr => by
    cases r
    case outLen => exact absurd rfl hr
    all_goals rfl

theorem keeps_saltLen (s : State) (n : Half) : Keeps [.saltLen] [] s { s with saltLen := n } :=
  keeps_of_reg rfl rfl fun r hr => by
    cases r
    case saltLen => exact absurd rfl hr
    all_goals rfl

theorem keeps_stageLen (s : State) (n : Byte) : Keeps [.stageLen] [] s { s with stageLen := n } :=
  keeps_of_reg rfl rfl fun r hr => by
    cases r
    case stageLen => exact absurd rfl hr
    all_goals rfl

theorem keeps_lookupIdx (s : State) (n : Half) : Keeps [.lookupIdx] [] s { s with lookupIdx := n } :=
  keeps_of_reg rfl rfl fun r hr => by
    cases r
    case lookupIdx => exact absurd rfl hr
    all_goals rfl

theorem keeps_commitCksum (s : State) (e : Bytes) : Keeps [.cksum] [] s (commitCksum s e) :=
  keeps_of_reg rfl rfl fun r hr => by
    cases r
    case cksum => exact absurd rfl hr
    all_goals rfl

theorem keeps_result (s : State) (valid : Bool) (reason : BitVec 4) :
    Keeps [.result] [] s { s with resValid := valid, resReason := reason } :=
  keeps_of_reg rfl rfl fun r hr => by
    cases r
    case result => exact absurd rfl hr
    all_goals rfl

theorem keeps_commitIdx (s : State) (v : List Nat) : Keeps [] [.idxBuf] s (commitIdx s v) := keeps_commitBuf s .idxBuf _

theorem keeps_commitPack (s : State) (e : Bytes) : Keeps [.cksum, .wordCount] [.idxBuf] s (commitPack s e) :=
  ((keeps_commitCksum s e).trans (keeps_commitIdx _ _)).trans (keeps_wordCount _ _)

theorem keeps_commitEntropy (s : State) (e : Bytes) : Keeps [.cksum, .entLen] [.entBuf] s (commitEntropy s e) :=
  ((keeps_commitBuf s .entBuf e).trans (keeps_commitCksum _ e)).trans (keeps_entLen _ _)

theorem keeps_commitPhrase (s : State) (t : Bytes) : Keeps [.outLen] [.textOut] s (commitPhrase s t) :=
  (keeps_commitBuf s .textOut t).trans (keeps_outLen _ _)

theorem keeps_commitNorm (s : State) (m : NormText) :
    Keeps [.normLen, .wordCount] [.normBuf, .tokTable] s (commitNorm s m) :=
  let u := commitTok (commitBuf s .normBuf m.text) (descriptors 0 m.toks)
  let len := BitVec.ofNat 16 m.text.length
  (((keeps_commitBuf s .normBuf m.text).trans (keeps_commitBuf _ .tokTable _)).trans (keeps_normLen u len)).trans
    (keeps_wordCount { u with normLen := len } _)

theorem keeps_commitSalt (s : State) (v : Bytes) : Keeps [.saltLen] [.saltBuf] s (commitSalt s v) :=
  (keeps_commitBuf s .saltBuf v).trans (keeps_saltLen _ _)

theorem zeroized_mem (s : State) : (zeroized s).mem = (clearBufs s Buf.all).mem := by rw [zeroized]

/-- R151: the buffers it clears are all nine. -/
theorem readByte_zeroized (s : State) (a : Nat) :
    readByte (zeroized s) a = if Buf.all.any (fun b => decide (b.holds a)) then 0 else readByte s a := by
  rw [← readByte_clearBufs]
  exact readByte_congr (zeroized_mem s) a

theorem keeps_zeroized (s : State) :
    Keeps (Instr.regsWritten .zeroize) (Instr.bufsWritten .zeroize) s (zeroized s) where
  regs r hr := by
    obtain ⟨m, hm⟩ := clearBufs_eq s Buf.all
    rw [zeroized, hm]
    cases r
    case id | ctrl | cmd | status | errflags | irqStatus | tblCount | errIndex => rfl
    all_goals exact absurd (by decide) hr
  bytes a ha := by
    have hout : ¬Buf.all.any (fun b => decide (b.holds a)) = true := by
      rw [List.any_eq_true]
      exact fun ⟨b, hb, hin⟩ => ha b hb (of_decide_eq_true hin)
    rw [readByte_zeroized, if_neg hout]
  setting := by
    obtain ⟨m, hm⟩ := clearBufs_eq s Buf.all
    rw [zeroized, hm]
    rfl

/-- R123: a commit set that leaves the table is its column "writes on success". -/
theorem Commits.keeps {i : Instr} {s u : State} (h : Commits i s u) (hreset : i ≠ .tblReset) (hpush : i ≠ .tblPush)
    (hseal : i ≠ .tblSeal) : ∃ rs bs, Keeps rs bs s u ∧ rs ⊆ Instr.regsWritten i ∧ bs ⊆ Instr.bufsWritten i := by
  cases h
  case tblReset => exact absurd rfl hreset
  case tblPush => exact absurd rfl hpush
  case tblSeal => exact absurd rfl hseal
  case nop => exact ⟨_, _, keeps_refl s, by decide, by decide⟩
  case zeroize => exact ⟨_, _, keeps_zeroized s, by decide, by decide⟩
  case tblRead hrun =>
    obtain ⟨-, -, rfl⟩ := runTblRead_ok.1 hrun
    exact ⟨_, _, (keeps_commitBuf s .stageBuf _).trans (keeps_stageLen _ _), by decide, by decide⟩
  case tblFind hrun =>
    obtain ⟨-, -, _, -, rfl⟩ := runTblFind_ok.1 hrun
    exact ⟨_, _, keeps_lookupIdx s _, by decide, by decide⟩
  case cksum hrun =>
    obtain ⟨_, -, rfl⟩ := runCksum_ok.1 hrun
    exact ⟨_, _, keeps_commitCksum s _, by decide, by decide⟩
  case pack hrun =>
    obtain ⟨_, -, rfl⟩ := runPack_ok.1 hrun
    exact ⟨_, _, keeps_commitPack s _, by decide, by decide⟩
  case unpack hrun =>
    obtain ⟨_, -, _, -, rfl⟩ := runUnpack_ok.1 hrun
    exact ⟨_, _, keeps_commitEntropy s _, by decide, by decide⟩
  case normalize hrun =>
    obtain ⟨_, -, rfl⟩ := runNormalize_ok.1 hrun
    exact ⟨_, _, keeps_commitNorm s _, by decide, by decide⟩
  case salt hrun =>
    obtain ⟨_, -, rfl⟩ := runSalt_ok.1 hrun
    exact ⟨_, _, keeps_commitSalt s _, by decide, by decide⟩
  case w2i hrun =>
    obtain ⟨-, -, _, -, rfl⟩ := runW2i_ok.1 hrun
    exact ⟨_, _, keeps_commitIdx s _, by decide, by decide⟩
  case i2w hrun =>
    obtain ⟨-, _, -, rfl⟩ := runI2w_ok.1 hrun
    exact ⟨_, _, keeps_commitPhrase s _, by decide, by decide⟩
  case e2m hrun =>
    obtain ⟨-, _, -, rfl⟩ := runE2m_ok.1 hrun
    exact ⟨_, _, (keeps_commitPack s _).trans (keeps_commitPhrase _ _), by decide, by decide⟩
  case m2eTxt hrun =>
    obtain ⟨_, -, rfl⟩ := runM2eTxt_ok.1 hrun
    exact ⟨_, _, ((keeps_commitNorm s _).trans (keeps_commitIdx _ _)).trans (keeps_commitEntropy _ _), by decide, by decide⟩
  case m2eBin hrun =>
    obtain ⟨_, -, rfl⟩ := runM2eBin_ok.1 hrun
    exact ⟨_, _, keeps_commitEntropy s _, by decide, by decide⟩
  case seedprepTxt hrun =>
    obtain ⟨_, -, _, -, rfl⟩ := runSeedprepTxt_ok.1 hrun
    exact ⟨_, _, (keeps_commitNorm s _).trans (keeps_commitSalt _ _), by decide, by decide⟩
  case seedprepBin hrun =>
    obtain ⟨-, _, -, _, -, rfl⟩ := runSeedprepBin_ok.1 hrun
    exact ⟨_, _, (keeps_commitPhrase s _).trans (keeps_commitSalt _ _), by decide, by decide⟩

/-! ### The frame of every command -/

section Frame
variable {i : Instr} {s u : State}

theorem Keeps.frame {rs : List Reg} {bs : List Buf} (h : Keeps rs bs s u) (hrs : rs ⊆ Instr.regsWritten i)
    (hbs : bs ⊆ Instr.bufsWritten i) : Frame i s u := by
  obtain ⟨hregs, hbytes, hsetting⟩ := h
  simp only [Sys2Proof.Machine.setting, Prod.mk.injEq] at hsetting
  obtain ⟨hcontrol, ⟨hwt, hover, hbad, hvalid⟩, houtside⟩ := hsetting
  exact {
    regs := fun r hr _ _ _ _ => hregs r fun hmem => hr (hrs hmem)
    control := hcontrol
    bytes := fun a ha => hbytes a fun b hb => ha b (hbs hb)
    entries := fun _ => hwt
    flags := fun _ => ⟨hover, hbad⟩
    valid := fun _ => hvalid
    outside := houtside }

/-- A completion writes fields of STATUS, IRQ_STATUS and ERR_INDEX only, and CTRL shows another one of its fields (R70, R91). -/
theorem Frame.finish (h : Frame i s u) (err : BitVec 4) (info : Half) : Frame i s (finish u err info) where
  regs r hr hstatus hirq hidx hctrl := by
    rw [← h.regs r hr hstatus hirq hidx hctrl]
    cases r
    case status => exact absurd rfl hstatus
    case irqStatus => exact absurd rfl hirq
    case errIndex => exact absurd rfl hidx
    case ctrl => exact absurd rfl hctrl
    all_goals rfl
  control := h.control
  bytes a ha := (readByte_congr rfl a).trans (h.bytes a ha)
  entries := h.entries
  flags := h.flags
  valid := h.valid
  outside := h.outside

theorem frame_refl (i : Instr) (s : State) : Frame i s s := (keeps_refl s).frame (List.nil_subset _) (List.nil_subset _)

theorem frame_tblReset (s : State) :
    Frame .tblReset s { s with wt := [], tblCount := 0, tblOver := false, tblBad := false, tableValid := false } where
  regs r hr hstatus _ _ _ := by
    cases r
    case tblCount => exact absurd (by decide) hr
    case status => exact absurd rfl hstatus
    all_goals rfl
  control := ⟨rfl, rfl⟩
  bytes _ _ := rfl
  entries h := by cases h
  flags h := by cases h
  valid h := by cases h
  outside := ⟨rfl, rfl, rfl⟩

theorem frame_tblSeal (s : State) (valid : Bool) : Frame .tblSeal s { s with tableValid := valid } where
  regs r _ hstatus _ _ _ := by
    cases r
    case status => exact absurd rfl hstatus
    all_goals rfl
  control := ⟨rfl, rfl⟩
  bytes _ _ := rfl
  entries _ := rfl
  flags _ := ⟨rfl, rfl⟩
  valid h := by cases h
  outside := ⟨rfl, rfl, rfl⟩

theorem frame_tblPush (s : State) (wt : List (Nat × Bytes)) (surplus bad : Bool) (n : Half) :
    Frame .tblPush s { s with wt := wt, tblOver := surplus, tblBad := bad, tblCount := n } where
  regs r hr hstatus _ _ _ := by
    cases r
    case tblCount => exact absurd (by decide) hr
    case status => exact absurd rfl hstatus
    all_goals rfl
  control := ⟨rfl, rfl⟩
  bytes _ _ := rfl
  entries h := by cases h
  flags h := by cases h
  valid _ := rfl
  outside := ⟨rfl, rfl, rfl⟩

theorem Commits.frame (h : Commits i s u) : Frame i s u := by
  by_cases hreset : i = .tblReset
  · subst hreset
    cases h
    exact frame_tblReset s
  by_cases hpush : i = .tblPush
  · subst hpush
    cases h with
    | tblPush hrun =>
      obtain ⟨-, rfl⟩ := runTblPush_ok.1 hrun
      obtain ⟨wt, surplus, bad, hentry⟩ := pushEntry_eq s s.tblCount.toNat s.stageLen.toNat (stagedWord s)
      rw [hentry]
      exact frame_tblPush s wt surplus bad _
  by_cases hseal : i = .tblSeal
  · subst hseal
    cases h with
    | tblSeal hrun =>
      obtain ⟨-, rfl⟩ | ⟨-, -, -, -, rfl⟩ := runTblSeal_ok.1 hrun
      · exact frame_refl _ _
      · exact frame_tblSeal s true
  obtain ⟨rs, bs, hkeeps, hrs, hbs⟩ := h.keeps hreset hpush hseal
  exact hkeeps.frame hrs hbs

/-- R243, R244. -/
theorem frame_result (hi : i = .valTxt ∨ i = .valBin) (s : State) (valid : Bool) (reason : BitVec 4) :
    Frame i s { s with resValid := valid, resReason := reason } := by
  refine (keeps_result s valid reason).frame ?_ (List.nil_subset _)
  obtain rfl | rfl := hi
  · exact List.Subset.refl _
  · exact List.Subset.refl _

theorem exec_frame {t : State} (h : exec i s = .next t) : Frame i s t := by
  obtain ⟨u, hu, rfl⟩ | ⟨r, rfl, -, -⟩ | ⟨hval, rfl | ⟨r, rfl⟩⟩ := exec_cases h
  · exact hu.frame.finish 0 noIndex
  · exact (frame_refl i s).finish _ _
  · exact (frame_result hval s _ _).finish 0 noIndex
  · exact (frame_result hval s _ _).finish 0 _

end Frame

/-- Settles O25: every commit set is made of writes to registers and buffers of the column, and a completion adds none. -/
theorem commandsWriteOnlyTheirCommitSet : Obligations.CommandsWriteOnlyTheirCommitSet := by
  unfold Obligations.CommandsWriteOnlyTheirCommitSet
  exact fun _ _ _ h => exec_frame h

/-! ### Completion, with success or with an error -/

theorem exec_completes {i : Instr} {s t : State} (h : exec i s = .next t) :
    t.seq = .idle ∧ t.done = true ∧ t.doneIrq = true := by
  obtain ⟨u, -, rfl⟩ | ⟨r, rfl, -, -⟩ | ⟨-, rfl | ⟨r, rfl⟩⟩ := exec_cases h
  all_goals exact ⟨rfl, rfl, rfl⟩

/-- Settles O23: `exec` answers for every command, and each of its ends is a completion. -/
theorem everyCommandCompletes : Obligations.EveryCommandCompletes := by
  unfold Obligations.EveryCommandCompletes
  intro i s
  obtain ⟨t, ht⟩ := exec_next i s
  exact ⟨t, ht, exec_completes ht⟩

/-- Settles O24: a commit set and a VAL command end with ERR 0, so a command that ends with an error has raised. -/
theorem failureChangesNothingElse : Obligations.FailureChangesNothingElse := by
  unfold Obligations.FailureChangesNothingElse
  intro i s t h herr
  obtain ⟨u, -, rfl⟩ | ⟨r, rfl, -, -⟩ | ⟨-, rfl | ⟨r, rfl⟩⟩ := exec_cases h
  case inr.inl => rfl
  all_goals exact absurd rfl herr

end Sys2Proof.Machine
end

section
/-! Command words (spec/30_encoding.md R120-R125). -/

namespace Sys2Proof.Machine

/-- Settles O1: the rows of the opcode map, and one word with a bit of MBZ set per byte that holds it. -/
theorem decodeSpecWords : Obligations.DecodeSpecWords := by
  unfold Obligations.DecodeSpecWords
  decide

/-- R120: a word is its field MBZ above its field OPC. -/
theorem mbzOf_append_opcOf (w : Word) : mbzOf w ++ opcOf w = w := by
  have happend : w.extractLsb' 8 24 ++ w.extractLsb' 0 8 = w.extractLsb' 0 32 :=
    BitVec.extractLsb'_append_extractLsb'_eq_extractLsb' (show 8 = 0 + 8 from rfl)
  exact happend.trans BitVec.extractLsb'_eq_self

/-- R123: OPC of a row of the map is that of its command's word. -/
theorem opcodeMap_row : ∀ row ∈ opcodeMap, (0 : BitVec 24) ++ row.1 = encode row.2 := by decide

/-- Settles O2: a row of the map is found by OPC alone, and MBZ is 0 in every command's word. -/
theorem decodeExactlyTheCommandWords : Obligations.DecodeExactlyTheCommandWords := by
  unfold Obligations.DecodeExactlyTheCommandWords
  intro w i
  constructor
  · intro h
    unfold decode at h
    split at h
    case isFalse => cases h
    case isTrue hmbz =>
      split at h
      case h_2 => cases h
      case h_1 row hrow =>
        cases h
        have hopc : row.1 = opcOf w := by simpa using List.find?_some hrow
        calc w = mbzOf w ++ opcOf w := (mbzOf_append_opcOf w).symm
          _ = (0 : BitVec 24) ++ row.1 := by rw [hmbz, hopc]
          _ = encode row.2 := opcodeMap_row row (List.mem_of_find?_eq_some hrow)
  · rintro rfl
    cases i <;> decide

/-- R124: the ranges of OPC that no row of the map takes. -/
theorem opcodeMap_find?_eq_none_iff : ∀ opc : Byte, opcodeMap.find? (fun row => row.1 == opc) = none ↔
    ((0x07 ≤ opc.toNat ∧ opc.toNat ≤ 0x0F) ∨ (0x13 ≤ opc.toNat ∧ opc.toNat ≤ 0x1F) ∨ (0x22 ≤ opc.toNat ∧ opc.toNat ≤ 0x2F) ∨
      (0x32 ≤ opc.toNat ∧ opc.toNat ≤ 0x3F) ∨ (0x47 ≤ opc.toNat ∧ opc.toNat ≤ 0xFF)) := by decide

theorem decode_eq_error_iff (w : Word) :
    decode w = .error .illegalCommand ↔ mbzOf w ≠ 0 ∨ opcodeMap.find? (fun row => row.1 == opcOf w) = none := by
  unfold decode
  split
  case isFalse hmbz => exact iff_of_true rfl (.inl hmbz)
  case isTrue hmbz =>
    cases opcodeMap.find? (fun row => row.1 == opcOf w) with
    | none => exact iff_of_true rfl (.inr rfl)
    | some row => exact iff_of_false (fun h => by cases h) (by simp [hmbz])

end Sys2Proof.Machine
end

section
/-! What a write, a cycle of the outside world and a step do to the block (spec/20_memory.md R80-R92,
spec/70_reset_and_hazards.md R300-R306). -/

namespace Sys2Proof.Machine

/-! ### Register accesses -/

theorem memRead_reg (s : State) (r : Reg) : memRead s r.offset 4 = (readReg s r, .okay) := by
  rw [memRead, target_reg]

theorem memWrite_reg (s : State) (r : Reg) (v : Word) : memWrite s r.offset 4 v = (writeReg s r v, .okay) := by
  rw [memWrite, target_reg]

theorem memWrite_buf (s : State) {off n : Nat} {b : Buf} (h : target off n = some (.inr b)) (v : Word) :
    memWrite s off n v = (writeBuf s b off n v, .okay) := by
  rw [memWrite, h]

/-- What a read returns depends on the memory and the registers alone. -/
theorem memRead_congr {s t : State} (hmem : t.mem = s.mem) (hregs : ∀ r, readReg t r = readReg s r) (off n : Nat) :
    memRead t off n = memRead s off n := by
  simp only [memRead, hregs, bytesAt_congr hmem]

/-! ### What a write can do -/

/-- What the host can do to the block without resetting it. While BUSY only the first is left (R306). -/
inductive HostEffect (s : State) : State → Prop where
  | control (irqEn overrun busyWr doneIrq : Bool) :
      HostEffect s { s with irqEn := irqEn, overrun := overrun, busyWr := busyWr, doneIrq := doneIrq }
  | issued (hidle : isBusy s = false) (w : Word) (left : Nat) : HostEffect s (issue s w left)
  | operand (hidle : isBusy s = false) (entLen stageLen : Byte) (wordCount textLen passLen lookupIdx : Half) :
      HostEffect s { s with entLen := entLen, stageLen := stageLen, wordCount := wordCount, textLen := textLen,
                            passLen := passLen, lookupIdx := lookupIdx }
  | bytes (hidle : isBusy s = false) {b : Buf} (hrw : b.isRw = true) {off n : Nat} (hlo : b.base ≤ off)
      (hhi : off + n ≤ b.base + b.size) (vs : Bytes) : HostEffect s (storeBytes s off n vs)

section Effect
variable {s u : State}

theorem hostEffect_refl (s : State) : HostEffect s s := .control s.irqEn s.overrun s.busyWr s.doneIrq

/-- R306: an operand write is the write while IDLE, and BUSY_WR while BUSY. -/
theorem hostEffect_whenIdle (h : isBusy s = false → HostEffect s u) : HostEffect s (whenIdle s u) := by
  cases hbusy : isBusy s with
  | false => rw [whenIdle_idle hbusy]; exact h hbusy
  | true => rw [whenIdle_busy hbusy]; exact .control s.irqEn s.overrun true s.doneIrq

/-- A register write that does not reset the block. -/
theorem writeReg_effect (s : State) (r : Reg) (v : Word) (h : r = .ctrl → v.getLsbD 1 = false) :
    HostEffect s (writeReg s r v) := by
  cases r
  case ctrl =>
    rw [writeReg, if_neg (Bool.eq_false_iff.1 (h rfl))]
    exact .control _ s.overrun s.busyWr s.doneIrq
  case cmd =>
    cases hbusy : isBusy s with
    | false => rw [writeReg, if_neg (Bool.eq_false_iff.1 hbusy)]; exact .issued hbusy v _
    | true => rw [writeReg, if_pos hbusy]; exact .control s.irqEn true s.busyWr s.doneIrq
  case errflags => exact .control s.irqEn _ _ s.doneIrq
  case irqStatus => exact .control s.irqEn s.overrun s.busyWr _
  case entLen => exact hostEffect_whenIdle fun hidle => .operand hidle _ s.stageLen s.wordCount s.textLen s.passLen s.lookupIdx
  case stageLen => exact hostEffect_whenIdle fun hidle => .operand hidle s.entLen _ s.wordCount s.textLen s.passLen s.lookupIdx
  case wordCount => exact hostEffect_whenIdle fun hidle => .operand hidle s.entLen s.stageLen _ s.textLen s.passLen s.lookupIdx
  case textLen => exact hostEffect_whenIdle fun hidle => .operand hidle s.entLen s.stageLen s.wordCount _ s.passLen s.lookupIdx
  case passLen => exact hostEffect_whenIdle fun hidle => .operand hidle s.entLen s.stageLen s.wordCount s.textLen _ s.lookupIdx
  case lookupIdx => exact hostEffect_whenIdle fun hidle => .operand hidle s.entLen s.stageLen s.wordCount s.textLen s.passLen _
  all_goals exact hostEffect_refl s

/-- A write resets the block, where it is the soft reset of R34, or has one of the four effects. -/
theorem memWrite_effect (s : State) (off : Half) (n : Width) (v : Word) :
    (HostEvent.resets (.access (.write off n v)) = true ∧ (memWrite s off.toNat n.bytes v).1 = resetBlock s) ∨
      HostEffect s (memWrite s off.toNat n.bytes v).1 := by
  obtain h | ⟨r, hoff, hn, h⟩ | ⟨b, hrw, hlo, hhi, h⟩ := memWrite_cases s off.toNat n.bytes n.bytes_pos v
  · rw [h]
    exact .inr (hostEffect_refl s)
  · rw [h]
    by_cases hreset : r = .ctrl ∧ v.getLsbD 1 = true
    · obtain ⟨rfl, hv⟩ := hreset
      obtain rfl : off = 0x004 := BitVec.eq_of_toNat_eq hoff
      obtain rfl := n.bytes_eq_four_iff.1 hn
      exact .inl ⟨by rw [HostEvent.resets, hv]; rfl, if_pos hv⟩
    · exact .inr (writeReg_effect s r v fun hr => Bool.eq_false_iff.2 fun hv => hreset ⟨hr, hv⟩)
  · rw [h]
    exact .inr (hostEffect_whenIdle fun hidle => .bytes hidle hrw hlo hhi _)

/-- While BUSY the host reaches the control bits alone (R306). -/
theorem HostEffect.of_busy (h : HostEffect s u) (hbusy : isBusy s = true) :
    ∃ irqEn overrun busyWr doneIrq,
      u = { s with irqEn := irqEn, overrun := overrun, busyWr := busyWr, doneIrq := doneIrq } := by
  cases h with
  | control irqEn overrun busyWr doneIrq => exact ⟨irqEn, overrun, busyWr, doneIrq, rfl⟩
  | issued hidle => rw [hbusy] at hidle; cases hidle
  | operand hidle => rw [hbusy] at hidle; cases hidle
  | bytes hidle => rw [hbusy] at hidle; cases hidle

end Effect

/-! ### One cycle of the outside world -/

section Cycle
variable {s : State} {es : List HostEvent}

theorem hostCycle_nil (h : s.host = []) : hostCycle s = s := by rw [hostCycle, h]

theorem hostCycle_quiet (h : s.host = .quiet :: es) : hostCycle s = { s with host := es } := by rw [hostCycle, h]

theorem hostCycle_access {a : Access} (h : s.host = .access a :: es) : hostCycle s = access { s with host := es } a := by
  rw [hostCycle, h]

theorem hostCycle_wait (h : s.host = .wait :: es) : hostCycle s = pollStatus s es := by rw [hostCycle, h]

theorem hostCycle_waitIrq (h : s.host = .waitIrq :: es) :
    hostCycle s = if irq s then { s with host := es } else s := by rw [hostCycle, h]

/-- A cycle resets the block, where the event does, or has one of the four effects; what is still to arrive is a later part of the
queue. -/
theorem hostCycle_effect (s : State) :
    (∃ e es r k, s.host = e :: es ∧ e.resets = true ∧
      hostCycle s = { State.reset with host := es, resp := r, freeCount := k }) ∨
    (∃ es r u, es <:+ s.host ∧ HostEffect { s with host := es } u ∧ hostCycle s = { u with resp := r }) := by
  have hstay (r : Option Answer) (h : hostCycle s = { s with resp := r }) :
      ∃ es r u, es <:+ s.host ∧ HostEffect { s with host := es } u ∧ hostCycle s = { u with resp := r } :=
    ⟨s.host, r, _, List.suffix_refl _, hostEffect_refl _, h⟩
  have hserve {e : HostEvent} {es : List HostEvent} (hhost : s.host = e :: es) (r : Option Answer)
      (h : hostCycle s = { s with host := es, resp := r }) :
      ∃ es r u, es <:+ s.host ∧ HostEffect { s with host := es } u ∧ hostCycle s = { u with resp := r } :=
    ⟨es, r, _, hhost ▸ List.suffix_cons e es, hostEffect_refl _, h⟩
  match hhost : s.host with
  | [] => exact hhost ▸ .inr (hstay s.resp (hostCycle_nil hhost))
  | .quiet :: es => exact hhost ▸ .inr (hserve hhost s.resp (hostCycle_quiet hhost))
  | .access (.read off n) :: es => exact hhost ▸ .inr (hserve hhost _ (hostCycle_access hhost))
  | .access (.write off n v) :: es =>
    obtain ⟨hreset, hwrite⟩ | heffect := memWrite_effect { s with host := es } off n v
    · refine .inl ⟨_, es, some (.write (memWrite { s with host := es } off.toNat n.bytes v).2), s.freeCount, rfl, hreset, ?_⟩
      rw [hostCycle_access hhost, access, hwrite]
      rfl
    · exact .inr ⟨es, _, _, List.suffix_cons _ es, heffect, hostCycle_access hhost⟩
  | .wait :: es =>
    refine hhost ▸ .inr ?_
    cases hbusy : (statusWord s).getLsbD 0 with
    | true => exact hstay _ (by rw [hostCycle_wait hhost, pollStatus, hbusy]; rfl)
    | false => exact hserve hhost _ (by rw [hostCycle_wait hhost, pollStatus, hbusy]; rfl)
  | .waitIrq :: es =>
    refine hhost ▸ .inr ?_
    cases hirq : irq s with
    | true => exact hserve hhost s.resp (by rw [hostCycle_waitIrq hhost, hirq]; rfl)
    | false => exact hstay s.resp (by rw [hostCycle_waitIrq hhost, hirq]; rfl)
  | .rst a :: es =>
    obtain ⟨r, k, hreset, -⟩ := hostCycle_rst hhost
    exact .inl ⟨.rst a, es, r, k, rfl, rfl, hreset⟩

end Cycle
end Sys2Proof.Machine
end

section
/-! The port's obligations: what reads and writes do and answer (spec/10_state.md R32-R55, spec/20_memory.md R82-R91,
spec/70_reset_and_hazards.md R300-R306). -/

namespace Sys2Proof.Machine

/-! ### Registers as read (R32-R51) -/

section Fields
variable (s : State)

/-- R36. -/
theorem statusWord_fields :
    (statusWord s).getLsbD 0 = isBusy s ∧ (statusWord s).getLsbD 1 = s.done ∧ (statusWord s).extractLsb' 2 2 = 0 ∧
      (statusWord s).extractLsb' 4 4 = s.err ∧ (statusWord s).getLsbD 8 = s.tableValid ∧
      (statusWord s).getLsbD 9 = s.tblOver ∧ (statusWord s).getLsbD 10 = s.tblBad ∧
      (statusWord s).extractLsb' 11 21 = 0 := by
  have key : ∀ (bad surplus valid done busy : Bool) (e : BitVec 4),
      let w := 0#21 ++ BitVec.ofBool bad ++ BitVec.ofBool surplus ++ BitVec.ofBool valid ++ e ++ 0#2 ++ BitVec.ofBool done ++
        BitVec.ofBool busy
      w.getLsbD 0 = busy ∧ w.getLsbD 1 = done ∧ w.extractLsb' 2 2 = 0 ∧ w.extractLsb' 4 4 = e ∧ w.getLsbD 8 = valid ∧
        w.getLsbD 9 = surplus ∧ w.getLsbD 10 = bad ∧ w.extractLsb' 11 21 = 0 := by decide
  exact key s.tblBad s.tblOver s.tableValid s.done (isBusy s) s.err

/-- R37. -/
theorem errflagsWord_fields :
    (errflagsWord s).getLsbD 0 = s.overrun ∧ (errflagsWord s).getLsbD 1 = s.busyWr ∧
      (errflagsWord s).extractLsb' 2 30 = 0 := by
  have key : ∀ b o : Bool, (0#30 ++ BitVec.ofBool b ++ BitVec.ofBool o).getLsbD 0 = o ∧
      (0#30 ++ BitVec.ofBool b ++ BitVec.ofBool o).getLsbD 1 = b ∧
      (0#30 ++ BitVec.ofBool b ++ BitVec.ofBool o).extractLsb' 2 30 = 0 := by decide
  exact key s.busyWr s.overrun

/-- R38. -/
theorem irqStatusWord_fields :
    (irqStatusWord s).getLsbD 0 = s.doneIrq ∧ (irqStatusWord s).extractLsb' 1 31 = 0 := by
  have key : ∀ d : Bool, (0#31 ++ BitVec.ofBool d).getLsbD 0 = d ∧ (0#31 ++ BitVec.ofBool d).extractLsb' 1 31 = 0 := by
    decide
  exact key s.doneIrq

/-- R34. -/
theorem ctrlWord_eq : ctrlWord s = if irqEnShown s then 1 else 0 := by
  rw [ctrlWord]
  cases irqEnShown s <;> rfl

/-- R46. -/
theorem cksumWord_fields :
    (cksumWord s).extractLsb' 0 8 = s.ck ∧ (cksumWord s).extractLsb' 8 4 = s.csn ∧
      (cksumWord s).extractLsb' 12 20 = 0 := by
  have hword : (cksumWord s).toNat = s.csn.toNat * 2 ^ 8 + s.ck.toNat := by
    rw [← Nat.shiftLeft_eq, Nat.shiftLeft_add_eq_or_of_lt s.ck.isLt]
    exact toNat_readReg_cksum s
  refine ⟨BitVec.eq_of_toNat_eq ?_, BitVec.eq_of_toNat_eq ?_, BitVec.eq_of_toNat_eq ?_⟩
  all_goals
    rw [BitVec.extractLsb'_toNat, hword, Nat.shiftRight_eq_div_pow]
    bv_omega

theorem isBusy_iff : isBusy s = true ↔ ∃ left, s.seq = .busy left := by
  rw [isBusy]
  cases s.seq <;> simp

end Fields

theorem specRegisterMap_row : ∀ row ∈ specRegisterMap, row.1 = row.2.offset := by decide

/-- Settles O15: each row of the map lands on its register, and the words are made of their fields. -/
theorem statusFields : Obligations.StatusFields := by
  unfold Obligations.StatusFields
  intro s
  obtain ⟨hck, hcsn, hckHigh⟩ := cksumWord_fields s
  obtain ⟨hvalid, hlow, hreason, hhigh⟩ := resultWord_fields s
  obtain ⟨hbusy, hdone, hgap, herr, htable, hover, hbad, hrest⟩ := statusWord_fields s
  refine ⟨fun row hrow => ?_, rfl, rfl, rfl, rfl, rfl, rfl, rfl, rfl, rfl, rfl, rfl, hck, hcsn, hckHigh, hvalid, hlow, hreason,
    hhigh, hbusy, hdone, hgap, herr, htable, hover, hbad, hrest, isBusy_iff s⟩
  rw [specRegisterMap_row row hrow]
  exact memRead_reg s row.2

/-- Settles O22: a write to each of the three registers updates its bits, and CTRL shows one of two fields. -/
theorem controlRegisterWrites : Obligations.ControlRegisterWrites := by
  unfold Obligations.ControlRegisterWrites
  refine fun s v => ⟨fun hv => ?_, fun hidle => ?_, fun hbusy => ?_, memWrite_reg s .errflags v, memWrite_reg s .irqStatus v,
    errflagsWord_fields s, irqStatusWord_fields s⟩
  · refine (memWrite_reg s .ctrl v).trans ?_
    rw [writeReg, if_neg (Bool.eq_false_iff.1 hv)]
  · refine (memRead_reg s .ctrl).trans ?_
    rw [readReg, ctrlWord_eq, irqEnShown_idle s (by rw [isBusy, hidle])]
  · refine (memRead_reg s .ctrl).trans ?_
    rw [readReg, ctrlWord_eq, irqEnShown_busy s hbusy]

/-! ### Writes while BUSY and to read-only targets (R88, R306) -/

section Writes
variable {s : State}

/-- A write to the offset of a register of class RO. -/
theorem memWrite_readOnly (s : State) (v : Word) {off : Nat} (hoff : off ∈ specReadOnlyOffsets) :
    memWrite s off 4 v = (s, .okay) := by
  simp only [specReadOnlyOffsets, List.mem_cons, List.not_mem_nil, or_false] at hoff
  obtain rfl | rfl | rfl | rfl | rfl | rfl | rfl | rfl | rfl := hoff
  · exact memWrite_reg s .id v
  · exact memWrite_reg s .status v
  · exact memWrite_reg s .normLen v
  · exact memWrite_reg s .outLen v
  · exact memWrite_reg s .saltLen v
  · exact memWrite_reg s .cksum v
  · exact memWrite_reg s .tblCount v
  · exact memWrite_reg s .errIndex v
  · exact memWrite_reg s .result v

section Rows
variable {row : BufRow} {off : Nat} {n : Width}

theorem memWrite_row (s : State) (v : Word) (hrow : row ∈ specBufferMap) (ha : off % n.bytes = 0) (hc : row.covers off n.bytes) :
    memWrite s off n.bytes v =
      (if row.rw then whenIdle s (storeBytes s off n.bytes (leBytes n.bytes v.toNat)) else s, .okay) := by
  obtain ⟨-, -, hrw⟩ := specBufferMap_row row hrow
  rw [memWrite_buf s (target_row hrow n.bytes_pos ha hc), writeBuf, hrw]

theorem memWrite_row_readOnly (s : State) (v : Word) (hrow : row ∈ specBufferMap) (hro : row.rw = false)
    (ha : off % n.bytes = 0) (hc : row.covers off n.bytes) : memWrite s off n.bytes v = (s, .okay) := by
  rw [memWrite_row s v hrow ha hc, if_neg (Bool.eq_false_iff.1 hro)]

end Rows

/-- Settles O8: the register or the row that an offset lands on decides what the write does. -/
theorem busyWriteTable : Obligations.BusyWriteTable := by
  unfold Obligations.BusyWriteTable
  intro s v hbusy
  refine ⟨?_, memWrite_reg s .ctrl v, memWrite_reg s .errflags v, memWrite_reg s .irqStatus v, fun row hrow => ?_,
    fun row hrow hrw off n ha hc => ?_, fun off => memWrite_readOnly s v, fun row hrow hro off n => memWrite_row_readOnly s v hrow hro⟩
  · refine (memWrite_reg s .cmd v).trans ?_
    rw [writeReg, if_pos hbusy]
  · have hoperand (t : State) : (whenIdle s t, Resp.okay) = ({ s with busyWr := true }, .okay) := by rw [whenIdle_busy hbusy]
    simp only [specOperandRegisters, List.cons_append, List.nil_append, List.mem_cons, List.not_mem_nil, or_false] at hrow
    obtain rfl | rfl | rfl | rfl | rfl | rfl := hrow
    · exact (memWrite_reg s .entLen v).trans (hoperand _)
    · exact (memWrite_reg s .wordCount v).trans (hoperand _)
    · exact (memWrite_reg s .textLen v).trans (hoperand _)
    · exact (memWrite_reg s .passLen v).trans (hoperand _)
    · exact (memWrite_reg s .stageLen v).trans (hoperand _)
    · exact (memWrite_reg s .lookupIdx v).trans (hoperand _)
  · rw [memWrite_row s v hrow ha hc, if_pos hrw, whenIdle_busy hbusy]

theorem regAt_reserved : ∀ k < 0x40, 0x13 ≤ k → regAt (4 * k) = none := by decide

theorem target_reserved {k : Nat} (hlo : 0x13 ≤ k) (hhi : k ≤ 0x3F) : target (4 * k) 4 = some (.inl none) := by
  have hblock : 4 * k < regBlockEnd := by rw [regBlockEnd]; omega
  rw [target, if_pos hblock, if_pos ⟨rfl, Nat.mul_mod_right 4 k⟩, regAt_reserved k (Nat.lt_succ_of_le hhi) hlo]

/-- Settles O16: a reserved offset is no register, and an RO target takes no write. -/
theorem readOnlyTargetsIgnoreWrites : Obligations.ReadOnlyTargetsIgnoreWrites := by
  unfold Obligations.ReadOnlyTargetsIgnoreWrites
  refine fun s v => ⟨memRead_reg s .id, fun k hlo hhi => ?_, fun off => memWrite_readOnly s v,
    fun row hrow hro off n => memWrite_row_readOnly s v hrow hro⟩
  have htarget := target_reserved hlo hhi
  exact ⟨by rw [memRead, htarget], by rw [memWrite, htarget]⟩

/-! ### Writes while IDLE (R82, R88) -/

theorem isBusy_of_idle (h : s.seq = .idle) : isBusy s = false := by rw [isBusy, h]

/-- R82: byte i of a value is its bits [8i+7:8i]. -/
theorem leBytes_getD (v n : Nat) {i : Nat} (hi : i < n) : (leBytes n v).getD i 0 = BitVec.ofNat 8 (v / 256 ^ i) := by
  induction n generalizing v i with
  | zero => omega
  | succ n ih =>
    cases i with
    | zero => rw [leBytes, List.getD_cons_zero, pow_zero, Nat.div_one]
    | succ i => rw [leBytes, List.getD_cons_succ, ih _ (by omega), Nat.div_div_eq_div_mul, ← Nat.pow_succ']

theorem extractLsb'_byte (v : Word) (i : Nat) : v.extractLsb' (8 * i) 8 = BitVec.ofNat 8 (v.toNat / 256 ^ i) := by
  apply BitVec.eq_of_toNat_eq
  rw [BitVec.extractLsb'_toNat, BitVec.toNat_ofNat, Nat.shiftRight_eq_div_pow, Nat.pow_mul]

/-- Settles O11: the write stores the data's little-endian bytes, and a read of them gives their value back. -/
theorem littleEndianBufferWrite : Obligations.LittleEndianBufferWrite := by
  unfold Obligations.LittleEndianBufferWrite
  intro s row off n v hidle hrow hrw ha hc
  have hwrite := memWrite_row s v hrow ha hc
  rw [if_pos hrw, whenIdle_idle (isBusy_of_idle hidle)] at hwrite
  refine ⟨_, hwrite, rfl, fun i hi => ?_, fun a hout => ?_, ?_⟩
  · rw [readByte_storeBytes, if_pos (by omega), Nat.add_sub_cancel_left, leBytes_getD _ _ hi, extractLsb'_byte]
  · rw [readByte_storeBytes, if_neg hout]
  · have hback := bytesAt_storeBytes s off n.bytes (leBytes n.bytes v.toNat) (by rw [leBytes_length])
    rw [leBytes_length] at hback
    rw [memRead_of_target_buf _ (target_row hrow n.bytes_pos ha hc), hback, leVal_leBytes]

theorem setWidth_setWidth_eq_ofNat (v : Word) (width : Nat) :
    (v.setWidth width).setWidth 32 = BitVec.ofNat 32 (v.toNat % 2 ^ width) := by
  apply BitVec.eq_of_toNat_eq
  rw [BitVec.toNat_setWidth, BitVec.toNat_setWidth, BitVec.toNat_ofNat]

/-- A write to an operand register while IDLE: its field takes the low bits of the data, and no other register changes. -/
theorem writeReg_operand (v : Word) (hidle : s.seq = .idle) {off width : Nat} {r : Reg}
    (hrow : (off, r, width) ∈ specOperandRegisters) :
    off = r.offset ∧ ∃ t, writeReg s r v = t ∧ readReg t r = BitVec.ofNat 32 (v.toNat % 2 ^ width) ∧ Keeps [r] [] s t ∧
      t.mem = s.mem ∧ t.wt = s.wt ∧ t.seq = s.seq := by
  have hidle (t : State) : whenIdle s t = t := whenIdle_idle (isBusy_of_idle hidle)
  have hfield (width : Nat) := setWidth_setWidth_eq_ofNat v width
  simp only [specOperandRegisters, List.cons_append, List.nil_append, List.mem_cons, List.not_mem_nil, or_false,
    Prod.mk.injEq] at hrow
  obtain ⟨rfl, rfl, rfl⟩ | ⟨rfl, rfl, rfl⟩ | ⟨rfl, rfl, rfl⟩ | ⟨rfl, rfl, rfl⟩ | ⟨rfl, rfl, rfl⟩ | ⟨rfl, rfl, rfl⟩ := hrow
  · exact ⟨rfl, _, hidle _, hfield 8, keeps_entLen s _, rfl, rfl, rfl⟩
  · exact ⟨rfl, _, hidle _, hfield 16, keeps_wordCount s _, rfl, rfl, rfl⟩
  · exact ⟨rfl, _, hidle _, hfield 16, keeps_textLen s _, rfl, rfl, rfl⟩
  · exact ⟨rfl, _, hidle _, hfield 16, keeps_passLen s _, rfl, rfl, rfl⟩
  · exact ⟨rfl, _, hidle _, hfield 8, keeps_stageLen s _, rfl, rfl, rfl⟩
  · exact ⟨rfl, _, hidle _, hfield 16, keeps_lookupIdx s _, rfl, rfl, rfl⟩

/-- Settles O13: the field keeps the low bits of the data, and each row writes its own field alone. -/
theorem operandRegisterWriteRead : Obligations.OperandRegisterWriteRead := by
  unfold Obligations.OperandRegisterWriteRead
  intro s v off r width hidle hrow
  obtain ⟨rfl, t, hwrite, hread, hkeeps, hmem, hwt, hseq⟩ := writeReg_operand v hidle hrow
  refine ⟨t, by rw [memWrite_reg, hwrite], by rw [memRead_reg, hread], hread, fun r' hr' => ?_, hmem, hwt, hseq⟩
  exact hkeeps.regs r' (by simpa using hr')

end Writes
end Sys2Proof.Machine
end

section
/-! The obligations about single steps: what is served in one, what it completes, and what it resets (spec/10_state.md R31, R35,
R70, spec/70_reset_and_hazards.md R300-R320). -/

namespace Sys2Proof.Machine

variable {s : State} {es : List HostEvent}

/-! ### Steps by the sequencer's state -/

theorem step_idle (h : s.seq = .idle) : step s = .next (hostCycle s) := by rw [step, clockCycle, h]

theorem step_busy {left : Nat} (h : s.seq = .busy (left + 1)) : step s = .next (hostCycle { s with seq := .busy left }) := by
  rw [step, clockCycle, h]

theorem isBusy_of_busy {left : Nat} (h : s.seq = .busy left) : isBusy s = true := by rw [isBusy, h]

/-- A cycle of the countdown and the head of the queue show in no register. -/
theorem readReg_countdown {left n : Nat} (h : s.seq = .busy left) (es : List HostEvent) (r : Reg) :
    readReg { s with seq := .busy n, host := es } r = readReg s r := by
  have hbusy : isBusy { s with seq := .busy n, host := es } = isBusy s := (isBusy_of_busy h).symm
  cases r
  case ctrl => rw [readReg, ctrlWord, irqEnShown, hbusy]; rfl
  case status => rw [readReg, statusWord, hbusy]; rfl
  all_goals rfl

theorem readReg_queue (s : State) (es : List HostEvent) (r : Reg) : readReg { s with host := es } r = readReg s r := by
  cases r <;> rfl

/-- Settles O4: the due cycle runs what the decoder answers. -/
theorem stepRunsTheDecodedCommand : Obligations.StepRunsTheDecodedCommand := by
  unfold Obligations.StepRunsTheDecodedCommand
  intro s i hseq hrst hdecode
  rw [step_due hseq hrst, runCommand, hdecode]

/-- Settles O3: the decoder rejects a word for MBZ or for an OPC that no row of the map takes, CMD takes any word, and a word that
does not decode completes with code 9. -/
theorem illegalWordsCompleteWithCode9 : Obligations.IllegalWordsCompleteWithCode9 := by
  unfold Obligations.IllegalWordsCompleteWithCode9
  refine ⟨fun w => ?_, fun s w hidle _ => ?_, fun s hseq hrst hdecode => ?_⟩
  · rw [decode_eq_error_iff, opcodeMap_find?_eq_none_iff]
    rfl
  · rw [show 0x008 = Reg.cmd.offset from rfl, memWrite_reg, writeReg, if_neg (by rw [isBusy_of_idle hidle]; decide)]
    exact ⟨rfl, rfl⟩
  · rw [step_due hseq hrst, runCommand, hdecode]
    rfl

/-! ### Steps that serve an access -/

theorem hostCycle_read {off : Half} {n : Width} (h : s.host = .access (.read off n) :: es) :
    hostCycle s = { s with host := es, resp := some (.read (memRead s off.toNat n.bytes).1 (memRead s off.toNat n.bytes).2) } := by
  have hread : memRead { s with host := es } off.toNat n.bytes = memRead s off.toNat n.bytes :=
    memRead_congr rfl (readReg_queue s es) _ _
  rw [hostCycle_access h, access, hread]

theorem hostCycle_writeReg {off : Half} {v : Word} {r : Reg} (h : s.host = .access (.write off .w4 v) :: es)
    (hoff : off.toNat = r.offset) :
    hostCycle s = { writeReg { s with host := es } r v with resp := some (.write .okay) } := by
  rw [hostCycle_access h, access, hoff, show Width.bytes .w4 = 4 from rfl, memWrite_reg]

/-- Settles O14: a read's answer is the only effect of its event, and the countdown shows in no register. -/
theorem readsHaveNoSideEffect : Obligations.ReadsHaveNoSideEffect := by
  unfold Obligations.ReadsHaveNoSideEffect
  refine fun s off n es hhost => ⟨fun hidle => ?_, fun left hbusy => ?_⟩
  · rw [step_idle hidle, hostCycle_read hhost]
  · have hread : memRead { s with seq := .busy left } off.toNat n.bytes = memRead s off.toNat n.bytes :=
      memRead_congr (s := s) (t := { s with seq := .busy left }) rfl (readReg_countdown hbusy s.host) _ _
    rw [step_busy hbusy, hostCycle_read (s := { s with seq := .busy left }) hhost, hread]

theorem pollStatus_eq (s : State) (es : List HostEvent) :
    pollStatus s es =
      { s with host := if isBusy s then s.host else es, resp := some (.read (readReg s .status) .okay) } := by
  obtain ⟨hbusy, -⟩ := statusWord_fields s
  have hread : memRead s (BitVec.ofNat 16 Reg.status.offset).toNat Width.w4.bytes = (readReg s .status, .okay) :=
    memRead_reg s .status
  rw [pollStatus, hbusy, access, hread]
  cases isBusy s <;> rfl

/-- Settles O17: bit 0 of STATUS is BUSY, and the loop leaves the queue where it is 0. -/
theorem waitPollsStatus : Obligations.WaitPollsStatus := by
  unfold Obligations.WaitPollsStatus
  refine fun s es hhost => ⟨fun hidle => ?_, fun left hbusy => ?_⟩
  · rw [step_idle hidle, hostCycle_wait hhost, pollStatus_eq, isBusy_of_idle hidle]
    rfl
  · have hstatus := readReg_countdown (n := left) hbusy s.host .status
    rw [step_busy hbusy, hostCycle_wait (s := { s with seq := .busy left }) hhost, pollStatus_eq, isBusy_of_busy rfl, hstatus]
    rfl

/-- Settles O5: a write to CMD while IDLE is an acceptance, which CTRL does not show; while BUSY it is OVERRUN. -/
theorem cmdWriteAcceptsOrOverruns : Obligations.CmdWriteAcceptsOrOverruns := by
  unfold Obligations.CmdWriteAcceptsOrOverruns
  refine ⟨fun s w es hidle hhost => ?_, fun s w es left hbusy hhost => ?_, fun s => rfl, rfl⟩
  · have hcycle := hostCycle_writeReg (r := .cmd) hhost rfl
    rw [writeReg, if_neg (by rw [isBusy_of_idle (s := { s with host := es }) hidle]; decide)] at hcycle
    refine ⟨_, _, (step_idle hidle).trans (congrArg Host.Outcome.next hcycle), rfl, rfl, ?_, fun r hcmd hstatus => ?_⟩
    · rw [readReg, (statusWord_fields _).1]
      rfl
    · cases r
      case cmd => exact absurd rfl hcmd
      case status => exact absurd rfl hstatus
      case ctrl =>
        rw [readReg, readReg, ctrlWord_eq, ctrlWord_eq, irqEnShown_idle s (isBusy_of_idle hidle)]
        rfl
      all_goals rfl
  · rw [step_busy hbusy, hostCycle_writeReg (s := { s with seq := .busy left }) (r := .cmd) hhost rfl]
    rfl

/-! ### Steps while a command runs -/

/-- A step of the countdown whose event does not reset the block. -/
theorem step_countdown {left : Nat} (hbusy : s.seq = .busy (left + 1)) (hhost : ∀ e es, s.host = e :: es → e.resets = false) :
    ∃ irqEn overrun busyWr doneIrq es resp, es <:+ s.host ∧
      step s = .next { s with seq := .busy left, irqEn := irqEn, overrun := overrun, busyWr := busyWr, doneIrq := doneIrq,
                              host := es, resp := resp } := by
  obtain ⟨e, es, _, _, hhead, hreset, -⟩ | ⟨es, resp, u, hes, heffect, hcycle⟩ := hostCycle_effect { s with seq := .busy left }
  · rw [hhost e es hhead] at hreset
    cases hreset
  · obtain ⟨irqEn, overrun, busyWr, doneIrq, rfl⟩ := heffect.of_busy (isBusy_of_busy rfl)
    exact ⟨irqEn, overrun, busyWr, doneIrq, es, resp, hes, (step_busy hbusy).trans (congrArg Host.Outcome.next hcycle)⟩

/-- Settles O7: while BUSY the host reaches the control bits alone, and CTRL shows IRQ_EN from before the command. -/
theorem inputsStayFixedWhileBusy : Obligations.InputsStayFixedWhileBusy := by
  unfold Obligations.InputsStayFixedWhileBusy
  intro s left hbusy hhost
  obtain ⟨irqEn, overrun, busyWr, doneIrq, es, resp, -, hstep⟩ := step_countdown hbusy hhost
  refine ⟨_, hstep, rfl, fun r herrflags hirq => ?_⟩
  cases r
  case errflags => exact absurd rfl herrflags
  case irqStatus => exact absurd rfl hirq
  case ctrl =>
    rw [readReg, readReg, ctrlWord_eq, ctrlWord_eq, irqEnShown_busy s (isBusy_of_busy hbusy), irqEnShown_busy _ (isBusy_of_busy rfl)]
  case status =>
    rw [readReg, readReg, statusWord, statusWord, isBusy_of_busy hbusy, isBusy_of_busy rfl]
  all_goals rfl

/-- A due command completes with CMD unchanged. -/
theorem step_due_completes (hbusy : s.seq = .busy 0) (hhost : ∀ a es, s.host ≠ .rst a :: es) :
    ∃ t, step s = .next t ∧ t.seq = .idle ∧ t.done = true ∧ t.doneIrq = true ∧ t.cmd = s.cmd ∧ t.irqEn = s.irqEn := by
  rw [step_due hbusy hhost, runCommand]
  cases decode s.cmd with
  | error _ => exact ⟨_, rfl, rfl, rfl, rfl, rfl, rfl⟩
  | ok i =>
    obtain ⟨t, ht⟩ := exec_next i s
    obtain ⟨hidle, hdone, hirq⟩ := exec_completes ht
    have hframe := exec_frame ht
    have hcmd : t.cmd = s.cmd := hframe.regs .cmd (by cases i <;> decide) (by decide) (by decide) (by decide) (by decide)
    exact ⟨t, ht, hidle, hdone, hirq, hcmd, hframe.control.1⟩

theorem not_rst_of_no_reset (h : ∀ e ∈ s.host, e.resets = false) : ∀ a es, s.host ≠ .rst a :: es := by
  intro a es hhost
  have hreset := h (.rst a) (hhost ▸ List.mem_cons_self)
  cases hreset

theorem run_succ {t : State} (h : step s = .next t) (n : Nat) :
    Host.Core.run Sys2Proof.core (n + 1) s = Host.Core.run Sys2Proof.core n t := by
  have hcore : Sys2Proof.core.step s = .next t := h
  simp only [Host.Core.run, hcore]

/-- Settles O6, by induction on the cycles left: what is still to arrive after a cycle was to arrive before it. -/
theorem acceptedCommandCompletes : Obligations.AcceptedCommandCompletes := by
  unfold Obligations.AcceptedCommandCompletes
  intro n
  induction n with
  | zero =>
    intro s hbusy hhost
    obtain ⟨t, hstep, hidle, hdone, hirq, hcmd, -⟩ := step_due_completes hbusy (not_rst_of_no_reset hhost)
    exact ⟨t, run_succ hstep 0, hidle, hdone, hirq, hcmd⟩
  | succ n ih =>
    intro s hbusy hhost
    obtain ⟨_, _, _, _, es, _, hes, hstep⟩ := step_countdown hbusy fun e es hhead => hhost e (hhead ▸ List.mem_cons_self)
    rw [run_succ hstep]
    exact ih _ rfl fun e he => hhost e (hes.mem he)

/-- Settles O21: an end of a command sets DONE_IRQ and leaves IRQ_EN. -/
theorem completionRaisesInterrupt : Obligations.CompletionRaisesInterrupt := by
  unfold Obligations.CompletionRaisesInterrupt
  intro s t hbusy hhost hstep
  obtain ⟨u, hu, -, -, hirq, -, hen⟩ := step_due_completes hbusy hhost
  obtain rfl : u = t := by
    rw [hstep] at hu
    cases hu
    rfl
  refine ⟨hirq, ?_, ?_, rfl⟩
  · rw [readReg, (irqStatusWord_fields u).1, hirq]
  · rw [irq, hirq, hen, Bool.and_true]

/-! ### Resets -/

/-- Settles O19: the write to CTRL resets the block whatever it says of IRQ_EN. -/
theorem softResetEqualsReset : Obligations.SoftResetEqualsReset := by
  unfold Obligations.SoftResetEqualsReset
  intro s v es hv hhost hseq
  refine ⟨?_, irq_reset⟩
  obtain hidle | ⟨left, hbusy⟩ := hseq
  · rw [step_idle hidle, hostCycle_writeReg (r := .ctrl) hhost rfl, writeReg, if_pos hv]
    rfl
  · rw [step_busy hbusy, hostCycle_writeReg (s := { s with seq := .busy left }) (r := .ctrl) hhost rfl, writeReg, if_pos hv]
    rfl

/-- Settles O20: an edge of RST at the head of the queue is served in every state of the sequencer. -/
theorem hardwareResetEqualsReset : Obligations.HardwareResetEqualsReset := by
  unfold Obligations.HardwareResetEqualsReset
  intro s a es hhost
  have hserved : ∃ u : State, step s = .next (hostCycle u) ∧ u.host = s.host ∧ u.resp = s.resp := by
    cases hseq : s.seq with
    | idle => exact ⟨s, step_idle hseq, rfl, rfl⟩
    | busy left =>
      cases left with
      | zero =>
        have hsampled : rstSampled s = true := rstSampled_iff.2 ⟨a, es, hhost⟩
        exact ⟨s, by rw [step, clockCycle, hseq, hsampled, if_pos rfl], rfl, rfl⟩
      | succ left => exact ⟨_, step_busy hseq, rfl, rfl⟩
  obtain ⟨u, hstep, hqueue, hanswer⟩ := hserved
  obtain ⟨r, k, hreset, hresp⟩ := hostCycle_rst (hqueue.trans hhost)
  exact ⟨_, hstep.trans (congrArg Host.Outcome.next hreset), rfl, fun ha => (hresp ha).trans hanswer, rfl⟩

end Sys2Proof.Machine
end

section
/-! What keeps the invariant of the block: every commit set, every completion, every cycle of the outside world
(spec/10_state.md sections 2-4, spec/43_wordtable.md, spec/60_exceptions.md section 1). -/

namespace Sys2Proof.Machine

/-! ### The state that each part of the invariant speaks of -/

/-- The word table and its flags. -/
def tablePart (s : State) : List (Nat × Bytes) × Half × Bool × Bool × Bool :=
  (s.wt, s.tblCount, s.tblOver, s.tblBad, s.tableValid)

/-- The lengths and the checksum register. -/
def lengthPart (s : State) : Half × Half × Half × Byte × BitVec 4 := (s.normLen, s.outLen, s.saltLen, s.ck, s.csn)

/-- The status fields. -/
def statusPart (s : State) : Bool × Bool × BitVec 4 × Bool × BitVec 4 := (isBusy s, s.done, s.err, s.resValid, s.resReason)

section Congr
variable {s t : State}

theorem MemInv.congr (h : MemInv s) (e : t.mem = s.mem) : MemInv t where
  canonical := e ▸ h.canonical
  mapped := e ▸ h.mapped

theorem TableInv.congr (h : TableInv s) (e : tablePart t = tablePart s) : TableInv t := by
  simp only [tablePart, Prod.mk.injEq] at e
  obtain ⟨hwt, hcount, hover, hbad, hvalid⟩ := e
  constructor
  case canonical => rw [hwt]; exact h.canonical
  case pushed => rw [hwt, hcount]; exact h.pushed
  case text => rw [hwt]; exact h.text
  case noGap => rw [hwt, hcount, hbad]; exact h.noGap
  case overflow => rw [hcount, hover]; exact h.overflow
  case sealed => rw [hcount, hover, hbad, hvalid]; exact h.sealed

theorem LengthInv.congr (h : LengthInv s) (e : lengthPart t = lengthPart s) : LengthInv t := by
  simp only [lengthPart, Prod.mk.injEq] at e
  obtain ⟨hnorm, hout, hsalt, hck, hcsn⟩ := e
  constructor
  case norm => rw [hnorm]; exact h.norm
  case out => rw [hout]; exact h.out
  case salt => rw [hsalt]; exact h.salt
  case cksum => rw [hck, hcsn]; exact h.cksum

theorem StatusInv.congr (h : StatusInv s) (e : statusPart t = statusPart s) : StatusInv t := by
  simp only [statusPart, Prod.mk.injEq] at e
  obtain ⟨hbusy, hdone, herr, hvalid, hreason⟩ := e
  constructor
  case busyClear => rw [hbusy, hdone]; exact h.busyClear
  case errDone => rw [hdone, herr]; exact h.errDone
  case errLegal => rw [herr]; exact h.errLegal
  case reasonLegal => rw [hreason]; exact h.reasonLegal
  case validReason => rw [hvalid, hreason]; exact h.validReason

theorem Inv.congr (h : Inv s) (hmem : t.mem = s.mem) (htable : tablePart t = tablePart s) (hstatus : statusPart t = statusPart s)
    (hlengths : lengthPart t = lengthPart s) : Inv t :=
  ⟨h.mem.congr hmem, h.table.congr htable, h.status.congr hstatus, h.lengths.congr hlengths⟩

end Congr

/-- R75. -/
theorem reset_inv : Inv State.reset where
  mem := ⟨reset_memory_wf, fun _ hc => absurd hc List.not_mem_nil⟩
  table := {
    canonical := reset_table_wf.1
    pushed := by decide
    text := by decide
    noGap := fun _ _ hi => absurd hi (by rw [State.reset]; simp)
    overflow := by decide
    sealed := by decide }
  status := ⟨by decide, by decide, by decide, by decide, by decide⟩
  lengths := ⟨by decide, by decide, by decide, by decide⟩

/-! ### Commits -/

section Commits
variable {s : State}

theorem MemInv.storeBytes (h : MemInv s) {b : Buf} {a n : Nat} (hlo : b.base ≤ a) (hhi : a + n ≤ b.base + b.size) (vs : Bytes) :
    MemInv (storeBytes s a n vs) where
  canonical := storeBytes_wf s h.canonical a n vs
  mapped c hc := by
    obtain ⟨hfirst, hlast, -, -⟩ | ⟨hmem, -⟩ := Sparse.mem_store 0 hc
    · exact ⟨b, by omega, by omega⟩
    · exact h.mapped c hmem

theorem MemInv.commitBuf (h : MemInv s) (b : Buf) (vs : Bytes) : MemInv (commitBuf s b vs) :=
  h.storeBytes (Nat.le_refl _) (Nat.le_refl _) vs

theorem MemInv.clearBufs (h : MemInv s) (bs : List Buf) : MemInv (clearBufs s bs) := by
  induction bs generalizing s with
  | nil => exact h
  | cons b bs ih => exact ih (h.commitBuf b [])

/-- The part of the invariant that a commit set can break; the status fields are the completion's. -/
structure DataInv (s : State) : Prop where
  mem : MemInv s
  table : TableInv s
  lengths : LengthInv s

theorem DataInv.congr {t : State} (h : DataInv s) (hmem : t.mem = s.mem) (htable : tablePart t = tablePart s)
    (hlengths : lengthPart t = lengthPart s) : DataInv t :=
  ⟨h.mem.congr hmem, h.table.congr htable, h.lengths.congr hlengths⟩

theorem DataInv.commitBuf (h : DataInv s) (b : Buf) (vs : Bytes) : DataInv (commitBuf s b vs) :=
  ⟨h.mem.commitBuf b vs, h.table.congr rfl, h.lengths.congr rfl⟩

/-- R161: CK keeps the top CS bits of a digest byte, and CS is 4 to 8. -/
theorem ckOf_getLsbD_low (e : Bytes) {k : Nat} (hk : k < 8 - e.length / 4) : (ckOf e).getLsbD k = false := by
  simp [ckOf, slice, hk]

theorem DataInv.commitCksum (h : DataInv s) {e : Bytes} (he : LegalEntLen e.length) : DataInv (commitCksum s e) where
  mem := h.mem.congr rfl
  table := h.table.congr rfl
  lengths := by
    have hcsn : (Machine.commitCksum s e).csn.toNat = e.length / 4 := by
      unfold LegalEntLen at he
      rw [commitCksum_csn, BitVec.toNat_ofNat]
      omega
    refine ⟨h.lengths.norm, h.lengths.out, h.lengths.salt, .inr ?_⟩
    rw [hcsn, commitCksum_ck]
    unfold LegalEntLen at he
    exact ⟨by omega, by omega, fun k hk => ckOf_getLsbD_low e hk⟩

theorem DataInv.commitIdx (h : DataInv s) (v : List Nat) : DataInv (commitIdx s v) := h.commitBuf .idxBuf _

theorem DataInv.commitPack (h : DataInv s) {e : Bytes} (he : LegalEntLen e.length) : DataInv (commitPack s e) :=
  ((h.commitCksum he).commitIdx (packIndices e)).congr rfl rfl rfl

theorem DataInv.commitEntropy (h : DataInv s) {e : Bytes} (he : LegalEntLen e.length) : DataInv (commitEntropy s e) :=
  ((h.commitBuf .entBuf e).commitCksum he).congr rfl rfl rfl

theorem DataInv.commitPhrase (h : DataInv s) {t : Bytes} (ht : t.length ≤ 1559) : DataInv (commitPhrase s t) where
  mem := (h.mem.commitBuf .textOut t).congr rfl
  table := h.table.congr rfl
  lengths := ⟨h.lengths.norm, by rw [toNat_commitPhrase_outLen s ht]; exact ht, h.lengths.salt, h.lengths.cksum⟩

theorem DataInv.commitNorm (h : DataInv s) {m : NormText} (hm : m.text.length ≤ 4096) : DataInv (commitNorm s m) where
  mem := ((h.mem.commitBuf .normBuf m.text).commitBuf .tokTable _).congr rfl
  table := h.table.congr rfl
  lengths := by
    refine ⟨?_, h.lengths.out, h.lengths.salt, h.lengths.cksum⟩
    rw [commitNorm_normLen, BitVec.toNat_ofNat]
    omega

theorem DataInv.commitSalt (h : DataInv s) {v : Bytes} (hmin : 8 ≤ v.length) (hmax : v.length ≤ 2048) :
    DataInv (commitSalt s v) where
  mem := (h.mem.commitBuf .saltBuf v).congr rfl
  table := h.table.congr rfl
  lengths := by
    refine ⟨h.lengths.norm, h.lengths.out, .inr ?_, h.lengths.cksum⟩
    rw [toNat_commitSalt_saltLen s hmax]
    exact ⟨hmin, hmax⟩

theorem DataInv.zeroized (h : DataInv s) : DataInv (zeroized s) where
  mem := (h.mem.clearBufs Buf.all).congr (zeroized_mem s)
  table := by
    obtain ⟨m, hm⟩ := clearBufs_eq s Buf.all
    rw [Machine.zeroized, hm]
    exact h.table.congr rfl
  lengths := reset_inv.lengths.congr rfl

/-! The word table (R191-R194) -/

theorem DataInv.tblReset (h : DataInv s) :
    DataInv { s with wt := [], tblCount := 0, tblOver := false, tblBad := false, tableValid := false } where
  mem := h.mem.congr rfl
  table := reset_inv.table.congr rfl
  lengths := h.lengths.congr rfl

/-- A push below 2048 of a text, or of the empty entry with TBL_BAD. -/
theorem TableInv.pushEntry_text (h : TableInv s) (hopen : s.tableValid = false) (hn : s.tblCount.toNat < 2048) {w : Bytes}
    (hlen : w.length ≤ 64) (hwf : utf8Wf w = true) {bad : Bool} (hbad : bad = false → s.tblBad = false ∧ w ≠ []) :
    TableInv { setEntry s s.tblCount.toNat w with
      tblBad := bad, tblCount := BitVec.ofNat 16 (min (s.tblCount.toNat + 1) 0xFFFF) } := by
  have hcount : (BitVec.ofNat 16 (min (s.tblCount.toNat + 1) 0xFFFF)).toNat = s.tblCount.toNat + 1 := by
    rw [BitVec.toNat_ofNat]
    omega
  have hlisted : ∀ c ∈ (setEntry s s.tblCount.toNat w).wt, (c.1 = s.tblCount.toNat ∧ c.2 = w) ∨ c ∈ s.wt := fun c hc => by
    obtain ⟨hfirst, hlast, hval, -⟩ | ⟨hmem, -⟩ := Sparse.mem_store [] hc
    · exact .inl ⟨by omega, List.mem_singleton.1 hval⟩
    · exact .inr hmem
  constructor
  case canonical => exact (setEntry_wf h.table_wf s.tblCount.toNat hn w).1
  case pushed =>
    intro c hc
    rw [hcount]
    obtain ⟨hkey, -⟩ | hmem := hlisted c hc
    · omega
    · have := h.pushed c hmem
      omega
  case text =>
    intro c hc
    obtain ⟨-, hval⟩ | hmem := hlisted c hc
    · rw [hval]
      exact ⟨hlen, hwf⟩
    · exact h.text c hmem
  case noGap =>
    intro hgood i hi
    obtain ⟨hbefore, hne⟩ := hbad hgood
    rw [hcount] at hi
    show wtEntry (setEntry s s.tblCount.toNat w).wt i ≠ []
    rw [wtEntry_setEntry]
    split
    · exact hne
    · exact h.noGap hbefore i (by omega)
  case overflow =>
    rw [hcount]
    refine ⟨fun hover => ?_, fun hlt => by omega⟩
    have := h.overflow.1 hover
    omega
  case sealed => exact fun hsealed => absurd hsealed (by simpa using hopen)

/-- A surplus push. -/
theorem TableInv.pushEntry_surplus (h : TableInv s) (hopen : s.tableValid = false) (hn : 2048 ≤ s.tblCount.toNat) :
    TableInv { s with tblOver := true, tblCount := BitVec.ofNat 16 (min (s.tblCount.toNat + 1) 0xFFFF) } := by
  have hlt := s.tblCount.isLt
  have hcount : (BitVec.ofNat 16 (min (s.tblCount.toNat + 1) 0xFFFF)).toNat = min (s.tblCount.toNat + 1) 0xFFFF := by
    rw [BitVec.toNat_ofNat]
    omega
  constructor
  case canonical => exact h.canonical
  case pushed =>
    intro c hc
    have := h.pushed c hc
    rw [hcount]
    omega
  case text => exact h.text
  case noGap =>
    intro hgood i hi
    rw [hcount] at hi
    exact h.noGap hgood i (by omega)
  case overflow =>
    rw [hcount]
    exact ⟨fun _ => by omega, fun _ => rfl⟩
  case sealed => exact fun hsealed => absurd hsealed (by simpa using hopen)

theorem stagedOf_length_le (s : State) : (stagedOf s).length ≤ 64 := by
  rw [stagedOf, bufBytes_length]
  exact Nat.min_le_right _ _

theorem DataInv.pushed (h : DataInv s) (hopen : s.tableValid = false) : DataInv (pushed s) := by
  have hmem : (Machine.pushed s).mem = s.mem ∧ lengthPart (Machine.pushed s) = lengthPart s := by
    obtain ⟨wt, surplus, bad, hentry⟩ := pushEntry_eq s s.tblCount.toNat s.stageLen.toNat (stagedOf s)
    rw [Machine.pushed, hentry]
    exact ⟨rfl, rfl⟩
  refine ⟨h.mem.congr hmem.1, ?_, h.lengths.congr hmem.2⟩
  rcases Nat.lt_or_ge s.tblCount.toNat 2048 with hn | hn
  · cases hok : entryOk s.stageLen.toNat (stagedOf s) with
    | true =>
      obtain ⟨hpos, hmax, hwf⟩ := (entryOk_iff _ _).1 hok
      have hne : stagedOf s ≠ [] := by
        rw [← List.length_pos_iff, stagedOf_eq_bufBytes hmax, bufBytes_length]
        exact hpos
      rw [Machine.pushed, pushEntry_of_good hn hok]
      exact h.table.pushEntry_text hopen hn (stagedOf_length_le s) hwf (fun hbad => ⟨hbad, hne⟩)
    | false =>
      rw [Machine.pushed, pushEntry_of_bad hn hok]
      exact h.table.pushEntry_text hopen hn (w := []) (bad := true) (by decide) (by decide) (fun hbad => by cases hbad)
  · rw [Machine.pushed, pushEntry_of_surplus hn]
    exact h.table.pushEntry_surplus hopen hn

theorem DataInv.seal (h : DataInv s) (hcount : s.tblCount.toNat = 2048) (hover : s.tblOver = false) (hbad : s.tblBad = false) :
    DataInv { s with tableValid := true } where
  mem := h.mem.congr rfl
  table := ⟨h.table.canonical, h.table.pushed, h.table.text, h.table.noGap, h.table.overflow, fun _ => ⟨hcount, hover, hbad⟩⟩
  lengths := h.lengths.congr rfl

/-! Operands that have passed their checks -/

theorem LegalCount.legalEntLen {n : Nat} (h : LegalCount n) : LegalEntLen (4 * n / 3) := by
  unfold LegalCount at h
  unfold LegalEntLen
  omega

theorem entropyIn_legal {e : Bytes} (h : entropyIn s = .ok e) : LegalEntLen e.length := by
  obtain ⟨hok, rfl⟩ := entropyIn_ok.1 h
  rw [bufBytes_length]
  exact (entOk_iff _).1 hok

theorem indicesIn_legal {v : List Nat} (h : indicesIn s = .ok v) : LegalCount v.length := by
  obtain ⟨hok, -, rfl⟩ := indicesIn_ok.1 h
  rw [List.length_map, List.length_range]
  exact (countOk_iff _).1 hok

theorem decodeIndices_legal {v : List Nat} {e : Bytes} (h : decodeIndices v = .ok e) (hv : LegalCount v.length) :
    LegalEntLen e.length := by
  obtain ⟨-, rfl⟩ := decodeIndices_ok.1 h
  rw [ungroupEntropy_length]
  exact hv.legalEntLen

theorem mnemonicIn_legal {m : NormText} (h : mnemonicIn s = .ok m) :
    ∃ n, m = ⟨n, splitSp n⟩ ∧ n.length ≤ 4096 ∧ LegalCount (splitSp n).length := by
  obtain ⟨-, -, hnorm⟩ := mnemonicIn_ok.1 h
  obtain ⟨hlen, hcount, rfl⟩ := normTok_ok.1 hnorm
  exact ⟨_, rfl, hlen, (countOk_iff _).1 hcount⟩

theorem lookupAll_length {wt : List (Nat × Bytes)} {ws : List Bytes} {j : Nat} {v : List Nat}
    (h : lookupAll wt ws j = .ok v) : v.length = ws.length := by
  have hlength := congrArg List.length (lookupAll_ok.1 h)
  rw [List.length_map, List.length_map] at hlength
  exact hlength.symm

theorem saltIn_bounds {v : Bytes} (h : saltIn s = .ok v) : 8 ≤ v.length ∧ v.length ≤ 2048 := by
  obtain ⟨-, -, hsalt⟩ := saltIn_ok.1 h
  obtain ⟨hmax, rfl⟩ := saltOf_ok.1 hsalt
  refine ⟨?_, hmax⟩
  rw [List.length_append]
  exact Nat.le_add_right 8 _

theorem decodeText_legal {d : TextDecoding} (h : decodeText s = .ok d) :
    d.norm.text.length ≤ 4096 ∧ LegalEntLen d.entropy.length := by
  obtain ⟨-, hnorm, hlookup, hdecode⟩ := decodeText_ok.1 h
  obtain ⟨n, hm, hlen, hcount⟩ := mnemonicIn_legal hnorm
  rw [hm] at hlookup ⊢
  exact ⟨hlen, decodeIndices_legal hdecode (lookupAll_length hlookup ▸ hcount)⟩

/-- R200 for a list of indices. -/
theorem TableInv.phraseOf_length_le (h : TableInv s) {v : List Nat} (hv : LegalCount v.length) :
    (phraseOf s.wt v).length ≤ 1559 := by
  have hlist : v = (List.range v.length).map (fun j => v.getD j 0) :=
    List.ext_getElem (by simp) fun j hj _ => by simp [List.getD_eq_getElem?_getD, hj]
  rw [hlist, phraseOf, List.map_map]
  exact h.phrase_length_le hv (fun j => v.getD j 0)

/-! Every commit set -/

theorem Commits.dataInv {i : Instr} {u : State} (h : Commits i s u) (hs : DataInv s) : DataInv u := by
  cases h
  case nop => exact hs
  case zeroize => exact hs.zeroized
  case tblReset => exact hs.tblReset
  case tblPush hrun =>
    obtain ⟨hopen, rfl⟩ := runTblPush_ok.1 hrun
    exact hs.pushed hopen
  case tblSeal hrun =>
    obtain ⟨-, rfl⟩ | ⟨-, hcount, hover, hbad, rfl⟩ := runTblSeal_ok.1 hrun
    · exact hs
    · exact hs.seal hcount hover hbad
  case tblRead hrun =>
    obtain ⟨-, -, rfl⟩ := runTblRead_ok.1 hrun
    exact (hs.commitBuf .stageBuf _).congr rfl rfl rfl
  case tblFind hrun =>
    obtain ⟨-, -, _, -, rfl⟩ := runTblFind_ok.1 hrun
    exact hs.congr rfl rfl rfl
  case cksum hrun =>
    obtain ⟨_, he, rfl⟩ := runCksum_ok.1 hrun
    exact hs.commitCksum (entropyIn_legal he)
  case pack hrun =>
    obtain ⟨_, he, rfl⟩ := runPack_ok.1 hrun
    exact hs.commitPack (entropyIn_legal he)
  case unpack hrun =>
    obtain ⟨_, hv, _, he, rfl⟩ := runUnpack_ok.1 hrun
    exact hs.commitEntropy (decodeIndices_legal he (indicesIn_legal hv))
  case normalize hrun =>
    obtain ⟨_, hm, rfl⟩ := runNormalize_ok.1 hrun
    obtain ⟨n, rfl, hlen, -⟩ := mnemonicIn_legal hm
    exact hs.commitNorm hlen
  case salt hrun =>
    obtain ⟨_, hv, rfl⟩ := runSalt_ok.1 hrun
    obtain ⟨hmin, hmax⟩ := saltIn_bounds hv
    exact hs.commitSalt hmin hmax
  case w2i hrun =>
    obtain ⟨-, -, _, -, rfl⟩ := runW2i_ok.1 hrun
    exact hs.commitIdx _
  case i2w hrun =>
    obtain ⟨-, _, hv, rfl⟩ := runI2w_ok.1 hrun
    exact hs.commitPhrase (hs.table.phraseOf_length_le (indicesIn_legal hv))
  case e2m hrun =>
    obtain ⟨-, e, he, rfl⟩ := runE2m_ok.1 hrun
    have hlegal := entropyIn_legal he
    exact (hs.commitPack hlegal).commitPhrase
      (hs.table.phraseOf_length_le (by rw [packIndices_length]; exact hlegal.legalCount))
  case m2eTxt hrun =>
    obtain ⟨_, hd, rfl⟩ := runM2eTxt_ok.1 hrun
    obtain ⟨hnorm, hent⟩ := decodeText_legal hd
    exact ((hs.commitNorm hnorm).commitIdx _).commitEntropy hent
  case m2eBin hrun =>
    obtain ⟨_, hd, rfl⟩ := runM2eBin_ok.1 hrun
    obtain ⟨-, _, hv, he⟩ := decodeBinary_ok.1 hd
    exact hs.commitEntropy (decodeIndices_legal he (indicesIn_legal hv))
  case seedprepTxt hrun =>
    obtain ⟨_, hm, _, hv, rfl⟩ := runSeedprepTxt_ok.1 hrun
    obtain ⟨n, rfl, hlen, -⟩ := mnemonicIn_legal hm
    obtain ⟨hmin, hmax⟩ := saltIn_bounds hv
    exact (hs.commitNorm hlen).commitSalt hmin hmax
  case seedprepBin hrun =>
    obtain ⟨-, _, hi, _, hv, rfl⟩ := runSeedprepBin_ok.1 hrun
    obtain ⟨hmin, hmax⟩ := saltIn_bounds hv
    exact (hs.commitPhrase (hs.table.phraseOf_length_le (indicesIn_legal hi))).commitSalt hmin hmax

end Commits

/-! ### The status fields after a completion (R36, R51, R270-R272) -/

section Status
variable {s t : State}

theorem textIn_legalReason {b : Buf} {n cap : Nat} {r : Raise} (h : textIn s b n cap = .error r) :
    legalReason r.kind.code = true := by
  obtain ⟨-, rfl⟩ | ⟨-, -, rfl⟩ := textIn_error.1 h
  · decide
  · decide

theorem mnemonicIn_legalReason {r : Raise} (h : mnemonicIn s = .error r) : legalReason r.kind.code = true := by
  obtain htext | ⟨-, -, hnorm⟩ := mnemonicIn_error.1 h
  · exact textIn_legalReason htext
  · obtain ⟨-, rfl⟩ | ⟨-, -, rfl⟩ := normTok_error.1 hnorm
    · decide
    · decide

theorem indicesIn_legalReason {r : Raise} (h : indicesIn s = .error r) : legalReason r.kind.code = true := by
  obtain ⟨-, rfl⟩ | ⟨-, _, -, -, -, rfl⟩ := indicesIn_error.1 h
  · rfl
  · rfl

theorem needTable_legalReason {r : Raise} (h : needTable s = .error r) : legalReason r.kind.code = true := by
  obtain ⟨-, rfl⟩ := needTable_error.1 h
  decide

theorem decodeIndices_legalReason {v : List Nat} {r : Raise} (h : decodeIndices v = .error r) :
    legalReason r.kind.code = true := by
  obtain ⟨-, rfl⟩ := decodeIndices_error.1 h
  decide

theorem decodeText_legalReason {r : Raise} (h : decodeText s = .error r) : legalReason r.kind.code = true := by
  obtain hgate | ⟨-, hnorm | ⟨_, -, hlookup | ⟨_, -, hdecode⟩⟩⟩ := decodeText_error.1 h
  · exact needTable_legalReason hgate
  · exact mnemonicIn_legalReason hnorm
  · obtain ⟨_, _, -, -, rfl⟩ := lookupAll_error.1 hlookup
    rfl
  · exact decodeIndices_legalReason hdecode

theorem decodeBinary_legalReason {r : Raise} (h : decodeBinary s = .error r) : legalReason r.kind.code = true := by
  obtain hgate | ⟨_, -, hrest⟩ := bind_error_iff.1 h
  · exact needTable_legalReason hgate
  · obtain hindices | ⟨_, -, hdecode⟩ := bind_error_iff.1 hrest
    · exact indicesIn_legalReason hindices
    · exact decodeIndices_legalReason hdecode

/-- RESULT holds a legal code, and none where VALID is 1. -/
def ResultOk (s : State) : Prop := legalReason s.resReason = true ∧ (s.resValid = true → s.resReason = 0)

theorem resultOk_completeVal {α : Type} {x : Except Raise α} (h : ∀ r, x = .error r → legalReason r.kind.code = true) :
    ResultOk (completeVal s x) := by
  cases x with
  | ok a => exact ⟨rfl, fun _ => rfl⟩
  | error r => exact ⟨h r rfl, fun hvalid => by cases hvalid⟩

theorem result_fields_of_readReg (h : readReg t .result = readReg s .result) :
    t.resReason = s.resReason ∧ t.resValid = s.resValid := by
  obtain ⟨hvalid, -, hreason, -⟩ := resultWord_fields s
  obtain ⟨hvalid', -, hreason', -⟩ := resultWord_fields t
  have hword : resultWord t = resultWord s := h
  exact ⟨by rw [← hreason', hword, hreason], by rw [← hvalid', hword, hvalid]⟩

theorem exec_resultOk {i : Instr} (h : exec i s = .next t) (hs : ResultOk s) : ResultOk t := by
  by_cases hwrites : Reg.result ∈ Instr.regsWritten i
  · have hi : i = .zeroize ∨ i = .valTxt ∨ i = .valBin := by
      revert hwrites
      cases i <;> decide
    obtain rfl | rfl | rfl := hi
    · cases h
      exact ⟨rfl, fun _ => rfl⟩
    · cases h
      exact resultOk_completeVal fun r => decodeText_legalReason
    · cases h
      exact resultOk_completeVal fun r => decodeBinary_legalReason
  · obtain ⟨hreason, hvalid⟩ :=
      result_fields_of_readReg ((exec_frame h).regs .result hwrites (by decide) (by decide) (by decide) (by decide))
    rw [ResultOk, hreason, hvalid]
    exact hs

/-- After a completion SEQ is IDLE and DONE is 1, so only the codes matter. -/
theorem statusInv_of_completed (hseq : t.seq = .idle) (hdone : t.done = true) (herr : legalErr t.err = true)
    (hresult : ResultOk t) : StatusInv t where
  busyClear hbusy := by
    rw [isBusy, hseq] at hbusy
    cases hbusy
  errDone hopen := by
    rw [hdone] at hopen
    cases hopen
  errLegal := herr
  reasonLegal := hresult.1
  validReason := hresult.2

end Status

/-! ### Steps -/

section Steps
variable {s t : State}

theorem exec_dataInv {i : Instr} (h : exec i s = .next t) (hs : DataInv s) : DataInv t := by
  obtain ⟨u, hu, rfl⟩ | ⟨r, rfl, -, -⟩ | ⟨-, rfl | ⟨r, rfl⟩⟩ := exec_cases h
  · exact (hu.dataInv hs).congr rfl rfl rfl
  all_goals exact hs.congr rfl rfl rfl

theorem Inv.exec {i : Instr} (hs : Inv s) (h : exec i s = .next t) : Inv t := by
  obtain ⟨hmem, htable, hlengths⟩ := exec_dataInv h ⟨hs.mem, hs.table, hs.lengths⟩
  obtain ⟨hseq, hdone, -⟩ := exec_completes h
  have hresult := exec_resultOk h ⟨hs.status.reasonLegal, hs.status.validReason⟩
  exact ⟨hmem, htable, statusInv_of_completed hseq hdone (exec_legalErr h) hresult, hlengths⟩

/-- R124. -/
theorem Inv.illegal (hs : Inv s) : Inv (finish s 9 noIndex) :=
  ⟨hs.mem.congr rfl, hs.table.congr rfl,
    statusInv_of_completed rfl rfl rfl ⟨hs.status.reasonLegal, hs.status.validReason⟩, hs.lengths.congr rfl⟩

/-- R88, R306: what the host can do without resetting the block. -/
theorem Inv.hostEffect (hs : Inv s) (h : HostEffect s t) : Inv t := by
  cases h
  case control => exact hs.congr rfl rfl rfl rfl
  case operand => exact hs.congr rfl rfl rfl rfl
  case issued =>
    have hstatus := hs.status
    exact ⟨hs.mem.congr rfl, hs.table.congr rfl,
      ⟨fun _ => rfl, fun _ => rfl, rfl, hstatus.reasonLegal, hstatus.validReason⟩, hs.lengths.congr rfl⟩
  case bytes hlo hhi _ =>
    exact ⟨hs.mem.storeBytes hlo hhi _, hs.table.congr rfl, hs.status.congr rfl, hs.lengths.congr rfl⟩

theorem Inv.hostCycle (hs : Inv s) : Inv (hostCycle s) := by
  obtain ⟨_, _, _, _, -, -, hreset⟩ | ⟨es, _, u, -, heffect, hcycle⟩ := hostCycle_effect s
  · rw [hreset]
    exact reset_inv.congr rfl rfl rfl rfl
  · have hqueue : Inv { s with host := es } := hs.congr rfl rfl rfl rfl
    rw [hcycle]
    exact (hqueue.hostEffect heffect).congr rfl rfl rfl rfl

/-- A cycle of the countdown stays BUSY. -/
theorem Inv.countdown (hs : Inv s) {n : Nat} (hseq : s.seq = .busy (n + 1)) : Inv { s with seq := .busy n } := by
  have hbusy : isBusy s = true := by rw [isBusy, hseq]
  refine hs.congr rfl rfl ?_ rfl
  rw [statusPart, statusPart, hbusy]
  rfl

theorem Inv.step (hs : Inv s) (h : step s = .next t) : Inv t := by
  obtain ⟨-, rfl⟩ | ⟨n, hseq, rfl⟩ | ⟨-, -, rfl⟩ | ⟨-, -, i, -, hexec⟩ | ⟨-, -, -, rfl⟩ := step_cases h
  · exact hs.hostCycle
  · exact (hs.countdown hseq).hostCycle
  · exact hs.hostCycle
  · exact hs.exec hexec
  · exact hs.illegal

end Steps

/-- Settles O30: the operand checks bound what a commit set writes, a completion writes legal codes only, and the host reaches
registers and RW buffers only. -/
theorem stepKeepsInvariant : Obligations.StepKeepsInvariant := by
  unfold Obligations.StepKeepsInvariant
  exact fun _ _ hs h => hs.step h

/-! ### The tokens (R58, R63, R221) -/

section Tokens
variable {s t : State}

theorem reset_tokensInside : TokensInside State.reset := ⟨by decide, by decide⟩

/-- Settles O29. -/
theorem resetMeetsInvariant : Obligations.ResetMeetsInvariant := ⟨reset_inv, reset_tokensInside⟩

/-- The descriptors stand in TOK_TABLE. -/
theorem tok_congr (h : ∀ a, Buf.tokTable.holds a → readByte t a = readByte s a) {j : Nat} (hj : j < 24) :
    tokOff t j = tokOff s j ∧ tokLen t j = tokLen s j := by
  have hsize : Buf.tokTable.size = 96 := rfl
  have hbytes (i : Nat) (hi : i ≤ 2) :
      bytesAt t (Buf.tokTable.base + 4 * j + i) 2 = bytesAt s (Buf.tokTable.base + 4 * j + i) 2 :=
    bytesAt_eq fun k hk => h _ ⟨by omega, by omega⟩
  exact ⟨congrArg leVal (hbytes 0 (by decide)), congrArg leVal (hbytes 2 (Nat.le_refl 2))⟩

theorem TokensInside.congr (hs : TokensInside s) (hlen : t.normLen = s.normLen)
    (h : ∀ a, Buf.tokTable.holds a → readByte t a = readByte s a) : TokensInside t := by
  refine ⟨hlen ▸ hs.1, fun j hj => ?_⟩
  obtain ⟨hoff, hlen'⟩ := tok_congr h hj
  rw [hoff, hlen', hlen]
  exact hs.2 j hj

/-- R221: each token of a normalized text ends inside it, and the descriptors past the last one are 0. -/
theorem HoldsNorm.tokensInside {n : Bytes} (h : HoldsNorm t n) (hn : n.length ≤ 4096) : TokensInside t := by
  obtain ⟨-, hlen, -, htoks⟩ := h
  refine ⟨hlen ▸ hn, fun j hj => ?_⟩
  obtain ⟨hoff, hlen'⟩ := htoks j hj
  rw [hoff, hlen', hlen]
  split
  case isTrue hlt =>
    rw [List.getD_eq_getElem _ _ hlt]
    exact splitSp_token_end_le n hlt
  case isFalse hge =>
    rw [List.getD_eq_default _ _ (Nat.le_of_not_lt hge)]
    exact Nat.zero_le _

theorem holdsNorm_of_mnemonicIn {m : NormText} (h : mnemonicIn s = .ok m) :
    HoldsNorm (commitNorm s m) m.text ∧ m.text.length ≤ 4096 := by
  obtain ⟨n, rfl, hlen, -⟩ := mnemonicIn_legal h
  exact ⟨holdsNorm_commitNorm s hlen, hlen⟩

theorem readReg_normLen_inj (h : readReg t .normLen = readReg s .normLen) : t.normLen = s.normLen := by
  have hnat := congrArg BitVec.toNat h
  have ht := t.normLen.isLt
  have hs := s.normLen.isLt
  simp only [readReg, BitVec.toNat_setWidth] at hnat
  apply BitVec.eq_of_toNat_eq
  omega

theorem Commits.tokensInside {i : Instr} (h : Commits i s t) (hs : TokensInside s) : TokensInside t := by
  by_cases hwrites : Reg.normLen ∈ Instr.regsWritten i ∨ Buf.tokTable ∈ Instr.bufsWritten i
  · have hi : i = .zeroize ∨ i = .normalize ∨ i = .m2eTxt ∨ i = .seedprepTxt := by
      revert hwrites
      cases i <;> decide
    obtain rfl | rfl | rfl | rfl := hi
    · cases h
      refine reset_tokensInside.congr rfl fun a ha => ?_
      rw [readByte_zeroized, if_pos (List.any_eq_true.2 ⟨_, Buf.mem_all _, decide_eq_true ha⟩), readByte_reset]
    · cases h with
      | normalize hrun =>
        obtain ⟨m, hm, rfl⟩ := runNormalize_ok.1 hrun
        obtain ⟨hnorm, hlen⟩ := holdsNorm_of_mnemonicIn hm
        exact hnorm.tokensInside hlen
    · cases h with
      | m2eTxt hrun =>
        obtain ⟨d, hd, rfl⟩ := runM2eTxt_ok.1 hrun
        obtain ⟨-, hm, -, -⟩ := decodeText_ok.1 hd
        obtain ⟨hnorm, hlen⟩ := holdsNorm_of_mnemonicIn hm
        exact ((hnorm.commitIdx _).commitEntropy _).tokensInside hlen
    · cases h with
      | seedprepTxt hrun =>
        obtain ⟨m, hm, v, -, rfl⟩ := runSeedprepTxt_ok.1 hrun
        obtain ⟨hnorm, hlen⟩ := holdsNorm_of_mnemonicIn hm
        exact (hnorm.commitSalt v).tokensInside hlen
  · obtain ⟨hreg, hbuf⟩ := not_or.1 hwrites
    have hframe := h.frame
    refine hs.congr (readReg_normLen_inj (hframe.regs .normLen hreg (by decide) (by decide) (by decide) (by decide))) ?_
    refine fun a ha => hframe.bytes a fun b hb hin => ?_
    have hne : b ≠ .tokTable := fun heq => hbuf (heq ▸ hb)
    exact Buf.disjoint hne a ⟨hin, ha⟩

theorem exec_tokensInside {i : Instr} (h : exec i s = .next t) (hs : TokensInside s) : TokensInside t := by
  obtain ⟨u, hu, rfl⟩ | ⟨r, rfl, -, -⟩ | ⟨-, rfl | ⟨r, rfl⟩⟩ := exec_cases h
  · exact (hu.tokensInside hs).congr rfl fun _ _ => rfl
  all_goals exact hs.congr rfl fun _ _ => rfl

/-- R88: TOK_TABLE and NORM_LEN take no write of the host. -/
theorem HostEffect.tokensInside (h : HostEffect s t) (hs : TokensInside s) : TokensInside t := by
  cases h
  case control => exact hs.congr rfl fun _ _ => rfl
  case operand => exact hs.congr rfl fun _ _ => rfl
  case issued => exact hs.congr rfl fun _ _ => rfl
  case bytes b hrw off n hlo hhi vs =>
    refine hs.congr rfl fun a ha => ?_
    have hne : b ≠ .tokTable := by
      rintro rfl
      cases hrw
    rw [readByte_storeBytes, if_neg]
    exact fun hin => Buf.disjoint hne a ⟨⟨by omega, by omega⟩, ha⟩

theorem hostCycle_tokensInside (hs : TokensInside s) : TokensInside (hostCycle s) := by
  obtain ⟨_, _, _, _, -, -, hreset⟩ | ⟨es, _, u, -, heffect, hcycle⟩ := hostCycle_effect s
  · rw [hreset]
    exact reset_tokensInside.congr rfl fun _ _ => rfl
  · have hqueue : TokensInside { s with host := es } := hs.congr rfl fun _ _ => rfl
    rw [hcycle]
    exact (heffect.tokensInside hqueue).congr rfl fun _ _ => rfl

end Tokens

/-- Settles O31: the commands that write TOK_TABLE write the descriptors of a text that fits NORM_LEN, and the host writes
neither. -/
theorem stepKeepsTokensInside : Obligations.StepKeepsTokensInside := by
  unfold Obligations.StepKeepsTokensInside
  intro s t hs h
  obtain ⟨-, rfl⟩ | ⟨n, -, rfl⟩ | ⟨-, -, rfl⟩ | ⟨-, -, i, -, hexec⟩ | ⟨-, -, -, rfl⟩ := step_cases h
  · exact hostCycle_tokensInside hs
  · exact hostCycle_tokensInside (hs.congr rfl fun _ _ => rfl)
  · exact hostCycle_tokensInside hs
  · exact exec_tokensInside hexec hs
  · exact hs.congr rfl fun _ _ => rfl

/-! ### The sealed table (R68) -/

section Sealed
variable {s t : State}

/-- The host reaches the word table by a reset alone. -/
theorem hostCycle_table (s : State) :
    (∃ e es, s.host = e :: es ∧ e.resets = true ∧
      hostCycle s = { State.reset with host := es, resp := (hostCycle s).resp, freeCount := (hostCycle s).freeCount }) ∨
    ((hostCycle s).wt = s.wt ∧ (hostCycle s).tableValid = s.tableValid) := by
  obtain ⟨e, es, _, _, hhost, hresets, hreset⟩ | ⟨_, _, _, -, heffect, hcycle⟩ := hostCycle_effect s
  · refine .inl ⟨e, es, hhost, hresets, ?_⟩
    rw [hreset]
  · rw [hcycle]
    cases heffect
    all_goals exact .inr ⟨rfl, rfl⟩

/-- R68 for a cycle of the outside world: it seals no table, and unseals one by a reset alone. -/
theorem hostCycle_sealed (s : State) :
    (s.tableValid = true → (hostCycle s).tableValid = true → (hostCycle s).wt = s.wt) ∧
    (s.tableValid = false → (hostCycle s).tableValid = true → False) ∧
    (s.tableValid = true → (hostCycle s).tableValid = false → ∃ e es, s.host = e :: es ∧ e.resets = true ∧
      hostCycle s = { State.reset with host := es, resp := (hostCycle s).resp, freeCount := (hostCycle s).freeCount }) := by
  obtain ⟨e, es, hhost, hresets, hreset⟩ | ⟨hwt, hvalid⟩ := hostCycle_table s
  · have hopen : (hostCycle s).tableValid = false := congrArg State.tableValid hreset
    have hnot : (hostCycle s).tableValid ≠ true := Bool.eq_false_iff.1 hopen
    exact ⟨fun _ h => absurd h hnot, fun _ => hnot, fun _ _ => ⟨e, es, hhost, hresets, hreset⟩⟩
  · rw [hvalid]
    exact ⟨fun _ _ => hwt, fun hopen hsealed => Bool.eq_false_iff.1 hopen hsealed,
      fun hsealed hopen => absurd hsealed (Bool.eq_false_iff.1 hopen)⟩

theorem Instr.writesEntries_iff (i : Instr) : Instr.writesEntries i = true ↔ i = .tblReset ∨ i = .tblPush := by
  cases i <;> decide

theorem exec_tblReset_tableValid (h : exec .tblReset s = .next t) : t.tableValid = false := by
  cases h
  rfl

/-- R123: the commands that write entries are TBL_RESET, which unseals, and TBL_PUSH, which fails on a sealed table (R193). -/
theorem exec_wt_of_sealed {i : Instr} (h : exec i s = .next t) (hsealed : s.tableValid = true) (hstays : t.tableValid = true) :
    t.wt = s.wt := by
  cases hwrites : Instr.writesEntries i with
  | false => exact (exec_frame h).entries hwrites
  | true =>
    obtain rfl | rfl := (Instr.writesEntries_iff i).1 hwrites
    · rw [exec_tblReset_tableValid h] at hstays
      cases hstays
    · rw [exec_tblPush_of_sealed hsealed] at h
      cases h
      rfl

/-- A command that seals the table is a TBL_SEAL without error (R194). -/
theorem exec_seals {i : Instr} (h : exec i s = .next t) (hopen : s.tableValid = false) (hsealed : t.tableValid = true) :
    i = .tblSeal ∧ t.err = 0 ∧ t.wt = s.wt := by
  have hi : i = .tblSeal := by
    by_contra hne
    cases hwrites : Instr.writesTableValid i with
    | false =>
      rw [(exec_frame h).valid hwrites, hopen] at hsealed
      cases hsealed
    | true =>
      obtain rfl := ((Instr.writesTableValid_iff i).1 hwrites).resolve_right hne
      rw [exec_tblReset_tableValid h] at hsealed
      cases hsealed
  subst hi
  obtain ⟨u, -, rfl⟩ | ⟨r, rfl, -, -⟩ | ⟨hval, -⟩ := exec_cases h
  · exact ⟨rfl, rfl, (exec_frame h).entries rfl⟩
  · rw [finish_tableValid, hopen] at hsealed
    cases hsealed
  · simp at hval

end Sealed

/-- Settles O28: by the sequencer's state, a step is a cycle of the outside world, which reaches the table by a reset alone, or the
end of a command or of an illegal word. -/
theorem sealedTableIsImmutable : Obligations.SealedTableIsImmutable := by
  unfold Obligations.SealedTableIsImmutable
  intro s t h
  obtain ⟨-, rfl⟩ | ⟨n, -, rfl⟩ | ⟨-, -, rfl⟩ | ⟨hdue, -, i, hdecode, hexec⟩ | ⟨-, -, -, rfl⟩ := step_cases h
  · obtain ⟨hkeeps, hseals, hunseals⟩ := hostCycle_sealed s
    exact ⟨hkeeps, fun hopen hsealed => (hseals hopen hsealed).elim, fun hsealed hopen => .inr (hunseals hsealed hopen)⟩
  · obtain ⟨hkeeps, hseals, hunseals⟩ := hostCycle_sealed { s with seq := .busy n }
    exact ⟨hkeeps, fun hopen hsealed => (hseals hopen hsealed).elim, fun hsealed hopen => .inr (hunseals hsealed hopen)⟩
  · obtain ⟨hkeeps, hseals, hunseals⟩ := hostCycle_sealed s
    exact ⟨hkeeps, fun hopen hsealed => (hseals hopen hsealed).elim, fun hsealed hopen => .inr (hunseals hsealed hopen)⟩
  · refine ⟨fun hsealed hstays => exec_wt_of_sealed hexec hsealed hstays, fun hopen hsealed => ?_, fun hsealed hopen => .inl ?_⟩
    · obtain ⟨rfl, herr, hwt⟩ := exec_seals hexec hopen hsealed
      exact ⟨hdue, hdecode, herr, hwt⟩
    · have hi : i = .tblReset := by
        by_contra hne
        rw [exec_tableValid_of_ne_tblReset hexec hne hsealed] at hopen
        cases hopen
      exact ⟨hdue, hi ▸ hdecode⟩
  · exact ⟨fun _ _ => rfl, fun hopen hsealed => absurd hsealed (Bool.eq_false_iff.1 hopen),
      fun hsealed hopen => absurd hsealed (Bool.eq_false_iff.1 hopen)⟩

/-! ### ZEROIZE leaves nothing (R151) -/

/-- Settles O34: each byte of each buffer is cleared, and each named register's fields are 0. -/
theorem zeroizeLeavesNoSecret : Obligations.ZeroizeLeavesNoSecret := by
  unfold Obligations.ZeroizeLeavesNoSecret
  refine fun s => ⟨_, rfl, succeeded_finish _, fun b k hk => ?_, fun r hr => ?_⟩
  · have hin : b.holds (b.base + k) := ⟨by omega, by omega⟩
    refine (readByte_zeroized s (b.base + k)).trans ?_
    rw [if_pos (List.any_eq_true.2 ⟨b, Buf.mem_all b, decide_eq_true hin⟩)]
    rfl
  · have hnamed : r ≠ .id ∧ r ≠ .errIndex := by
      constructor <;> (rintro rfl; simp at hr)
    rw [← readReg_reset_eq_zero hnamed.1 hnamed.2]
    simp only [List.mem_cons, List.not_mem_nil, or_false] at hr
    obtain rfl | rfl | rfl | rfl | rfl | rfl | rfl | rfl | rfl | rfl | rfl := hr
    all_goals rfl

end Sys2Proof.Machine
end

section
/-! PACK and UNPACK undo each other, and PACK reads no byte past ENT_LEN (spec/42_radix.md R170-R176, spec/41_checksum.md R161). -/

namespace Sys2Proof.Machine

/-! ### The stream of E ‖ CK and the stream of the indices (R170, R173) -/

section Streams

/-- The top CS bits of CK, read most significant first. -/
theorem bitsVal_top (ck : Byte) {cs : Nat} (hcs : cs ≤ 8) :
    bitsVal ((List.range cs).map fun t => ck.getLsbD (7 - t)) = (ck >>> (8 - cs)).toNat := by
  have hck := ck.isLt
  have hbits := bitsVal_lt ((List.range cs).map fun t => ck.getLsbD (7 - t))
  rw [List.length_map, List.length_range] at hbits
  refine eq_of_testBit_lt hbits ?_ fun k hk => ?_
  · rw [BitVec.toNat_ushiftRight, Nat.shiftRight_eq_div_pow, Nat.div_lt_iff_lt_mul (Nat.two_pow_pos _), ← pow_add,
      Nat.add_sub_cancel' hcs]
    exact hck
  · rw [bitsVal_range_testBit _ _ _ hk, BitVec.testBit_toNat, BitVec.getLsbD_ushiftRight]
    congr 1
    omega

theorem bitAt_eq (e : Bytes) {i t : Nat} (ht : t < 8) : bitAt e (8 * i + t) = (e.getD i 0).getLsbD (7 - t) := by
  rw [bitAt, show (8 * i + t) / 8 = i by omega, show (8 * i + t) % 8 = t by omega]

theorem idxBit_eq (v : List Nat) {j t : Nat} (ht : t < 11) : idxBit v (11 * j + t) = (v.getD j 0).testBit (10 - t) := by
  rw [idxBit, show (11 * j + t) / 11 = j by omega, show (11 * j + t) % 11 = t by omega]

/-- R173: the decoded entropy has the bits of the stream of indices. -/
theorem bitAt_ungroupEntropy (v : List Nat) {k : Nat} (hk : k < 8 * (4 * v.length / 3)) :
    bitAt (ungroupEntropy v) k = idxBit v k := by
  have hi : k / 8 < 4 * v.length / 3 := by omega
  have hsplit : 8 * (k / 8) + k % 8 = k := Nat.div_add_mod k 8
  have hbyte : (ungroupEntropy v).getD (k / 8) 0 =
      BitVec.ofNat 8 (bitsVal ((List.range 8).map fun t => idxBit v (8 * (k / 8) + t))) := by
    simp [ungroupEntropy, List.getD_eq_getElem?_getD, hi]
  rw [bitAt, hbyte, byte_of_bits _ _ (Nat.mod_lt _ (by decide)), hsplit]

/-- Byte strings of one length with the same bits are equal. -/
theorem bytes_ext {e f : Bytes} (hlen : e.length = f.length) (h : ∀ k < 8 * e.length, bitAt e k = bitAt f k) : e = f := by
  refine List.ext_getElem hlen fun i hi hi' => BitVec.eq_of_getLsbD_eq fun k hk => ?_
  have hbit := h (8 * i + (7 - k)) (by omega)
  rw [bitAt_eq e (by omega), bitAt_eq f (by omega), List.getD_eq_getElem e 0 hi, List.getD_eq_getElem f 0 hi',
    show 7 - (7 - k) = k by omega] at hbit
  exact hbit

/-- Lists of 11-bit indices of one length with the same bits are equal. -/
theorem indices_ext {v w : List Nat} (hlen : v.length = w.length) (hv : ∀ x ∈ v, x < 2 ^ 11) (hw : ∀ x ∈ w, x < 2 ^ 11)
    (h : ∀ k < 11 * v.length, idxBit v k = idxBit w k) : v = w := by
  refine List.ext_getElem hlen fun j hj hj' => ?_
  refine eq_of_testBit_lt (hv _ (List.getElem_mem hj)) (hw _ (List.getElem_mem hj')) fun k hk => ?_
  have hbit := h (11 * j + (10 - k)) (by omega)
  rw [idxBit_eq v (by omega), idxBit_eq w (by omega), List.getD_eq_getElem v 0 hj, List.getD_eq_getElem w 0 hj',
    show 10 - (10 - k) = k by omega] at hbit
  exact hbit

end Streams

/-! ### Packing and unpacking (R176) -/

section Inverse
variable {e : Bytes} {v : List Nat}

theorem ungroupEntropy_packIndices (he : LegalEntLen e.length) : ungroupEntropy (packIndices e) = e := by
  have hlen : (packIndices e).length = 3 * e.length / 4 := packIndices_length e
  unfold LegalEntLen at he
  refine bytes_ext (by rw [ungroupEntropy_length]; omega) fun k hk => ?_
  rw [ungroupEntropy_length] at hk
  rw [bitAt_ungroupEntropy _ hk, idxBit_packIndices e k (by omega), bitAt_append_left e _ k (by omega)]

/-- The checksum bits of the packed indices are the top CS bits of CK. -/
theorem ungroupCsv_packIndices (he : LegalEntLen e.length) :
    ungroupCsv (packIndices e) = (ckOf e >>> (8 - (packIndices e).length / 3)).toNat := by
  have hlen : (packIndices e).length = 3 * e.length / 4 := packIndices_length e
  unfold LegalEntLen at he
  rw [← bitsVal_top (ckOf e) (by omega), ungroupCsv]
  refine congrArg bitsVal (List.map_congr_left fun t ht => ?_)
  have ht := List.mem_range.1 ht
  rw [show 4 * (packIndices e).length / 3 = e.length by omega, idxBit_packIndices e _ (by omega),
    bitAt_append_right e _ t (by omega)]

theorem decodeIndices_packIndices (he : LegalEntLen e.length) : decodeIndices (packIndices e) = .ok e := by
  rw [decodeIndices_ok, ungroupEntropy_packIndices he]
  exact ⟨(ungroupCsv_packIndices he).symm, rfl⟩

/-- Where the checksum bits of the indices are the top bits of the recomputed CK, packing gives the indices back. -/
theorem packIndices_ungroupEntropy (hv : LegalCount v.length) (hle : ∀ x ∈ v, x ≤ 2047)
    (hck : (ckOf (ungroupEntropy v) >>> (8 - v.length / 3)).toNat = ungroupCsv v) : packIndices (ungroupEntropy v) = v := by
  have hlen : (ungroupEntropy v).length = 4 * v.length / 3 := ungroupEntropy_length v
  have hend := hv.stream_length
  obtain ⟨-, -, hcs⟩ := hv.bounds
  have hcount : (packIndices (ungroupEntropy v)).length = v.length := by
    unfold LegalCount at hv
    rw [packIndices_length]
    omega
  refine indices_ext hcount (packIndices_lt _) (fun x hx => Nat.lt_succ_of_le (hle x hx)) fun k hk => ?_
  rw [idxBit_packIndices _ k (by rwa [← packIndices_length])]
  rcases Nat.lt_or_ge k (8 * (4 * v.length / 3)) with hent | hchk
  · rw [bitAt_append_left _ _ k (by omega), bitAt_ungroupEntropy v hent]
  · obtain ⟨t, rfl⟩ := Nat.exists_eq_add_of_le hchk
    have ht : t < v.length / 3 := by omega
    have hbit := congrArg (fun x => x.testBit (v.length / 3 - 1 - t)) hck
    simp only [← bitsVal_top (ckOf (ungroupEntropy v)) hcs, ungroupCsv] at hbit
    rw [bitsVal_range_testBit _ _ _ (by omega), bitsVal_range_testBit _ _ _ (by omega),
      show v.length / 3 - 1 - (v.length / 3 - 1 - t) = t by omega] at hbit
    rw [← hlen, bitAt_append_right _ _ t (by omega), hlen]
    exact hbit

end Inverse

/-! ### The commands -/

section Commands
variable {s t : State}

/-- A command that ends without an error has committed. -/
theorem exec_committed {i : Instr} {x : Except Raise State} (hexec : exec i s = .next (complete s x)) (h : exec i s = .next t)
    (ht : t.err = 0) : ∃ u, x = .ok u ∧ t = finish u 0 noIndex := by
  rw [hexec] at h
  cases h
  cases x with
  | ok u => exact ⟨u, rfl, rfl⟩
  | error r => exact absurd ht r.kind.code_ne_zero

theorem packIndices_eq_map (e : Bytes) :
    packIndices e = (List.range (3 * e.length / 4)).map (specIdx e (ckOf e)) := by
  rw [packIndices, funext (specIdx_eq e (ckOf e))]

/-- The index operand of a state whose IDX_BUF and WORD_COUNT hold indices in range. -/
theorem indicesIn_of_holdsIdx {n : Nat} {v : Nat → Nat} (h : HoldsIdx t n v) (hn : LegalCount n) (hcount : t.wordCount.toNat = n)
    (hv : ∀ j < n, v j ≤ 2047) : indicesIn t = .ok ((List.range n).map v) := by
  subst hcount
  obtain ⟨-, hmax, -⟩ := hn.bounds
  have hhalf : ∀ j < t.wordCount.toNat, half t j = v j := fun j hj => by rw [h j (by omega), if_pos hj]
  rw [indicesIn_of_inRange hn fun j hj => (hhalf j hj).symm ▸ hv j hj]
  exact congrArg Except.ok (List.map_congr_left fun j hj => hhalf j (List.mem_range.1 hj))

/-- After PACK the index operand is the packed indices. -/
theorem indicesIn_commitPack (h : LegalEntLen s.entLen.toNat) :
    indicesIn (finish (commitPack s (entropyOf s)) 0 noIndex) = .ok (packIndices (entropyOf s)) := by
  have hidx := (holdsIdx_commitPack s (entropyOf s)).finish 0 noIndex
  have hcount := toNat_commitPack_wordCount s
  rw [packIndices_eq_map]
  rw [entropyOf_length] at hidx ⊢
  exact indicesIn_of_holdsIdx hidx h.legalCount hcount fun j _ => specIdx_le _ _ j

/-- Settles O43: UNPACK finds the packed indices and their checksum bits in order. -/
theorem packThenUnpackRestoresEntropy : Obligations.PackThenUnpackRestoresEntropy := by
  unfold Obligations.PackThenUnpackRestoresEntropy
  intro s h
  have hdecode := decodeIndices_packIndices (e := entropyOf s) (by rw [entropyOf_length]; exact h)
  have hrun := runUnpack_ok.2 ⟨_, indicesIn_commitPack h, _, hdecode, rfl⟩
  refine ⟨_, _, exec_pack_of_legal h, exec_of_commit (exec_unpack _) hrun, succeeded_finish _,
    (holds_commitEntropy _ _).finish 0 noIndex, ?_⟩
  rw [finish_entLen, commitEntropy_entLen, entropyOf_length, BitVec.ofNat_toNat, BitVec.setWidth_eq]

/-- After UNPACK the entropy operand is what it committed. -/
theorem entropyOf_commitEntropy (s : State) {e : Bytes} (he : LegalEntLen e.length) :
    entropyOf (finish (commitEntropy s e) 0 noIndex) = e := by
  have hlen : (finish (commitEntropy s e) 0 noIndex).entLen.toNat = e.length := by
    unfold LegalEntLen at he
    rw [finish_entLen, commitEntropy_entLen, BitVec.toNat_ofNat]
    omega
  have hfit : e.length ≤ Buf.entBuf.size := by
    unfold LegalEntLen at he
    rw [Buf.size]
    omega
  rw [entropyOf, hlen]
  exact (bytesAt_congr rfl _ _).trans (bufBytes_commitBuf s .entBuf e hfit)

/-- Settles O44: PACK finds the entropy that UNPACK decoded, whose checksum bits are those of the indices. -/
theorem unpackThenPackRestoresIndices : Obligations.UnpackThenPackRestoresIndices := by
  unfold Obligations.UnpackThenPackRestoresIndices
  intro s t h ht
  obtain ⟨u, hrun, rfl⟩ := exec_committed (exec_unpack s) h ht
  obtain ⟨v, hv, e, he, rfl⟩ := runUnpack_ok.1 hrun
  have hcount := indicesIn_legal hv
  have hlegal := decodeIndices_legal he hcount
  have hentropy := entropyOf_commitEntropy s hlegal
  have hpack := exec_pack_of_legal (s := finish (commitEntropy s e) 0 noIndex) (by rwa [← entropyOf_length, hentropy])
  rw [hentropy] at hpack
  obtain ⟨-, hle, hv⟩ := indicesIn_ok.1 hv
  obtain ⟨hck, rfl⟩ := decodeIndices_ok.1 he
  have hle' : ∀ x ∈ v, x ≤ 2047 := by simpa [hv] using hle
  have hindices := packIndices_ungroupEntropy hcount hle' hck
  have hlen : 3 * (ungroupEntropy v).length / 4 = s.wordCount.toNat := by
    rw [← packIndices_length, hindices, hv, List.length_map, List.length_range]
  have hidx := (holdsIdx_commitPack (finish (commitEntropy s (ungroupEntropy v)) 0 noIndex) (ungroupEntropy v)).finish 0 noIndex
  rw [hlen] at hidx
  refine ⟨_, hpack, succeeded_finish _, ?_, fun j hj => ?_⟩
  · rw [finish_wordCount, commitPack_wordCount, hlen, BitVec.ofNat_toNat, BitVec.setWidth_eq]
  · rw [hidx j hj]
    split
    case isTrue hlt =>
      rw [← packIndices_getD _ (by rwa [hlen]), hindices, hv]
      simp [List.getD_eq_getElem?_getD, hlt]
    case isFalse => rfl

/-- Settles O46: the operand is the same bytes. -/
theorem packIgnoresBytesBeyondLength : Obligations.PackIgnoresBytesBeyondLength := by
  unfold Obligations.PackIgnoresBytesBeyondLength
  intro s s' t t' hlen hbytes h h' ht
  obtain ⟨u, hrun, rfl⟩ := exec_committed (exec_pack s) h ht
  obtain ⟨e, he, rfl⟩ := runPack_ok.1 hrun
  have hoperand : entropyIn s' = entropyIn s := by
    rw [entropyIn, entropyIn, hlen, show bufBytes s' .entBuf _ = bufBytes s .entBuf _ from bytesAt_eq hbytes]
  have hpack := exec_of_commit (exec_pack s') (runPack_ok.2 ⟨e, hoperand.trans he, rfl⟩)
  rw [hpack] at h'
  cases h'
  refine ⟨rfl, rfl, rfl, rfl, fun j hj => ?_⟩
  have hhalf := (holdsIdx_commitPack s e).finish 0 noIndex j hj
  have hhalf' := (holdsIdx_commitPack s' e).finish 0 noIndex j hj
  exact hhalf'.trans hhalf.symm

end Commands
end Sys2Proof.Machine
end

section
/-! The composites and their primitives, and the two forms of a mnemonic (spec/45_composite.md R247, R248). -/

namespace Sys2Proof.Machine

/-! ### A commit after a completion

A completion writes fields that no commit writes, so it can be moved past one, and the later of two completions is left. -/

section Completion
variable (s : State) (err err' : BitVec 4) (info info' : Half)

@[simp] theorem finish_finish : finish (finish s err info) err' info' = finish s err' info' := rfl

@[simp] theorem commitIdx_finish (v : List Nat) : commitIdx (finish s err info) v = finish (commitIdx s v) err info := rfl

@[simp] theorem commitEntropy_finish (e : Bytes) : commitEntropy (finish s err info) e = finish (commitEntropy s e) err info := rfl

@[simp] theorem commitPhrase_finish (t : Bytes) : commitPhrase (finish s err info) t = finish (commitPhrase s t) err info := rfl

@[simp] theorem commitSalt_finish (v : Bytes) : commitSalt (finish s err info) v = finish (commitSalt s v) err info := rfl

end Completion

section Primitives
variable {s t : State}

/-! ### What the second primitive finds -/

theorem Holds.bytesAt_eq {b : Buf} {vs : Bytes} (h : Holds t b vs) {off n : Nat} (hn : off + n ≤ vs.length)
    (hfit : vs.length ≤ b.size) : bytesAt t (b.base + off) n = (vs.drop off).take n := by
  refine List.ext_getElem (by simp; omega) fun i hi hi' => ?_
  have hi : i < n := by simpa using hi
  have hbyte := h (off + i) (by omega)
  rw [List.getD_eq_getElem vs 0 (by omega)] at hbyte
  simp [bytesAt, Nat.add_assoc, hbyte]

theorem Holds.bufBytes_eq {b : Buf} {vs : Bytes} (h : Holds t b vs) (hfit : vs.length ≤ b.size) : bufBytes t b vs.length = vs := by
  have hslice := h.bytesAt_eq (off := 0) (n := vs.length) (by omega) hfit
  rwa [List.drop_zero, List.take_length] at hslice

/-- R221: the tokens that TOK_TABLE describes are those of the text in NORM_BUF. -/
theorem HoldsNorm.tokenBytes_eq {n : Bytes} (h : HoldsNorm t n) (hn : n.length ≤ 4096) (hcount : (splitSp n).length ≤ 24) :
    (List.range (splitSp n).length).map (tokenBytes t) = splitSp n := by
  obtain ⟨htext, -, -, htoks⟩ := h
  refine List.ext_getElem (by simp) fun j hj hj' => ?_
  obtain ⟨hoff, hlen⟩ := htoks j (by omega)
  rw [if_pos hj'] at hoff
  rw [List.getD_eq_getElem _ _ hj'] at hlen
  have hslice := joinSp_slice (splitSp n) j hj'
  rw [joinSp_splitSp] at hslice
  rw [List.getElem_map, List.getElem_range, tokenBytes, hoff, hlen,
    htext.bytesAt_eq (splitSp_token_end_le n hj') hn, hslice]

/-- R198: after NORMALIZE, W2I looks up the tokens of the text. -/
theorem runW2i_commitNorm {n : Bytes} {v : List Nat} (hsealed : s.tableValid = true) (hlen : n.length ≤ 4096)
    (hcount : LegalCount (splitSp n).length) (hv : lookupAll s.wt (splitSp n) 0 = .ok v) :
    runW2i (finish (commitNorm s ⟨n, splitSp n⟩) 0 noIndex) =
      .ok (finish (commitIdx (commitNorm s ⟨n, splitSp n⟩) v) 0 noIndex) := by
  have hnorm := (holdsNorm_commitNorm s hlen).finish 0 noIndex
  have ⟨_, _, hwords, _⟩ := hnorm
  refine runW2i_ok.2 ⟨hsealed, (countOk_iff _).2 (hwords ▸ hcount), v, ?_, rfl⟩
  rw [hwords, hnorm.tokenBytes_eq hlen hcount.bounds.2.1]
  exact hv

/-- R69: an index that a lookup answered is in range, and its entry is the word looked up. -/
theorem lookupAll_entries (hinv : TableInv s) {ws : List Bytes} {v : List Nat} (h : lookupAll s.wt ws 0 = .ok v) :
    (∀ x ∈ v, x ≤ 2047) ∧ v.map (wtEntry s.wt) = ws := by
  rw [lookupAll_ok] at h
  induction ws generalizing v with
  | nil =>
    obtain rfl : v = [] := by simpa using h.symm
    simp
  | cons w ws ih =>
    cases v with
    | nil => cases h
    | cons x v =>
      obtain ⟨hx, hrest⟩ := List.cons.inj h
      obtain ⟨hlt, hentry, -⟩ := hinv.ridx_eq_some_iff.1 hx
      obtain ⟨hle, hentries⟩ := ih hrest
      exact ⟨List.forall_mem_cons.2 ⟨Nat.le_of_lt_succ hlt, hle⟩, by rw [List.map_cons, hentry, hentries]⟩

/-- After W2I the index operand is the indices it wrote. -/
theorem indicesIn_commitIdx {v : List Nat} (hcount : LegalCount v.length) (hwords : t.wordCount.toNat = v.length)
    (hle : ∀ x ∈ v, x ≤ 2047) (hidx : HoldsIdx t v.length (fun j => v.getD j 0)) : indicesIn t = .ok v := by
  have hlist : (List.range v.length).map (fun j => v.getD j 0) = v :=
    List.ext_getElem (by simp) fun j _ hj => by simp [List.getD_eq_getElem?_getD, hj]
  rw [indicesIn_of_holdsIdx hidx hcount hwords, hlist]
  intro j hj
  rw [List.getD_eq_getElem v 0 hj]
  exact hle _ (List.getElem_mem hj)

/-- R223: the passphrase operand is PASS_LEN and PASS_IN. -/
theorem saltIn_of_same_operand {v : Bytes} (h : saltIn s = .ok v) (hlen : t.passLen = s.passLen)
    (hbytes : ∀ a, Buf.passIn.holds a → readByte t a = readByte s a) : saltIn t = .ok v := by
  obtain ⟨hmax, hrest⟩ := saltIn_ok.1 h
  have hpass : bufBytes t .passIn s.passLen.toNat = bufBytes s .passIn s.passLen.toNat :=
    bytesAt_eq fun i hi => hbytes _ ⟨by omega, Nat.add_lt_add_left (Nat.lt_of_lt_of_le hi hmax) _⟩
  rw [saltIn_ok, hlen, hpass]
  exact ⟨hmax, hrest⟩

/-- What a command that succeeds leaves in PASS_IN, if PASS_IN is not in its column. -/
theorem readByte_passIn_of_frame {i : Instr} (h : Frame i s t) (hi : Buf.passIn ∉ Instr.bufsWritten i) :
    ∀ a, Buf.passIn.holds a → readByte t a = readByte s a := by
  refine fun a ha => h.bytes a fun b hb hin => ?_
  have hne : b ≠ .passIn := fun heq => hi (heq ▸ hb)
  exact Buf.disjoint hne a ⟨hin, ha⟩

/-! ### The composites (R247) -/

theorem e2m_eq_primitives (h : exec .e2m s = .next t) (ht : t.err = 0) :
    ∃ a, exec .pack s = .next a ∧ a.err = 0 ∧ exec .i2w a = .next t := by
  obtain ⟨u, hrun, rfl⟩ := exec_committed (exec_e2m s) h ht
  obtain ⟨hsealed, e, he, rfl⟩ := runE2m_ok.1 hrun
  obtain ⟨hok, hentropy⟩ := entropyIn_ok.1 he
  obtain rfl : e = entropyOf s := hentropy
  have hlegal := (entOk_iff _).1 hok
  have hi2w := exec_of_commit (exec_i2w (finish (commitPack s (entropyOf s)) 0 noIndex))
    (runI2w_ok.2 ⟨hsealed, _, indicesIn_commitPack hlegal, rfl⟩)
  rw [commitPhrase_finish, finish_finish, finish_wt, commitPack_wt] at hi2w
  exact ⟨_, exec_pack_of_legal hlegal, rfl, hi2w⟩

/-- What M2E_TXT has found and committed where it ends without an error. -/
theorem m2eTxt_committed (h : exec .m2eTxt s = .next t) (ht : t.err = 0) :
    s.tableValid = true ∧ ∃ n v e, mnemonicIn s = .ok ⟨n, splitSp n⟩ ∧ n.length ≤ 4096 ∧ LegalCount (splitSp n).length ∧
      lookupAll s.wt (splitSp n) 0 = .ok v ∧ decodeIndices v = .ok e ∧
      t = finish (commitEntropy (commitIdx (commitNorm s ⟨n, splitSp n⟩) v) e) 0 noIndex := by
  obtain ⟨u, hrun, rfl⟩ := exec_committed (exec_m2eTxt s) h ht
  obtain ⟨⟨m, v, e⟩, hd, rfl⟩ := runM2eTxt_ok.1 hrun
  obtain ⟨hsealed, hm, hv, he⟩ := decodeText_ok.1 hd
  obtain ⟨n, rfl, hlen, hcount⟩ := mnemonicIn_legal hm
  exact ⟨hsealed, n, v, e, hm, hlen, hcount, hv, he, rfl⟩

/-- The indices that a lookup answered are the index operand once they are committed, also after an entropy is. -/
theorem indicesIn_commitIdx_lookup (hinv : TableInv s) {n : Bytes} {v : List Nat} (hlen : n.length ≤ 4096)
    (hcount : LegalCount (splitSp n).length) (hv : lookupAll s.wt (splitSp n) 0 = .ok v) (e : Bytes) :
    indicesIn (finish (commitIdx (commitNorm s ⟨n, splitSp n⟩) v) 0 noIndex) = .ok v ∧
      indicesIn (finish (commitEntropy (commitIdx (commitNorm s ⟨n, splitSp n⟩) v) e) 0 noIndex) = .ok v := by
  obtain ⟨hle, -⟩ := lookupAll_entries hinv hv
  have hsame := lookupAll_length hv
  obtain ⟨-, -, hwords, -⟩ := holdsNorm_commitNorm s hlen
  have hidx := holdsIdx_commitIdx (commitNorm s ⟨n, splitSp n⟩) v fun x hx => Nat.lt_of_le_of_lt (hle x hx) (by decide)
  rw [← hsame] at hwords hcount
  exact ⟨indicesIn_commitIdx hcount hwords hle (hidx.finish 0 noIndex),
    indicesIn_commitIdx hcount hwords hle ((hidx.commitEntropy e).finish 0 noIndex)⟩

theorem m2eTxt_eq_primitives (hinv : TableInv s) (h : exec .m2eTxt s = .next t) (ht : t.err = 0) :
    ∃ a b, exec .normalize s = .next a ∧ a.err = 0 ∧ exec .w2i a = .next b ∧ b.err = 0 ∧ exec .unpack b = .next t := by
  obtain ⟨hsealed, n, v, e, hm, hlen, hcount, hv, he, rfl⟩ := m2eTxt_committed h ht
  obtain ⟨hindices, -⟩ := indicesIn_commitIdx_lookup hinv hlen hcount hv e
  have hw2i := exec_of_commit (exec_w2i _) (runW2i_commitNorm hsealed hlen hcount hv)
  rw [finish_finish] at hw2i
  have hunpack := exec_of_commit (exec_unpack _) (runUnpack_ok.2 ⟨v, hindices, e, he, rfl⟩)
  rw [commitEntropy_finish, finish_finish] at hunpack
  exact ⟨_, _, exec_normalize_of_ok hm, rfl, hw2i, rfl, hunpack⟩

theorem seedprepTxt_eq_primitives (h : exec .seedprepTxt s = .next t) (ht : t.err = 0) :
    ∃ a, exec .normalize s = .next a ∧ a.err = 0 ∧ exec .salt a = .next t := by
  obtain ⟨u, hrun, rfl⟩ := exec_committed (exec_seedprepTxt s) h ht
  obtain ⟨m, hm, v, hv, rfl⟩ := runSeedprepTxt_ok.1 hrun
  have hnorm := exec_normalize_of_ok hm
  have hsalt := saltIn_of_same_operand (t := finish (commitNorm s m) 0 noIndex) hv rfl
    (readByte_passIn_of_frame (exec_frame hnorm) (by decide))
  refine ⟨_, hnorm, rfl, ?_⟩
  rw [exec_salt_of_ok hsalt, commitSalt_finish, finish_finish]

theorem seedprepBin_eq_primitives (h : exec .seedprepBin s = .next t) (ht : t.err = 0) :
    ∃ a, exec .i2w s = .next a ∧ a.err = 0 ∧ exec .salt a = .next t := by
  obtain ⟨u, hrun, rfl⟩ := exec_committed (exec_seedprepBin s) h ht
  obtain ⟨hsealed, i, hi, v, hv, rfl⟩ := runSeedprepBin_ok.1 hrun
  have hphrase := exec_of_commit (exec_i2w s) (runI2w_ok.2 ⟨hsealed, i, hi, rfl⟩)
  have hsalt := saltIn_of_same_operand (t := finish (commitPhrase s (phraseOf s.wt i)) 0 noIndex) hv rfl
    (readByte_passIn_of_frame (exec_frame hphrase) (by decide))
  refine ⟨_, hphrase, rfl, ?_⟩
  rw [exec_salt_of_ok hsalt, commitSalt_finish, finish_finish]

theorem m2eBin_eq_unpack (h : exec .m2eBin s = .next t) (ht : t.err = 0) : exec .unpack s = .next t := by
  obtain ⟨u, hrun, -⟩ := exec_committed (exec_m2eBin s) h ht
  obtain ⟨e, he, -⟩ := runM2eBin_ok.1 hrun
  obtain ⟨hsealed, -⟩ := decodeBinary_ok.1 he
  rw [← h, exec_m2eBin, exec_unpack, runM2eBin_of_sealed hsealed]

end Primitives

/-- Settles O58: each primitive finds what the one before it has committed, and a completion between two commits is overwritten by
the last one. -/
theorem compositesEqualTheirPrimitives : Obligations.CompositesEqualTheirPrimitives := by
  unfold Obligations.CompositesEqualTheirPrimitives
  exact fun s t hinv ht => ⟨fun h => e2m_eq_primitives h ht, fun h => m2eTxt_eq_primitives hinv h ht,
    fun h => m2eBin_eq_unpack h ht, fun h => seedprepTxt_eq_primitives h ht, fun h => seedprepBin_eq_primitives h ht⟩

/-! ### Text and indices are two forms of one mnemonic (R248) -/

/-- Settles O59: the entries at the looked-up indices are the tokens, and tokens joined are the text. -/
theorem textSurvivesBinaryForm : Obligations.TextSurvivesBinaryForm := by
  unfold Obligations.TextSurvivesBinaryForm
  intro s t hinv h ht
  obtain ⟨hsealed, n, v, e, hm, hlen, hcount, hv, he, hcommit⟩ := m2eTxt_committed h ht
  obtain ⟨-, hindices⟩ := indicesIn_commitIdx_lookup hinv.table hlen hcount hv e
  rw [← hcommit] at hindices
  have hsealed' : t.tableValid = true := by rw [hcommit]; simpa using hsealed
  have hwt : t.wt = s.wt := by rw [hcommit]; simp
  obtain ⟨-, hentries⟩ := lookupAll_entries hinv.table hv
  have hphrase : phraseOf t.wt v = n := by rw [phraseOf, hwt, hentries, joinSp_splitSp]
  have hi2w := exec_of_commit (exec_i2w t) (runI2w_ok.2 ⟨hsealed', v, hindices, rfl⟩)
  rw [hphrase] at hi2w
  have hnorm : HoldsNorm t n := by
    rw [hcommit]
    exact (((holdsNorm_commitNorm s hlen).commitIdx v).commitEntropy e).finish 0 noIndex
  obtain ⟨htext, hnormLen, -⟩ := hnorm
  refine ⟨_, hi2w, succeeded_finish _, ?_, ?_⟩
  · rw [finish_outLen, commitPhrase_outLen, ← hnormLen, BitVec.ofNat_toNat, BitVec.setWidth_eq]
  · rw [hnormLen, htext.bufBytes_eq hlen]
    exact (holds_commitPhrase t n).finish 0 noIndex

/-- Splitting a word, alone or before a separator. -/
theorem splitSp_of_no_space {w : Bytes} (h : Config.space ∉ w) : splitSp w = [w] := by
  induction w with
  | nil => rfl
  | cons b w ih =>
    rw [List.mem_cons, not_or] at h
    rw [splitSp, if_neg (Ne.symm h.1), ih h.2]

theorem splitSp_append_space {w : Bytes} (h : Config.space ∉ w) (t : Bytes) :
    splitSp (w ++ Config.space :: t) = w :: splitSp t := by
  induction w with
  | nil => rw [List.nil_append, splitSp, if_pos rfl]
  | cons b w ih =>
    rw [List.mem_cons, not_or] at h
    rw [List.cons_append, splitSp, if_neg (Ne.symm h.1), ih h.2]

/-- Splitting undoes joining where no word holds the separator. -/
theorem splitSp_joinSp {ws : List Bytes} (hne : ws ≠ []) (h : ∀ w ∈ ws, Config.space ∉ w) : splitSp (joinSp ws) = ws := by
  induction ws with
  | nil => exact absurd rfl hne
  | cons w ws ih =>
    obtain ⟨hw, hws⟩ := List.forall_mem_cons.1 h
    cases ws with
    | nil => exact splitSp_of_no_space hw
    | cons w' ws =>
      calc splitSp (joinSp (w :: w' :: ws)) = splitSp (w ++ Config.space :: joinSp (w' :: ws)) := rfl
        _ = w :: w' :: ws := by rw [splitSp_append_space hw, ih (List.cons_ne_nil w' ws) hws]

/-- Settles O60: the phrase splits into the entries, and an entry that is not repeated looks up to its own index. -/
theorem binarySurvivesTextForm : Obligations.BinarySurvivesTextForm := by
  unfold Obligations.BinarySurvivesTextForm
  intro s v hinv _ hne hinj hspace hle
  have hsplit : splitSp (phraseOf s.wt v) = v.map (wtEntry s.wt) := by
    refine splitSp_joinSp (by simpa using hne) fun w hw => ?_
    obtain ⟨x, hx, rfl⟩ := List.mem_map.1 hw
    exact hspace x (Nat.lt_succ_of_le (hle x hx))
  rw [hsplit, List.map_map]
  refine List.map_congr_left fun x hx => hinv.ridx_eq_some_iff.2 ?_
  have hlt : x < 2048 := Nat.lt_succ_of_le (hle x hx)
  refine ⟨hlt, rfl, fun j hj heq => ?_⟩
  have := hinj j (Nat.lt_trans hj hlt) x hlt heq
  omega

end Sys2Proof.Machine
end
